-- ==== Sys2Proof/Word.lean ====
section
/-!
DEFINITION. The word types of the block: what the spec treats as a pattern of bits of a fixed width.
-/

namespace Sys2Proof

/-- A storage byte or an 8-bit operand (R49, R122). -/
abbrev Byte := BitVec 8

/-- A 16-bit operand, index or counter (R44, R47, R48, R123). -/
abbrev Half := BitVec 16

/-- A 32-bit register or command word (R81, R120). -/
abbrev Word := BitVec 32

/-- The bit pattern of an IEEE 754 binary64 value (R25). -/
abbrev F64 := BitVec 64

end Sys2Proof
end

