-- ==== Sys2Proof/Syntax.lean ====
section
/-!
DEFINITION. The ports, the commands, and the steps that the agents of the block take (R2, R20, R125).
-/

namespace Sys2Proof

/-- The three command ports (R2, R80): `h` carries PS, CL, the operand registers and the variable file,
`p` is the ring buffer's producer port, `c` its consumer port. -/
inductive Port
  | h
  | p
  | c
deriving DecidableEq, Repr, Inhabited

/-- The commands, one constructor per row of the opcode map (R125). A command that more than one port accepts
carries the port it is issued on, as the assembly syntax does with its suffix `@X` (R130). -/
inductive Instr
  /-- R155 -/
  | nop (x : Port)
  /-- R224: `A = n` -/
  | psInit (n : Byte)
  /-- R225: `A = index` -/
  | psSetChannel (index : Byte)
  /-- R226 -/
  | psSetAll
  /-- R227: `A = base` -/
  | psSetChannels (base : Byte)
  /-- R283: `A = k` -/
  | clMake (k : Byte)
  /-- R284: `A = n` -/
  | clInit (n : Byte)
  /-- R285 -/
  | clIterate
  /-- R171: `L`, the backing length -/
  | rbInit (len : Half)
  /-- R172: `A`, the byte -/
  | rbPush (a : Byte)
  /-- R173: `A`, the byte -/
  | rbPushOverwrite (a : Byte)
  /-- R174 -/
  | rbIsEmpty (x : Port)
  /-- R175 -/
  | rbIsFull (x : Port)
  /-- R176 -/
  | rbPushAvailable (x : Port)
  /-- R177 -/
  | rbPopAvailable (x : Port)
  /-- R178 -/
  | rbPop
  /-- R179 -/
  | rbPeek
deriving DecidableEq, Repr, Inhabited

/-- The agents that can be the master of a port (R20, R24). -/
inductive Master
  | hostH
  | masterP
  | masterC
deriving DecidableEq, Repr, Inhabited

/-- The width of a bus access. The ports accept `word` only (R89). -/
inductive AccessSize
  | byte
  | half
  | word
  | double
deriving DecidableEq, Repr, Inhabited

/-- The two bus access primitives (R84); a write carries the 32-bit value. -/
inductive BusOp
  | read
  | write (v : Word)
deriving DecidableEq, Repr, Inhabited

/-- One bus access: who issues it, its width, its byte address on the host bus, and what it does. -/
structure Access where
  master : Master
  size : AccessSize
  addr : Nat
  op : BusOp
deriving DecidableEq, Repr, Inhabited

/-- One atomic step of one agent (R20), or of the platform, which asserts reset (R390). -/
inductive Action
  /-- a bus access of a port's master -/
  | bus (a : Access)
  /-- the `CLK` step (R347) -/
  | clk
  /-- the `SYNC_P` step (R180) -/
  | syncP
  /-- the `SYNC_C` step (R181) -/
  | syncC
  /-- the reset event (R390) -/
  | reset
deriving DecidableEq, Repr, Inhabited

end Sys2Proof
end

