-- ==== Sys2Proof/Config.lean ====
section
/-!
DEFINITION. The parameters of the block (R6 to R18), the reference configuration (R19), and the free values:
what the spec leaves to the environment or calls unspecified.
-/

namespace Sys2Proof.Config

/-- The record of all parameters, which "a model takes ... as an argument" (00_scope.md section 3). Their constraints
are `Params.wellFormed` in WellFormed.lean. -/
structure Params where
  /-- `F_CLK` (R6) -/
  fClk : Nat
  /-- `PS_PRESCALE` (R7) -/
  psPrescale : Nat
  /-- `PS_PERIOD`, written `P` (R8) -/
  psPeriod : Nat
  /-- `PS_MIN` (R9) -/
  psMin : Nat
  /-- `PS_MAX` (R9) -/
  psMax : Nat
  /-- `PS_NMAX` (R10) -/
  psNmax : Nat
  /-- `PS_W` (R11) -/
  psW : Nat
  /-- `CL_TOP` (R12) -/
  clTop : Nat
  /-- `CL_NMAX` (R14) -/
  clNmax : Nat
  /-- `VAR_COUNT` (R15) -/
  varCount : Nat
  /-- `RB_SIZE` (R16) -/
  rbSize : Nat
  /-- `RB_CDC = 1` (R17) -/
  rbCdc : Bool
  /-- `BASE_H` (R18) -/
  baseH : Nat
  /-- `BASE_P` (R18) -/
  baseP : Nat
  /-- `BASE_C` (R18) -/
  baseC : Nat
  /-- the one master of port H (R24) -/
  masterH : Master
  /-- the one master of port P (R24) -/
  masterP : Master
  /-- the one master of port C (R24) -/
  masterC : Master
deriving DecidableEq, Repr, Inhabited

/-- `CL_OVF_MAX`, where the overflow counter saturates (R13). -/
def clOvfMax : Nat := 65535

/-- The size in bytes of port H's window (R80). -/
def windowH : Nat := 0x2000

/-- The size in bytes of port P's and of port C's window (R80). -/
def windowPC : Nat := 0x20

/-- The reference configuration `TEST_CFG` (R19). The bases and the masters are not in R19: DESIGN CHOICE, log 4. -/
def testCfg : Params where
  fClk := 1000000
  psPrescale := 1
  psPeriod := 20000
  psMin := 1000
  psMax := 2000
  psNmax := 10
  psW := 16
  clTop := 65536
  clNmax := 4
  varCount := 16
  rbSize := 8
  rbCdc := false
  baseH := 0
  baseP := 0x2000
  baseC := 0x2020
  masterH := .hostH
  masterP := .masterP
  masterC := .masterC

/-- FREE VALUE. Which step is taken when no agent has placed one: "any enabled agent may take the next step" (R20).
Applied to a counter of such choices. DESIGN CHOICE, log 2. -/
opaque environment : Nat → Action

/-- FREE VALUE. What byte `j` of `rb_mem` holds after a reset, until a push writes it: "its value after reset is
unspecified" (R49). Applied to the number of resets and to `j`. DESIGN CHOICE, log 5. -/
opaque rbUnwritten : Nat → Nat → Byte

end Sys2Proof.Config
end

