-- ==== Sys2Proof/WellFormed.lean ====
section
/-!
DEFINITION. What the spec requires of a command, of the record of parameters and of a bus access, as checks.
-/

namespace Sys2Proof

/-- The ports that accept the ring buffer's queries (R125). -/
def Port.isRing : Port → Bool
  | .h => false
  | .p => true
  | .c => true

/-- A command is well formed when its port is one that its row of the opcode map lists (R125). The other operands take
every value of their field (R124). -/
def Instr.wellFormed : Instr → Bool
  | .nop _ => true
  | .psInit _ => true
  | .psSetChannel _ => true
  | .psSetAll => true
  | .psSetChannels _ => true
  | .clMake _ => true
  | .clInit _ => true
  | .clIterate => true
  | .rbInit _ => true
  | .rbPush _ => true
  | .rbPushOverwrite _ => true
  | .rbIsEmpty x => x.isRing
  | .rbIsFull x => x.isRing
  | .rbPushAvailable x => x.isRing
  | .rbPopAvailable x => x.isRing
  | .rbPop => true
  | .rbPeek => true

namespace Config

/-- Two windows of bytes share no address (R18). -/
def disjointWindows (a na b nb : Nat) : Bool := a + na ≤ b || b + nb ≤ a

/-- The constraints on `F_CLK` (R6). -/
def Params.clockOk (c : Params) : Bool := 1 ≤ c.fClk && c.fClk ≤ 2 ^ 53

/-- The constraints on the parameters of PS (R7 to R11). -/
def Params.psOk (c : Params) : Bool :=
  1 ≤ c.psPrescale && c.psPrescale ≤ 2 ^ 32 - 1
    && 1 ≤ c.psPeriod && c.psPeriod ≤ 2 ^ c.psW - 1 && c.psW ≤ 32
    && c.psMin ≤ c.psMax && c.psMax < c.psPeriod
    && 1 ≤ c.psNmax && c.psNmax ≤ 32

/-- The constraints on the parameters of CL and of the variable file (R12, R14, R15). -/
def Params.clOk (c : Params) : Bool :=
  2 ≤ c.clTop && c.clTop ≤ 65536
    && 1 ≤ c.clNmax && c.clNmax ≤ 32
    && 1 ≤ c.varCount && c.varCount ≤ 256

/-- The constraints on the size of the ring buffer (R16). -/
def Params.rbOk (c : Params) : Bool := 2 ≤ c.rbSize && c.rbSize ≤ 65535

/-- The constraints on the windows: aligned and not overlapping (R18). -/
def Params.basesOk (c : Params) : Bool :=
  c.baseH % 4 == 0 && c.baseP % 4 == 0 && c.baseC % 4 == 0
    && disjointWindows c.baseH windowH c.baseP windowPC
    && disjointWindows c.baseH windowH c.baseC windowPC
    && disjointWindows c.baseP windowPC c.baseC windowPC

/-- The constraints of R6 to R18, all together. -/
def Params.wellFormed (c : Params) : Bool := c.clockOk && c.psOk && c.clOk && c.rbOk && c.basesOk

end Config

end Sys2Proof
end

