-- ==== Sys2Proof/Decode.lean ====
section
/-!
DEFINITION. The command word: its formats, the opcode map, the decoder and the encoder (R120 to R132).
-/

namespace Sys2Proof

/-- The formats of a command word (R121 to R123). -/
inductive Format
  | z
  | a
  | l
deriving DecidableEq, Repr

/-- Why a word spells no command on a port. The first three are `ILLEGAL` of R127; the last is a byte sequence that is
not one 32-bit word (R120). -/
inductive DecodeError
  | reservedOpcode (op : Byte)
  | nonzeroMbz
  | wrongPort
  | notOneWord
deriving DecidableEq, Repr

/-- A row of the opcode map (R125), with the command it spells from the port, `A` and `L`. -/
structure OpRow where
  op : Byte
  mnemonic : String
  format : Format
  ports : List Port
  build : Port → Byte → Half → Instr

/-- The rows of `NOP` and of the PS commands (R125). -/
def opRowsPs : List OpRow :=
  [ ⟨0x00, "NOP", .z, [.h, .p, .c], fun x _ _ => .nop x⟩,
    ⟨0x10, "PS_INIT", .a, [.h], fun _ a _ => .psInit a⟩,
    ⟨0x11, "PS_SET_CHANNEL", .a, [.h], fun _ a _ => .psSetChannel a⟩,
    ⟨0x12, "PS_SET_ALL", .z, [.h], fun _ _ _ => .psSetAll⟩,
    ⟨0x13, "PS_SET_CHANNELS", .a, [.h], fun _ a _ => .psSetChannels a⟩ ]

/-- The rows of the CL commands (R125). -/
def opRowsCl : List OpRow :=
  [ ⟨0x20, "CL_MAKE", .a, [.h], fun _ a _ => .clMake a⟩,
    ⟨0x21, "CL_INIT", .a, [.h], fun _ a _ => .clInit a⟩,
    ⟨0x22, "CL_ITERATE", .z, [.h], fun _ _ _ => .clIterate⟩ ]

/-- The rows of the RB commands (R125). -/
def opRowsRb : List OpRow :=
  [ ⟨0x30, "RB_INIT", .l, [.p], fun _ _ l => .rbInit l⟩,
    ⟨0x31, "RB_PUSH", .a, [.p], fun _ a _ => .rbPush a⟩,
    ⟨0x32, "RB_PUSH_OVERWRITE", .a, [.p], fun _ a _ => .rbPushOverwrite a⟩,
    ⟨0x34, "RB_IS_EMPTY", .z, [.p, .c], fun x _ _ => .rbIsEmpty x⟩,
    ⟨0x35, "RB_IS_FULL", .z, [.p, .c], fun x _ _ => .rbIsFull x⟩,
    ⟨0x36, "RB_PUSH_AVAILABLE", .z, [.p, .c], fun x _ _ => .rbPushAvailable x⟩,
    ⟨0x37, "RB_POP_AVAILABLE", .z, [.p, .c], fun x _ _ => .rbPopAvailable x⟩,
    ⟨0x38, "RB_POP", .z, [.c], fun _ _ _ => .rbPop⟩,
    ⟨0x39, "RB_PEEK", .z, [.c], fun _ _ _ => .rbPeek⟩ ]

/-- The opcode map (R125). -/
def opRows : List OpRow := opRowsPs ++ opRowsCl ++ opRowsRb

/-- The row of an opcode, none when the opcode is reserved (R128). -/
def rowOf (op : Byte) : Option OpRow := opRows.find? fun r => r.op == op

/-- `OP = w[7:0]` (R120). -/
def opField (w : Word) : Byte := w.extractLsb' 0 8

/-- `A = w[15:8]` (R124). -/
def aField (w : Word) : Byte := w.extractLsb' 8 8

/-- `L = w[31:16]` (R124). -/
def lField (w : Word) : Half := w.extractLsb' 16 16

/-- The must-be-zero bits of the format are zero (R121 to R123, R127). -/
def mbzOk (f : Format) (w : Word) : Bool :=
  match f with
  | .z => w.extractLsb' 8 24 == 0#24
  | .a => w.extractLsb' 16 16 == 0#16
  | .l => w.extractLsb' 8 8 == 0#8

/-- Decoding is total: the checks of R127, in its order. -/
def decode (x : Port) (w : Word) : Except DecodeError Instr :=
  match rowOf (opField w) with
  | none => .error (.reservedOpcode (opField w))
  | some r =>
    if mbzOk r.format w then
      if r.ports.contains x then .ok (r.build x (aField w) (lField w)) else .error .wrongPort
    else .error .nonzeroMbz

/-- A 32-bit word as the bytes the bus holds, the least significant first (R88). -/
def wordBytes (w : Word) : List Byte :=
  [w.extractLsb' 0 8, w.extractLsb' 8 8, w.extractLsb' 16 8, w.extractLsb' 24 8]

/-- The 32-bit word of four bytes, the least significant first (R88). -/
def bytesWord : List Byte → Option Word
  | [b0, b1, b2, b3] => some ((b3 ++ b2 ++ b1 ++ b0 : BitVec 32))
  | _ => none

/-- Decoding from the bytes of one command word (R88, R120). -/
def decodeBytes (x : Port) (bs : List Byte) : Except DecodeError Instr :=
  match bytesWord bs with
  | some w => decode x w
  | none => .error .notOneWord

/-- `word_Z(op)` (R132). -/
def wordZ (op : Byte) : Word := op.setWidth 32

/-- `word_A(op, a) = (a << 8) | op` (R132). -/
def wordA (op a : Byte) : Word := (a.setWidth 32 <<< 8) ||| op.setWidth 32

/-- `word_L(op, l) = (l << 16) | op` (R132). -/
def wordL (op : Byte) (l : Half) : Word := (l.setWidth 32 <<< 16) ||| op.setWidth 32

/-- The command word of a command (R125, R132). -/
def encode : Instr → Word
  | .nop _ => wordZ 0x00
  | .psInit n => wordA 0x10 n
  | .psSetChannel i => wordA 0x11 i
  | .psSetAll => wordZ 0x12
  | .psSetChannels b => wordA 0x13 b
  | .clMake k => wordA 0x20 k
  | .clInit n => wordA 0x21 n
  | .clIterate => wordZ 0x22
  | .rbInit l => wordL 0x30 l
  | .rbPush a => wordA 0x31 a
  | .rbPushOverwrite a => wordA 0x32 a
  | .rbIsEmpty _ => wordZ 0x34
  | .rbIsFull _ => wordZ 0x35
  | .rbPushAvailable _ => wordZ 0x36
  | .rbPopAvailable _ => wordZ 0x37
  | .rbPop => wordZ 0x38
  | .rbPeek => wordZ 0x39

/-- The port a command is issued on (R125, R130). -/
def Instr.port : Instr → Port
  | .nop x => x
  | .psInit _ => .h
  | .psSetChannel _ => .h
  | .psSetAll => .h
  | .psSetChannels _ => .h
  | .clMake _ => .h
  | .clInit _ => .h
  | .clIterate => .h
  | .rbInit _ => .p
  | .rbPush _ => .p
  | .rbPushOverwrite _ => .p
  | .rbIsEmpty x => x
  | .rbIsFull x => x
  | .rbPushAvailable x => x
  | .rbPopAvailable x => x
  | .rbPop => .c
  | .rbPeek => .c

/-- A port that accepts the opcode of `w`: the first its row lists, and port H for a reserved opcode (log 20). -/
def acceptingPort (w : Word) : Port :=
  match rowOf (opField w) with
  | some r => r.ports.headD .h
  | none => .h

/-- The word of an instruction of `nbits` bits `w`, every bit above `nbits` zero; no command is longer than a word (R120). -/
def tableWord (nbits w : Nat) : Option Word :=
  if nbits ≤ 32 then some (BitVec.ofNat 32 (w % 2 ^ nbits)) else none

/-- The command that the decoder reads from the bytes of a table word, on a port that accepts its opcode. -/
def decodeTableWord (nbits w : Nat) : Option Instr :=
  match tableWord nbits w with
  | some v => (decodeBytes (acceptingPort v) (wordBytes v)).toOption
  | none => none

end Sys2Proof
end

