-- ==== Sys2Proof/Machine/State.lean ====
section
/-!
DEFINITION. The state of the block (10_state.md), the reasons a step can stop, and the state after reset (R390).
-/

namespace Sys2Proof.Machine

open Sys2Proof.Config (Params)

/-- Why the machine stops with a fault. The spec has no trap (R341); the one fault here is the model's. -/
inductive Fault
  /-- Raised by a ring-buffer command that reaches `rb_mem[index]` with `index >= RB_SIZE`, a byte that does not exist
  (R49). Safe: it stops where the spec defines nothing, and no state that a run reaches raises it (log 6). -/
  | storageOutOfRange (index : Nat)
deriving DecidableEq, Repr

/-- Why the model refuses a step: "a master that issues one has no next step" (R89). -/
inductive Refusal
  /-- Raised by an arm of `exec` for a command without a meaning; no arm does. Safe. -/
  | notModelled (mnemonic : String)
  /-- Raised by an 8-, 16- or 64-bit bus access (R89). Safe: the spec defines no result. -/
  | accessWidth (size : AccessSize)
  /-- Raised by a bus access whose address is not a multiple of 4 (R89). Safe: the spec defines no result. -/
  | misaligned (addr : Nat)
  /-- Raised by a bus access outside every window (R89, R100). Safe: the spec defines no result. -/
  | outsideWindows (addr : Nat)
  /-- Raised by an access of an agent that is not the port's one master (R24). Safe: "the model refuses it". -/
  | secondMaster (port : Port)
  /-- Raised by a `SYNC_P` or `SYNC_C` step with `RB_CDC = 0`, where those agents are not present (R20). Safe. -/
  | agentAbsent
deriving DecidableEq, Repr

/-- The registers a port has of its own (R32), and what its last bus read returned to the master (R84; the model's own
field, log 7). -/
structure PortRegs where
  /-- `X.STATUS` (R32) -/
  status : Word
  /-- `X.RES` (R32) -/
  res : Word
  /-- the 32-bit result of the last `BusRead` on the port (R84) -/
  rdata : Word
deriving DecidableEq, Repr

/-- `ps_phase` (R39): 0 is `WAITING_LOW(ps_cur)`, 1 is `DRIVING_HIGH(ps_cur)`. -/
inductive Phase
  | waitingLow
  | drivingHigh
deriving DecidableEq, Repr

/-- The pulse scheduler's state (R34 to R41). A value of `PS_W <= 32` bits is held in 32 bits (log 12). -/
structure Pulse where
  /-- `ps_out[i]` is bit `i` (R34) -/
  out : Word
  /-- `ps_armed` (R35) -/
  armed : Bool
  /-- `ps_n` (R36) -/
  n : BitVec 6
  /-- `ps_slot` (R37) -/
  slot : Word
  /-- `ps_duty[i]`, `PS_NMAX` entries (R38) -/
  duty : List Word
  /-- `ps_cur` (R39) -/
  cur : BitVec 5
  /-- `ps_phase` (R39) -/
  phase : Phase
  /-- `ps_cnt` (R40) -/
  cnt : Word
  /-- `ps_deadline` (R40) -/
  deadline : Word
  /-- `ps_pre` (R41) -/
  pre : Word
deriving DecidableEq, Repr

/-- An entry of the controller table (R46). -/
structure Controller where
  valid : Bool
  sp : Byte
  meas : Byte
  out : Byte
  kp : F64
  ki : F64
  kd : F64
  imax : F64
  dmax : F64
  outmax : F64
  sum : F64
  last : F64
deriving DecidableEq, Repr

/-- The control-loop unit's state (R43 to R46). -/
structure Loop where
  /-- `cl_run` (R43) -/
  run : Bool
  /-- `cl_n` (R43) -/
  n : BitVec 6
  /-- `cl_cnt` (R44) -/
  cnt : Half
  /-- `cl_ovf` (R45) -/
  ovf : Half
  /-- the controller table, `CL_NMAX` entries (R46) -/
  table : List Controller
deriving DecidableEq, Repr

/-- The ring buffer's state (R47 to R50). -/
structure Ring where
  /-- `rb_init` (R47) -/
  ready : Bool
  /-- `rb_len`, the backing length `L` (R47) -/
  len : Half
  /-- `rb_wr` (R48) -/
  wr : Half
  /-- `rb_rd` (R48) -/
  rd : Half
  /-- `rb_mem`, the bytes written since reset, addresses strictly rising (R49) -/
  mem : List Host.Cell
  /-- `rb_rd_sync_p`; stays 0 with `RB_CDC = 0` (R50) -/
  rdSyncP : Half
  /-- `rb_wr_sync_c`; stays 0 with `RB_CDC = 0` (R50) -/
  wrSyncC : Half
deriving DecidableEq, Repr

/-- The whole block (10_state.md), with the model's own fields: the parameters (R53; log 3), the steps that agents have
placed (log 1), and the counters that select free values (log 2, log 5). -/
structure State where
  /-- the parameters, constant for the run (R53) -/
  cfg : Params
  /-- port H's registers (R32) -/
  portH : PortRegs
  /-- port P's registers (R32) -/
  portP : PortRegs
  /-- port C's registers (R32) -/
  portC : PortRegs
  /-- `H.ARG0` to `H.ARG5` (R33) -/
  args : Vector F64 6
  /-- `H.IARG` (R33) -/
  iarg : Word
  /-- the pulse scheduler -/
  ps : Pulse
  /-- the variable file `VAR`, `VAR_COUNT` entries (R42) -/
  vars : List F64
  /-- the control loop -/
  cl : Loop
  /-- the ring buffer -/
  rb : Ring
  /-- the steps that agents have placed, oldest first (the model's own; log 1) -/
  pending : List Action
  /-- how many steps were chosen freely (the model's own; log 2) -/
  turn : Nat
  /-- how many platform resets have happened (the model's own; log 5) -/
  resets : Nat
deriving DecidableEq, Repr

/-- A port's registers after reset (R32). -/
def PortRegs.reset : PortRegs := ⟨0, 0, 0⟩

/-- The pulse scheduler after reset (R34 to R41): idle, every line LOW. -/
def Pulse.reset (c : Params) : Pulse where
  out := 0
  armed := false
  n := 0
  slot := 0
  duty := List.replicate c.psNmax 0
  cur := 0
  phase := .waitingLow
  cnt := 0
  deadline := 0
  pre := 0

/-- A controller entry after reset (R46). -/
def Controller.reset : Controller := ⟨false, 0, 0, 0, 0, 0, 0, 0, 0, 0, 0, 0⟩

/-- The control loop after reset (R43 to R46). -/
def Loop.reset (c : Params) : Loop := ⟨false, 0, 0, 0, List.replicate c.clNmax .reset⟩

/-- The ring buffer after reset (R47 to R50): nothing is listed in `rb_mem`. -/
def Ring.reset : Ring := ⟨false, 0, 0, 0, [], 0, 0⟩

/-- The machine right after reset, for the parameters `c` (R390): every element at its rule's reset value. -/
def State.resetOf (c : Params) : State where
  cfg := c
  portH := .reset
  portP := .reset
  portC := .reset
  args := Vector.replicate 6 0
  iarg := 0
  ps := .reset c
  vars := List.replicate c.varCount 0
  cl := .reset c
  rb := .reset
  pending := []
  turn := 0
  resets := 0

/-- The machine right after reset, with the reference configuration of R19 (log 3). -/
def State.reset : State := State.resetOf Config.testCfg

end Sys2Proof.Machine
end

