-- ==== Sys2Proof/Machine/Flags.lean ====
section
/-!
DEFINITION. The flags of the block (R51): the status codes (R340), the ring buffer's empty and full conditions with its
two counts (R170), and the status observation words (R85, R86).
-/

namespace Sys2Proof.Machine

/-- The status codes (R340). -/
inductive StatusCode
  | ok
  | full
  | empty
  | indexRange
  | notInit
  | badArg
  | illegal
  | skipped
deriving DecidableEq, Repr

/-- The number of a status code (R340). -/
def codeNumber : StatusCode → Nat
  | .ok => 0
  | .full => 1
  | .empty => 2
  | .indexRange => 3
  | .notInit => 4
  | .badArg => 5
  | .illegal => 6
  | .skipped => 7

/-- `X.STATUS`: the code in bits [3:0], the other bits 0 (R32, R153). -/
def statusWord (c : StatusCode) : Word := BitVec.ofNat 32 (codeNumber c)

/-- `empty(w, r)` (R170). -/
def ringEmpty (w r : Nat) : Bool := w == r

/-- `full(w, r)` for the backing length `len` (R170). -/
def ringFull (len w r : Nat) : Bool := (w + 1) % len == r

/-- `push_avail(w, r)`, the free storage bytes (R170). -/
def pushAvail (len w r : Nat) : Nat := (((r : Int) - w - 1) % (len : Int)).toNat

/-- `pop_avail(w, r)`, the bytes available to read (R170). -/
def popAvail (len w r : Nat) : Nat := (((w : Int) - r) % (len : Int)).toNat

/-- A truth value as a result: 1 or 0 (R22). -/
def boolWord (b : Bool) : Word := if b then 1 else 0

/-- `H.PS_STAT` (R86): [0] `ps_armed`, [1] `ps_phase`, [12:8] `ps_cur`, [21:16] `ps_n`. -/
def psStatWord (u : Pulse) : Word :=
  boolWord u.armed ||| (boolWord (u.phase == .drivingHigh) <<< 1)
    ||| (u.cur.setWidth 32 <<< 8) ||| (u.n.setWidth 32 <<< 16)

/-- `H.CL_STAT` (R86): [0] `cl_run`, [13:8] `cl_n`. -/
def clStatWord (u : Loop) : Word := boolWord u.run ||| (u.n.setWidth 32 <<< 8)

/-- `P.RB_CFG` and `C.RB_CFG` (R85): [15:0] `rb_len`, [16] `rb_init`, [17] `RB_CDC`. -/
def rbCfgWord (cdc : Bool) (u : Ring) : Word :=
  u.len.setWidth 32 ||| (boolWord u.ready <<< 16) ||| (boolWord cdc <<< 17)

/-- `H.CTL_REF[k]` (R83): [7:0] `sp`, [15:8] `meas`, [23:16] `out`, [24] `valid`. -/
def ctlRefWord (c : Controller) : Word :=
  c.sp.setWidth 32 ||| (c.meas.setWidth 32 <<< 8) ||| (c.out.setWidth 32 <<< 16) ||| (boolWord c.valid <<< 24)

end Sys2Proof.Machine
end

