-- ==== Sys2Proof/Machine/Operands.lean ====
section
/-!
DEFINITION. The operands a command reads (R124): the fields of `H.IARG`, the operand registers `H.ARG0` to `H.ARG5`, the
entries of the variable file and of the controller table, and the halves of a 64-bit value (R90).
-/

namespace Sys2Proof.Machine

/-- `SP = H.IARG[7:0]` (R124). -/
def iargSp (s : State) : Byte := s.iarg.extractLsb' 0 8

/-- `MEAS = H.IARG[15:8]` (R124). -/
def iargMeas (s : State) : Byte := s.iarg.extractLsb' 8 8

/-- `OUT = H.IARG[23:16]` (R124). -/
def iargOut (s : State) : Byte := s.iarg.extractLsb' 16 8

/-- `VAR[i]` (R42). An entry beyond the file does not exist; it reads as 0, as R87 has it for such an offset (log 14). -/
def varAt (s : State) (i : Nat) : F64 := s.vars.getD i 0

/-- `ps_duty[i]` (R38); beyond the table 0 (R87, log 14). -/
def dutyAt (u : Pulse) (i : Nat) : Word := u.duty.getD i 0

/-- Entry `k` of the controller table (R46); beyond the table every field 0 (R87, log 14). -/
def ctlAt (u : Loop) (k : Nat) : Controller := u.table.getD k .reset

/-- Bits [31:0] of a 64-bit value (R90). -/
def loHalf (x : F64) : Word := x.extractLsb' 0 32

/-- Bits [63:32] of a 64-bit value (R90). -/
def hiHalf (x : F64) : Word := x.extractLsb' 32 32

/-- The 64-bit value with a new low half (R90). -/
def withLo (x : F64) (v : Word) : F64 := hiHalf x ++ v

/-- The 64-bit value with a new high half (R90). -/
def withHi (x : F64) (v : Word) : F64 := v ++ loHalf x

end Sys2Proof.Machine
end

