-- ==== Sys2Proof/Machine/Ops.lean ====
section
/-!
DEFINITION. The operations that the commands share: the two registers a port reports in (R153), success and failure of a
command (R154; the block's only way to report an error, since it takes no trap, R341), the ring buffer's storage (R49),
and the stores of values of a parametric width.
-/

namespace Sys2Proof.Machine

open Sys2Proof.Config (Params)

/-- What a step answers. -/
abbrev Answer := Host.Outcome State Fault Refusal

/-! ## Ports -/

/-- The registers of port `x`. -/
def State.port (s : State) : Port → PortRegs
  | .h => s.portH
  | .p => s.portP
  | .c => s.portC

/-- The state with the registers of port `x` replaced. -/
def State.setPort (s : State) (x : Port) (r : PortRegs) : State :=
  match x with
  | .h => { s with portH := r }
  | .p => { s with portP := r }
  | .c => { s with portC := r }

/-- `status(c); result(v)` on port `x`: the two writes that end every command (R23, R153). -/
def complete (x : Port) (c : StatusCode) (v : Word) (s : State) : State :=
  s.setPort x { s.port x with status := statusWord c, res := v }

/-- A command that performed its effects ends with `OK` and a result (R153). -/
def succeed (x : Port) (v : Word) (s : State) : Answer := .next (complete x .ok v s)

/-- `fail(c)`: status `c`, result 0, and no other change (R23, R154). -/
def fail (x : Port) (c : StatusCode) (s : State) : Answer := .next (complete x c 0 s)

/-! ## Stores of a parametric width -/

/-- The value as it is stored in `PS_W` bits (R11, R22; log 12). -/
def psStore (c : Params) (v : Nat) : Word := BitVec.ofNat 32 (v % 2 ^ c.psW)

/-- `ps_out[i] <- b` (R34). -/
def setLine (out : Word) (i : Nat) (b : Bool) : Word :=
  if b then out ||| (1#32 <<< i) else out &&& ~~~(1#32 <<< i)

/-- The level of line `PWM_OUT[i]` (R34, R228). -/
def pwmOut (s : State) (i : Nat) : Bool := s.ps.out.getLsbD i

/-! ## The ring buffer's storage -/

/-- The byte listed at `j`, none where nothing is listed. -/
def Memory.read : List Host.Cell → Nat → Option Byte
  | [], _ => none
  | (a, b) :: m, j => if a = j then some b else Memory.read m j

/-- The byte at `j` becomes `v`; the addresses stay strictly rising. -/
def Memory.write : List Host.Cell → Nat → Byte → List Host.Cell
  | [], j, v => [(j, v)]
  | (a, b) :: m, j, v =>
    if j < a then (j, v) :: (a, b) :: m
    else if j = a then (j, v) :: m
    else (a, b) :: Memory.write m j v

/-- Every address of the list is above `k`, each above the one before. -/
def Memory.risingFrom : Nat → List Host.Cell → Bool
  | _, [] => true
  | k, (a, _) :: m => decide (k ≤ a) && Memory.risingFrom (a + 1) m

/-- The canonical form: addresses strictly rising. An unlisted byte has no value of its own, so no entry can equal it. -/
def Memory.wf (m : List Host.Cell) : Bool := Memory.risingFrom 0 m

/-- `rb_mem[j]` (R49): the byte listed there, and a free value where no push has written since reset (log 5). -/
def ringByte (s : State) (j : Nat) : Byte := (Memory.read s.rb.mem j).getD (Config.rbUnwritten s.resets j)

/-- An access to `rb_mem[j]` goes on as `k` says when the byte exists, and faults beyond `RB_SIZE` (R49, log 6). -/
def withStorage (s : State) (j : Nat) (k : Answer) : Answer :=
  if j < s.cfg.rbSize then k else .fault (.storageOutOfRange j)

/-! ## The ring buffer's views -/

/-- `view_rd_P` (R170). -/
def viewRdP (s : State) : Half := if s.cfg.rbCdc then s.rb.rdSyncP else s.rb.rd

/-- `view_wr_C` (R170). -/
def viewWrC (s : State) : Half := if s.cfg.rbCdc then s.rb.wrSyncC else s.rb.wr

/-- `pair(X)`: the port's own index and its view of the other side's (R170). Port H has none. -/
def ringPair (s : State) : Port → Option (Half × Half)
  | .h => none
  | .p => some (s.rb.wr, viewRdP s)
  | .c => some (viewWrC s, s.rb.rd)

/-- `(i + 1) mod L` (R172). -/
def ringNext (len i : Half) : Half := BitVec.ofNat 16 ((i.toNat + 1) % len.toNat)

/-- A query of the ring buffer (R174 to R177): `NOT_INIT` before `RB_INIT`, else `OK` with `f L w r`. On a port that the
opcode map does not list it is `ILLEGAL` (R127, log 16). -/
def ringQuery (x : Port) (f : Nat → Nat → Nat → Word) (s : State) : Answer :=
  match ringPair s x with
  | none => fail x .illegal s
  | some (w, r) => if s.rb.ready then succeed x (f s.rb.len.toNat w.toNat r.toNat) s else fail x .notInit s

end Sys2Proof.Machine
end

