-- ==== Sys2Proof/Machine/Common.lean ====
section
/-!
DEFINITION. The meaning of `NOP` (40_common.md).
-/

namespace Sys2Proof.Machine

/-- `NOP` (R155): `OK` and result 0 on the port it is issued on. -/
def execNop (x : Port) (s : State) : Answer := succeed x 0 s

end Sys2Proof.Machine
end

