-- ==== Sys2Proof/Machine/F64.lean ====
section
/-!
DEFINITION. IEEE 754 binary64 with roundTiesToEven (R25): exact integer arithmetic, then one rounding.

Every finite binary64 value is an integer multiple of `2^-1074`, so an exact result is a fraction `num / den` of that
unit, and one function rounds it. The definitions of IEEE 754 are PRESUMED, as R25 itself says (log 15).
-/

namespace Sys2Proof.Machine

/-- The canonical quiet NaN (R25). -/
def canonicalNaN : F64 := 0x7FF8000000000000

/-- The sign bit. -/
def signBit (x : F64) : Bool := x.getLsbD 63

/-- The biased exponent, bits 62 to 52. -/
def biasedExp (x : F64) : Nat := x.toNat / 2 ^ 52 % 2 ^ 11

/-- The fraction, bits 51 to 0. -/
def fraction (x : F64) : Nat := x.toNat % 2 ^ 52

/-- `isNaN(x)` (R25). -/
def isNaN (x : F64) : Bool := biasedExp x == 2047 && fraction x != 0

/-- `x` is an infinity. -/
def isInf (x : F64) : Bool := biasedExp x == 2047 && fraction x == 0

/-- `isFinite(x)` (R25). -/
def isFinite (x : F64) : Bool := biasedExp x != 2047

/-- The magnitude of a finite `x`, in units of `2^-1074`: a subnormal is its fraction; a normal value has the implicit
leading bit and is shifted by its exponent. -/
def magnitude (x : F64) : Nat :=
  if biasedExp x = 0 then fraction x else (2 ^ 52 + fraction x) * 2 ^ (biasedExp x - 1)

/-- The value of a finite `x`, in units of `2^-1074`. -/
def scaled (x : F64) : Int := if signBit x then -(magnitude x : Int) else magnitude x

/-- The number of units of `2^-1074` in 1. -/
def unitsPerOne : Nat := 2 ^ 1074

/-- The bit pattern of magnitude bits `m < 2^63` and a sign. -/
def withSign (neg : Bool) (m : Nat) : F64 := BitVec.ofNat 64 (m + if neg then 2 ^ 63 else 0)

/-- The magnitude bits of an infinity. -/
def infBits : Nat := 2047 * 2 ^ 52

/-- The nearest integer to `num / den`, ties to even. -/
def roundQuotient (num den : Nat) : Nat :=
  let q := num / den
  let r := num % den
  if 2 * r < den then q else if den < 2 * r then q + 1 else q + q % 2

/-- The magnitude bits of the binary64 value nearest to `num / den` units, ties to even, an infinity beyond the range.
The spacing of the values around `num / den` is `2^k` units; the bits are the rounded multiple of `2^k` plus `k`
exponent steps, a carry moving into the exponent by itself. -/
def roundBits (num den : Nat) : Nat :=
  let k := Nat.log2 (num / den) - 52
  min (k * 2 ^ 52 + roundQuotient num (den * 2 ^ k)) infBits

/-- The binary64 value nearest to `± num / den` units (R25). -/
def roundTo (neg : Bool) (num den : Nat) : F64 := withSign neg (roundBits num den)

/-- An infinity. -/
def infinity (neg : Bool) : F64 := withSign neg infBits

/-- A zero. -/
def zero64 (neg : Bool) : F64 := withSign neg 0

/-- `neg64(x)` flips the sign bit (R25). -/
def neg64 (x : F64) : F64 := x ^^^ (1#64 <<< 63)

/-- `add64(a, b)` (R25). An exact zero sum is `-0.0` only when both operands are negative. -/
def add64 (a b : F64) : F64 :=
  if isNaN a || isNaN b then canonicalNaN
  else if isInf a then
    if isInf b && (signBit a != signBit b) then canonicalNaN else infinity (signBit a)
  else if isInf b then infinity (signBit b)
  else
    let s := scaled a + scaled b
    if s = 0 then zero64 (signBit a && signBit b) else roundTo (s < 0) s.natAbs 1

/-- `sub64(a, b)` (R25). -/
def sub64 (a b : F64) : F64 := if isNaN b then canonicalNaN else add64 a (neg64 b)

/-- `mul64(a, b)` (R25). -/
def mul64 (a b : F64) : F64 :=
  let neg := signBit a != signBit b
  if isNaN a || isNaN b then canonicalNaN
  else if isInf a || isInf b then
    if (isFinite a && magnitude a == 0) || (isFinite b && magnitude b == 0) then canonicalNaN
    else infinity neg
  else roundTo neg (magnitude a * magnitude b) unitsPerOne

/-- `div64(a, b)` (R25). A finite nonzero value over a zero is an infinity; zero over zero is a NaN. -/
def div64 (a b : F64) : F64 :=
  let neg := signBit a != signBit b
  if isNaN a || isNaN b then canonicalNaN
  else if isInf a then (if isInf b then canonicalNaN else infinity neg)
  else if isInf b then zero64 neg
  else if magnitude b = 0 then (if magnitude a = 0 then canonicalNaN else infinity neg)
  else roundTo neg (magnitude a * unitsPerOne) (magnitude b)

/-- A key that orders the values that are not NaNs as IEEE 754 does, both zeros at 0: the magnitude bits with the
sign. -/
def orderKey (x : F64) : Int :=
  if signBit x then -((x.toNat % 2 ^ 63 : Nat) : Int) else ((x.toNat % 2 ^ 63 : Nat) : Int)

/-- `gt64(a, b)`, false when either operand is a NaN (R25). -/
def gt64 (a b : F64) : Bool := !isNaN a && !isNaN b && decide (orderKey b < orderKey a)

/-- `lt64(a, b)`, false when either operand is a NaN (R25). -/
def lt64 (a b : F64) : Bool := !isNaN a && !isNaN b && decide (orderKey a < orderKey b)

/-- `to64(k)`: an integer `0 <= k < 2^53` exactly (R25), a larger one rounded. -/
def to64 (k : Nat) : F64 := roundTo false (k * unitsPerOne) 1

/-- `floor(x)` of a finite `x` (R22). -/
def floor64 (x : F64) : Int := scaled x / (unitsPerOne : Int)

/-- The binary64 value nearest to the fraction `± num / den`, ties to even (R130's decimal literals). -/
def ofRatio (neg : Bool) (num den : Nat) : F64 := roundTo neg (num * unitsPerOne) den

/-- The bit pattern of 1.0. -/
def one64 : F64 := 0x3FF0000000000000

end Sys2Proof.Machine
end

