-- ==== Sys2Proof/Machine/ControlLoop.lean ====
section
/-!
DEFINITION. The free-running timer (R280), the PID step (R281, R282) and the meanings of the CL commands
(R283 to R285).
-/

namespace Sys2Proof.Machine

open Sys2Proof.Config (Params)

/-- `cl_clk()`: the CL part of a `CLK` step (R280). -/
def clClk (c : Params) (u : Loop) : Loop :=
  if u.run then
    if u.cnt.toNat = c.clTop - 1 then
      { u with cnt := 0, ovf := BitVec.ofNat 16 (min (u.ovf.toNat + 1) Config.clOvfMax) }
    else { u with cnt := u.cnt + 1 }
  else u

/-- `clamp(x, L)` (R281). -/
def clamp64 (x lim : F64) : F64 :=
  if gt64 x lim then lim
  else if lt64 x (neg64 lim) then neg64 lim
  else x

/-- Step 1 of R282: the error. -/
def pidError (s : State) (k : Controller) : F64 := sub64 (varAt s k.sp.toNat) (varAt s k.meas.toNat)

/-- Step 2 of R282: the clamped integrator sum. -/
def pidSum (k : Controller) (e dt : F64) : F64 := clamp64 (add64 k.sum (mul64 e dt)) k.imax

/-- Step 3 of R282: the clamped derivative. -/
def pidDerivative (k : Controller) (e dt : F64) : F64 := clamp64 (div64 (sub64 e k.last) dt) k.dmax

/-- Step 4 of R282: the clamped output. -/
def pidOutput (k : Controller) (e sum d : F64) : F64 :=
  clamp64 (add64 (add64 (mul64 k.kp e) (mul64 k.ki sum)) (mul64 k.kd d)) k.outmax

/-- `pid_step(k, dt)`: one iteration of controller `k` (R282). `last` takes the error without condition, as the rule's pseudocode
says, also where it held a NaN (DEDUCED, log 24). -/
def pidStep (dt : F64) (s : State) (k : Nat) : State :=
  let c := ctlAt s.cl k
  let e := pidError s c
  let sum := pidSum c e dt
  let d := pidDerivative c e dt
  { s with
    cl := { s.cl with table := s.cl.table.set k { c with sum := sum, last := e } }
    vars := s.vars.set c.out.toNat (pidOutput c e sum d) }

/-- A limit that `CL_MAKE` accepts: not a NaN and not negative (R283). -/
def limitOk (x : F64) : Bool := !isNaN x && !lt64 x 0

/-- The entry that `CL_MAKE` writes (R283). -/
def madeController (s : State) : Controller where
  valid := true
  sp := iargSp s
  meas := iargMeas s
  out := iargOut s
  kp := s.args[0]
  ki := s.args[1]
  kd := s.args[2]
  imax := s.args[3]
  dmax := s.args[4]
  outmax := s.args[5]
  sum := 0
  last := 0

/-- `CL_MAKE` (R283): write entry `k` of the controller table. -/
def execClMake (k : Byte) (s : State) : Answer :=
  if s.cfg.clNmax ≤ k.toNat then fail .h .indexRange s
  else if s.cfg.varCount ≤ (iargSp s).toNat ∨ s.cfg.varCount ≤ (iargMeas s).toNat
      ∨ s.cfg.varCount ≤ (iargOut s).toNat then fail .h .indexRange s
  else if !(isFinite s.args[0] && isFinite s.args[1] && isFinite s.args[2]) then fail .h .badArg s
  else if !(limitOk s.args[3] && limitOk s.args[4] && limitOk s.args[5]) then fail .h .badArg s
  else succeed .h 0 { s with cl := { s.cl with table := s.cl.table.set k.toNat (madeController s) } }

/-- `CL_INIT` (R284): register controllers `0 .. n-1` and start the timer. -/
def execClInit (n : Byte) (s : State) : Answer :=
  if s.cfg.clNmax < n.toNat then fail .h .badArg s
  else if (List.range n.toNat).any fun k => !(ctlAt s.cl k).valid then fail .h .notInit s
  else succeed .h 0 { s with cl := { s.cl with n := n.setWidth 6, cnt := 0, ovf := 0, run := true } }

/-- The ticks that the timer has counted: `cl_ovf * CL_TOP + cl_cnt` (R285). -/
def elapsedTicks (c : Params) (u : Loop) : Nat := u.ovf.toNat * c.clTop + u.cnt.toNat

/-- `CL_ITERATE` (R285): measure the elapsed ticks and run every registered controller once. -/
def execClIterate (s : State) : Answer :=
  if s.cl.run then
    let ticks := elapsedTicks s.cfg s.cl
    let s' := { s with cl := { s.cl with cnt := 0, ovf := 0 } }
    if ticks = 0 then .next (complete .h .skipped 0 s')
    else
      let dt := div64 (to64 ticks) (to64 s.cfg.fClk)
      succeed .h (BitVec.ofNat 32 ticks) ((List.range s.cl.n.toNat).foldl (pidStep dt) s')
  else fail .h .notInit s

end Sys2Proof.Machine
end

