-- ==== Sys2Proof/Machine/PulseEngine.lean ====
section
/-!
DEFINITION. The PS event engine (R221 to R223): the compare event, the settling of zero deadlines, and the PS part of a
`CLK` step.
-/

namespace Sys2Proof.Machine

open Sys2Proof.Config (Params)

/-- `ps_service()`: one compare event, one transition of the state machine (R221). -/
def psService (c : Params) (u : Pulse) : Pulse :=
  match u.phase with
  | .drivingHigh =>
    let i := u.cur.toNat
    { u with
      out := setLine u.out i false
      deadline := psStore c (u.slot - dutyAt u i).toNat
      phase := .waitingLow
      cnt := 0 }
  | .waitingLow =>
    let j := (u.cur.toNat + 1) % u.n.toNat
    { u with
      cur := BitVec.ofNat 5 j
      out := setLine u.out j true
      deadline := dutyAt u j
      phase := .drivingHigh
      cnt := 0 }

/-- One round of `ps_settle`'s loop: a service when the deadline is 0 (R222). -/
def psSettleOnce (c : Params) (u : Pulse) : Pulse := if u.deadline = 0 then psService c u else u

/-- `ps_settle()` (R222). "The loop runs at most twice", so two rounds are the whole loop (log 11). -/
def psSettle (c : Params) (u : Pulse) : Pulse := psSettleOnce c (psSettleOnce c u)

/-- `ps_tick()`: one PS tick (R223). -/
def psTick (c : Params) (u : Pulse) : Pulse :=
  let v := { u with cnt := psStore c (u.cnt.toNat + 1) }
  if v.cnt = v.deadline then psSettle c (psService c v) else v

/-- `ps_clk()`: the prescaler, and on a PS tick the compare timer (R223). -/
def psClk (c : Params) (u : Pulse) : Pulse :=
  if u.armed then
    if u.pre.toNat + 1 < c.psPrescale then { u with pre := u.pre + 1 }
    else psTick c { u with pre := 0 }
  else u

end Sys2Proof.Machine
end

