-- ==== Sys2Proof/Machine/PulseScheduler.lean ====
section
/-!
DEFINITION. The duty mapping (R220) and the meanings of the PS commands (R224 to R227).
-/

namespace Sys2Proof.Machine

open Sys2Proof.Config (Params)

/-- The percent clamped to `[0, 1]`, a NaN taken as 0 (R220). -/
def clampPercent (p : F64) : F64 :=
  if isNaN p then 0
  else if gt64 p one64 then one64
  else if lt64 p 0 then 0
  else p

/-- `map_percent(p)`: a duty in PS ticks (R220). -/
def mapPercent (c : Params) (p : F64) : Nat :=
  c.psMin + (floor64 (mul64 (clampPercent p) (to64 (c.psMax - c.psMin)))).toNat

/-- The scheduler as `PS_INIT n` arms it, before `ps_settle` (R224). -/
def psStart (c : Params) (n : Nat) : Pulse where
  out := setLine 0 0 true
  armed := true
  n := BitVec.ofNat 6 n
  slot := psStore c (c.psPeriod / n)
  duty := List.replicate c.psNmax (psStore c c.psMin)
  cur := 0
  phase := .drivingHigh
  cnt := 0
  deadline := psStore c c.psMin
  pre := 0

/-- `PS_INIT` (R224): arm the scheduler with `n` channels. -/
def execPsInit (n : Byte) (s : State) : Answer :=
  if n.toNat < 1 ∨ s.cfg.psNmax < n.toNat ∨ s.cfg.psPeriod < n.toNat * s.cfg.psMax ∨ s.cfg.psPeriod < n.toNat then
    fail .h .badArg s
  else
    let u := psSettle s.cfg (psStart s.cfg n.toNat)
    succeed .h u.slot { s with ps := u }

/-- The duty table with entry `i` set to `d` ticks. -/
def setDuty (c : Params) (u : Pulse) (i d : Nat) : Pulse := { u with duty := u.duty.set i (psStore c d) }

/-- `PS_SET_CHANNEL` (R225): set one channel's duty from `H.ARG0`. -/
def execPsSetChannel (index : Byte) (s : State) : Answer :=
  if s.ps.armed then
    if s.ps.n.toNat ≤ index.toNat then fail .h .indexRange s
    else
      let d := mapPercent s.cfg s.args[0]
      succeed .h (BitVec.ofNat 32 d) { s with ps := setDuty s.cfg s.ps index.toNat d }
  else fail .h .notInit s

/-- `PS_SET_ALL` (R226): set every active channel's duty from `H.ARG0`. -/
def execPsSetAll (s : State) : Answer :=
  if s.ps.armed then
    let d := mapPercent s.cfg s.args[0]
    succeed .h (BitVec.ofNat 32 d)
      { s with ps := (List.range s.ps.n.toNat).foldl (fun u i => setDuty s.cfg u i d) s.ps }
  else fail .h .notInit s

/-- `PS_SET_CHANNELS` (R227): set every active channel's duty from consecutive entries of `VAR`. -/
def execPsSetChannels (base : Byte) (s : State) : Answer :=
  if s.ps.armed then
    if s.cfg.varCount < base.toNat + s.ps.n.toNat then fail .h .indexRange s
    else
      succeed .h 0
        { s with
          ps := (List.range s.ps.n.toNat).foldl
            (fun u i => setDuty s.cfg u i (mapPercent s.cfg (varAt s (base.toNat + i)))) s.ps }
  else fail .h .notInit s

end Sys2Proof.Machine
end

