-- ==== Sys2Proof/Machine/RingBuffer.lean ====
section
/-!
DEFINITION. The meanings of the RB commands (R171 to R179) and the synchronisation steps (R180, R181).
-/

namespace Sys2Proof.Machine

/-- `RB_INIT` (R171): set up the buffer with backing length `len`. The storage bytes keep their values. -/
def execRbInit (len : Half) (s : State) : Answer :=
  if len.toNat < 2 ∨ s.cfg.rbSize < len.toNat then fail .p .badArg s
  else
    succeed .p (BitVec.ofNat 32 (len.toNat - 1))
      { s with
        rb := { s.rb with
          ready := true
          len := len
          wr := 0
          rd := 0
          rdSyncP := if s.cfg.rbCdc then 0 else s.rb.rdSyncP
          wrSyncC := if s.cfg.rbCdc then 0 else s.rb.wrSyncC } }

/-- `rb_mem[rb_wr] <- a; rb_wr <- (rb_wr + 1) mod L` (R172, R173). -/
def ringStore (a : Byte) (u : Ring) : Ring :=
  { u with mem := Memory.write u.mem u.wr.toNat a, wr := ringNext u.len u.wr }

/-- `RB_PUSH` (R172): store one byte if there is room. -/
def execRbPush (a : Byte) (s : State) : Answer :=
  if s.rb.ready then
    if ringFull s.rb.len.toNat s.rb.wr.toNat (viewRdP s).toNat then fail .p .full s
    else withStorage s s.rb.wr.toNat (succeed .p 0 { s with rb := ringStore a s.rb })
  else fail .p .notInit s

/-- `RB_PUSH_OVERWRITE` (R173): store one byte always, and drop the oldest byte if the buffer was full. -/
def execRbPushOverwrite (a : Byte) (s : State) : Answer :=
  if s.cfg.rbCdc then fail .p .illegal s
  else if s.rb.ready then
    let u := ringStore a s.rb
    withStorage s s.rb.wr.toNat
      (if u.wr = u.rd then succeed .p 1 { s with rb := { u with rd := ringNext u.len u.rd } }
       else succeed .p 0 { s with rb := u })
  else fail .p .notInit s

/-- `RB_IS_EMPTY` (R174). -/
def execRbIsEmpty (x : Port) (s : State) : Answer := ringQuery x (fun _ w r => boolWord (ringEmpty w r)) s

/-- `RB_IS_FULL` (R175). -/
def execRbIsFull (x : Port) (s : State) : Answer := ringQuery x (fun len w r => boolWord (ringFull len w r)) s

/-- `RB_PUSH_AVAILABLE` (R176). -/
def execRbPushAvailable (x : Port) (s : State) : Answer :=
  ringQuery x (fun len w r => BitVec.ofNat 32 (pushAvail len w r)) s

/-- `RB_POP_AVAILABLE` (R177). -/
def execRbPopAvailable (x : Port) (s : State) : Answer :=
  ringQuery x (fun len w r => BitVec.ofNat 32 (popAvail len w r)) s

/-- `RB_POP` (R178): take the oldest byte. -/
def execRbPop (s : State) : Answer :=
  if s.rb.ready then
    if ringEmpty (viewWrC s).toNat s.rb.rd.toNat then fail .c .empty s
    else
      withStorage s s.rb.rd.toNat
        (succeed .c ((ringByte s s.rb.rd.toNat).setWidth 32)
          { s with rb := { s.rb with rd := ringNext s.rb.len s.rb.rd } })
  else fail .c .notInit s

/-- `RB_PEEK` (R179): read the oldest byte without taking it. -/
def execRbPeek (s : State) : Answer :=
  if s.rb.ready then
    if ringEmpty (viewWrC s).toNat s.rb.rd.toNat then fail .c .empty s
    else withStorage s s.rb.rd.toNat (succeed .c ((ringByte s s.rb.rd.toNat).setWidth 32) s)
  else fail .c .notInit s

/-- The `SYNC_P` step: `rb_rd_sync_p <- rb_rd` (R180). With `RB_CDC = 0` the agent is not present (R20, log 10). -/
def syncP (s : State) : Answer :=
  if s.cfg.rbCdc then .next { s with rb := { s.rb with rdSyncP := s.rb.rd } } else .refused .agentAbsent

/-- The `SYNC_C` step: `rb_wr_sync_c <- rb_wr` (R181). With `RB_CDC = 0` the agent is not present (R20, log 10). -/
def syncC (s : State) : Answer :=
  if s.cfg.rbCdc then .next { s with rb := { s.rb with wrSyncC := s.rb.wr } } else .refused .agentAbsent

end Sys2Proof.Machine
end

