-- ==== Sys2Proof/Machine/Dispatch.lean ====
section
/-!
DEFINITION. The dispatch from a command to its meaning, one arm per row of the opcode map (R125, R151).
-/

namespace Sys2Proof.Machine

def exec (i : Instr) (s : State) : Host.Outcome State Fault Refusal :=
  match i with
  | .nop x => Sys2Proof.Machine.execNop x s
  | .psInit n => Sys2Proof.Machine.execPsInit n s
  | .psSetChannel index => Sys2Proof.Machine.execPsSetChannel index s
  | .psSetAll => Sys2Proof.Machine.execPsSetAll s
  | .psSetChannels base => Sys2Proof.Machine.execPsSetChannels base s
  | .clMake k => Sys2Proof.Machine.execClMake k s
  | .clInit n => Sys2Proof.Machine.execClInit n s
  | .clIterate => Sys2Proof.Machine.execClIterate s
  | .rbInit len => Sys2Proof.Machine.execRbInit len s
  | .rbPush a => Sys2Proof.Machine.execRbPush a s
  | .rbPushOverwrite a => Sys2Proof.Machine.execRbPushOverwrite a s
  | .rbIsEmpty x => Sys2Proof.Machine.execRbIsEmpty x s
  | .rbIsFull x => Sys2Proof.Machine.execRbIsFull x s
  | .rbPushAvailable x => Sys2Proof.Machine.execRbPushAvailable x s
  | .rbPopAvailable x => Sys2Proof.Machine.execRbPopAvailable x s
  | .rbPop => Sys2Proof.Machine.execRbPop s
  | .rbPeek => Sys2Proof.Machine.execRbPeek s

end Sys2Proof.Machine
end

