-- ==== Sys2Proof/Machine/Bus.lean ====
section
/-!
DEFINITION. The register maps of the three ports (R82, R83, R85), the bus accesses (R84, R87 to R90) and the command
frame that a CMD write runs (R150 to R152).
-/

namespace Sys2Proof.Machine

open Sys2Proof.Config (Params)

/-- The registers that the maps name (R82, R83, R85), with their index where they have one. -/
inductive Register
  | cmd
  | status
  | res
  | iarg
  | argLo (k : Fin 6)
  | argHi (k : Fin 6)
  | psStat
  | psOut
  | psCnt
  | psDeadline
  | psSlot
  | psPre
  | clStat
  | clCnt
  | clOvf
  | psDuty (i : Nat)
  | varLo (i : Nat)
  | varHi (i : Nat)
  | ctlRef (k : Nat)
  | ctlLo (k f : Nat)
  | ctlHi (k f : Nat)
  | rbCfg
  | rbOwn
  | rbView
deriving DecidableEq, Repr

/-- The offset of a register in its port's window (R82, R83, R85). -/
def offsetOf : Register → Nat
  | .cmd => 0x000
  | .status => 0x004
  | .res => 0x008
  | .iarg => 0x00C
  | .argLo k => 0x010 + 8 * k.val
  | .argHi k => 0x014 + 8 * k.val
  | .psStat => 0x040
  | .psOut => 0x044
  | .psCnt => 0x048
  | .psDeadline => 0x04C
  | .psSlot => 0x050
  | .psPre => 0x054
  | .clStat => 0x060
  | .clCnt => 0x064
  | .clOvf => 0x068
  | .psDuty i => 0x080 + 4 * i
  | .varLo i => 0x100 + 8 * i
  | .varHi i => 0x104 + 8 * i
  | .ctlRef k => 0x1000 + 0x80 * k
  | .ctlLo k f => 0x1000 + 0x80 * k + 0x08 + 8 * f
  | .ctlHi k f => 0x1000 + 0x80 * k + 0x0C + 8 * f
  | .rbCfg => 0x0C
  | .rbOwn => 0x10
  | .rbView => 0x14

/-- Of 64-bit values that follow each other, the one whose half stands at the relative offset `o`, as `lo` or `hi`. -/
def halfAt (o : Nat) (lo hi : Nat → Option Register) : Option Register :=
  if o % 8 = 0 then lo (o / 8) else if o % 8 = 4 then hi (o / 8) else none

/-- An operand register with its index in range (R82). -/
def argRegister (f : Fin 6 → Register) (k : Nat) : Option Register := if h : k < 6 then some (f ⟨k, h⟩) else none

/-- The controller record word at the relative offset `o` of entry `k` (R83). -/
def ctlRegister (k o : Nat) : Option Register :=
  if o = 0 then some (.ctlRef k)
  else if 0x08 ≤ o ∧ o < 0x48 then halfAt (o - 0x08) (fun f => some (.ctlLo k f)) (fun f => some (.ctlHi k f))
  else none

/-- The registers of port H that have no index (R82). -/
def plainRegisterH : Nat → Option Register
  | 0x000 => some .cmd
  | 0x004 => some .status
  | 0x008 => some .res
  | 0x00C => some .iarg
  | 0x040 => some .psStat
  | 0x044 => some .psOut
  | 0x048 => some .psCnt
  | 0x04C => some .psDeadline
  | 0x050 => some .psSlot
  | 0x054 => some .psPre
  | 0x060 => some .clStat
  | 0x064 => some .clCnt
  | 0x068 => some .clOvf
  | _ => none

/-- The register of port H at an offset, none where it is reserved (R82, R83, R87). -/
def registerH (c : Params) (off : Nat) : Option Register :=
  if 0x010 ≤ off ∧ off < 0x040 then halfAt (off - 0x010) (argRegister .argLo) (argRegister .argHi)
  else if 0x080 ≤ off ∧ off < 0x100 then
    if off % 4 = 0 ∧ (off - 0x080) / 4 < c.psNmax then some (.psDuty ((off - 0x080) / 4)) else none
  else if 0x100 ≤ off ∧ off < 0x900 then
    if (off - 0x100) / 8 < c.varCount then
      halfAt (off - 0x100) (fun i => some (.varLo i)) (fun i => some (.varHi i))
    else none
  else if 0x1000 ≤ off ∧ off < 0x2000 then
    if (off - 0x1000) / 0x80 < c.clNmax then ctlRegister ((off - 0x1000) / 0x80) ((off - 0x1000) % 0x80) else none
  else plainRegisterH off

/-- The register of port P or C at an offset, none where it is reserved (R85, R87). -/
def registerPC : Nat → Option Register
  | 0x00 => some .cmd
  | 0x04 => some .status
  | 0x08 => some .res
  | 0x0C => some .rbCfg
  | 0x10 => some .rbOwn
  | 0x14 => some .rbView
  | _ => none

/-- The register of a port at an offset (R81). -/
def registerAt (c : Params) : Port → Nat → Option Register
  | .h, off => registerH c off
  | .p, off => registerPC off
  | .c, off => registerPC off

/-- The f64 fields of a controller by number (R83). -/
def ctlField (c : Controller) : Nat → F64
  | 0 => c.kp
  | 1 => c.ki
  | 2 => c.kd
  | 3 => c.imax
  | 4 => c.dmax
  | 5 => c.outmax
  | 6 => c.sum
  | 7 => c.last
  | _ => 0

/-- `H.PS_OUT`: bit `i` is `ps_out[i]` for `i < PS_NMAX`, the other bits 0 (R82). -/
def psOutWord (c : Params) (u : Pulse) : Word := u.out &&& BitVec.ofNat 32 (2 ^ c.psNmax - 1)

/-- The current value of a register of port `x`; CMD is write-only and reads 0 (R32, R82, R83, R85). -/
def readRegister (s : State) (x : Port) : Register → Word
  | .cmd => 0
  | .status => (s.port x).status
  | .res => (s.port x).res
  | .iarg => s.iarg
  | .argLo k => loHalf s.args[k]
  | .argHi k => hiHalf s.args[k]
  | .psStat => psStatWord s.ps
  | .psOut => psOutWord s.cfg s.ps
  | .psCnt => s.ps.cnt
  | .psDeadline => s.ps.deadline
  | .psSlot => s.ps.slot
  | .psPre => s.ps.pre
  | .clStat => clStatWord s.cl
  | .clCnt => s.cl.cnt.setWidth 32
  | .clOvf => s.cl.ovf.setWidth 32
  | .psDuty i => dutyAt s.ps i
  | .varLo i => loHalf (varAt s i)
  | .varHi i => hiHalf (varAt s i)
  | .ctlRef k => ctlRefWord (ctlAt s.cl k)
  | .ctlLo k f => loHalf (ctlField (ctlAt s.cl k) f)
  | .ctlHi k f => hiHalf (ctlField (ctlAt s.cl k) f)
  | .rbCfg => rbCfgWord s.cfg.rbCdc s.rb
  | .rbOwn => match x with
    | .p => s.rb.wr.setWidth 32
    | _ => s.rb.rd.setWidth 32
  | .rbView => match x with
    | .p => (viewRdP s).setWidth 32
    | _ => (viewWrC s).setWidth 32

/-- A write of an RW register stores into it (one half of a 64-bit value, R90); every other register ignores writes
(R82, R83, R84). -/
def writeRegister (v : Word) (s : State) : Register → State
  | .iarg => { s with iarg := v }
  | .argLo k => { s with args := s.args.set k (withLo s.args[k] v) }
  | .argHi k => { s with args := s.args.set k (withHi s.args[k] v) }
  | .varLo i => { s with vars := s.vars.set i (withLo (varAt s i) v) }
  | .varHi i => { s with vars := s.vars.set i (withHi (varAt s i) v) }
  | _ => s

/-- `BusRead(X, off)`; a reserved offset reads 0 (R84, R87). -/
def busRead (s : State) (x : Port) (off : Nat) : Word :=
  match registerAt s.cfg x off with
  | some r => readRegister s x r
  | none => 0

/-- The byte at a window byte address: bits `[8j+7 : 8j]` of the register it lies in (R88). -/
def windowByte (s : State) (x : Port) (a : Nat) : Byte := (busRead s x (a / 4 * 4)).extractLsb' (8 * (a % 4)) 8

/-- `run_command(X, w)`: an `ILLEGAL` decode fails, any other command runs its body (R151, R152). -/
def runCommand (x : Port) (w : Word) (s : State) : Answer :=
  match decode x w with
  | .ok i => exec i s
  | .error _ => fail x .illegal s

/-- `BusWrite(X, off, v)`: a CMD write runs the command, an RW register takes the value, anything else ignores it (R84,
R87, R150). -/
def busWrite (x : Port) (off : Nat) (v : Word) (s : State) : Answer :=
  match registerAt s.cfg x off with
  | some .cmd => runCommand x v s
  | some r => .next (writeRegister v s r)
  | none => .next s

/-- The base address of a port's window (R18, R80). -/
def baseOf (c : Params) : Port → Nat
  | .h => c.baseH
  | .p => c.baseP
  | .c => c.baseC

/-- The size in bytes of a port's window (R80). -/
def windowSize : Port → Nat
  | .h => Config.windowH
  | .p => Config.windowPC
  | .c => Config.windowPC

/-- The one master of a port (R24, log 8). -/
def masterOf (c : Params) : Port → Master
  | .h => c.masterH
  | .p => c.masterP
  | .c => c.masterC

/-- A byte address on the host bus lies in the window of `x` (R80). -/
def inWindow (c : Params) (x : Port) (addr : Nat) : Bool := baseOf c x ≤ addr && addr < baseOf c x + windowSize x

/-- The port whose window holds a byte address (R80). -/
def portAt (c : Params) (addr : Nat) : Option Port := [Port.h, .p, .c].find? fun x => inWindow c x addr

/-- A bus access by a port's master: one atomic step (R84). A read leaves its result with the master and changes nothing
else (R92); an access that the spec does not define is refused (R24, R89). -/
def busAccess (a : Access) (s : State) : Answer :=
  if a.size ≠ .word then .refused (.accessWidth a.size)
  else if a.addr % 4 ≠ 0 then .refused (.misaligned a.addr)
  else
    match portAt s.cfg a.addr with
    | none => .refused (.outsideWindows a.addr)
    | some x =>
      if masterOf s.cfg x ≠ a.master then .refused (.secondMaster x)
      else
        match a.op with
        | .read => .next (s.setPort x { s.port x with rdata := busRead s x (a.addr - baseOf s.cfg x) })
        | .write v => busWrite x (a.addr - baseOf s.cfg x) v s

/-- The access by which the master of port `x` reads or writes a register. -/
def registerAccess (c : Params) (x : Port) (r : Register) (op : BusOp) : Access :=
  ⟨masterOf c x, .word, baseOf c x + offsetOf r, op⟩

/-- The access by which the master of port `x` issues the command word `w` (R150). -/
def cmdWrite (c : Params) (x : Port) (w : Word) : Access := registerAccess c x .cmd (.write w)

end Sys2Proof.Machine
end

