-- ==== Sys2Proof/Machine/Agents.lean ====
section
/-!
DEFINITION. The atomic steps of the agents (R20): bus accesses, the `CLK` step (R347), the `SYNC` steps (R180, R181), and
the reset event of the platform (R390).
-/

namespace Sys2Proof.Machine

/-- `clk_step()`: the CL part, then the PS part (R347). -/
def clkStep (s : State) : State := { s with cl := clClk s.cfg s.cl, ps := psClk s.cfg s.ps }

/-- A port's registers after the reset event; what a read returned stays with the master. -/
def resetPort (r : PortRegs) : PortRegs := { PortRegs.reset with rdata := r.rdata }

/-- The reset event (R390): every state element takes its reset value, and `rb_mem` a new unspecified content (R49). The
parameters and the steps that agents have placed are not the block's state (R53, log 18). -/
def platformReset (s : State) : State :=
  { State.resetOf s.cfg with
    portH := resetPort s.portH
    portP := resetPort s.portP
    portC := resetPort s.portC
    pending := s.pending
    turn := s.turn
    resets := s.resets + 1 }

/-- One atomic step of one agent (R20). -/
def perform (a : Action) (s : State) : Answer :=
  match a with
  | .bus b => busAccess b s
  | .clk => .next (clkStep s)
  | .syncP => syncP s
  | .syncC => syncC s
  | .reset => .next (platformReset s)

/-- Several steps in order, up to the first that does not answer a next state: one interleaving (R93). -/
def performAll : List Action → State → Answer
  | [], s => .next s
  | a :: as, s =>
    match perform a s with
    | .next t => performAll as t
    | .fault r => .fault r
    | .refused r => .refused r

end Sys2Proof.Machine
end

