-- ==== Sys2Proof/Machine/Step.lean ====
section
/-!
DEFINITION. One step of the machine: the next step that an agent has placed, or, when none has, any agent's (R20).
-/

namespace Sys2Proof.Machine

/-- One atomic step (R20). The oldest placed step is taken; with none placed, the environment chooses freely (log 1,
log 2). -/
def step (s : State) : Host.Outcome State Fault Refusal :=
  match s.pending with
  | a :: rest => perform a { s with pending := rest }
  | [] => perform (Config.environment s.turn) { s with turn := s.turn + 1 }

/-- The state in which the very next step is the write of the command word `w` of `nbits` bits to the CMD register of a
port that accepts its opcode, by that port's master (R150, log 20). -/
def State.withFetchWord (s : State) (nbits w : Nat) : State :=
  match tableWord nbits w with
  | some v => { s with pending := .bus (cmdWrite s.cfg (acceptingPort v) v) :: s.pending }
  | none => s

end Sys2Proof.Machine
end

