-- ==== Sys2Proof/Machine/Assembly.lean ====
section
/-!
DEFINITION. The assembly lines and pseudo-instructions (R130, R131): what steps each line stands for.
-/

namespace Sys2Proof.Machine

open Sys2Proof.Config (Params)

/-- A literal of an f64 (R130): a decimal number `± digits * 10 ^ exponent`, or a raw bit pattern. -/
inductive Literal
  | decimal (neg : Bool) (digits : Nat) (exponent : Int)
  | raw (bits : F64)
deriving DecidableEq, Repr

/-- The value of a literal: "the binary64 value nearest to it with ties to even" (R130). -/
def literalValue : Literal → F64
  | .decimal neg digits (.ofNat e) => ofRatio neg (digits * 10 ^ e) 1
  | .decimal neg digits (.negSucc e) => ofRatio neg digits (10 ^ (e + 1))
  | .raw bits => bits

/-- A line of a program (R130) or a pseudo-instruction (R131). -/
inductive Line
  /-- a command line -/
  | command (i : Instr)
  /-- `WR X.NAME, value` -/
  | wr (x : Port) (r : Register) (v : Word)
  /-- `RD X.NAME` -/
  | rd (x : Port) (r : Register)
  /-- `CLK k` -/
  | clk (k : Nat)
  | syncP
  | syncC
  /-- `LDARG k, x` -/
  | ldarg (k : Fin 6) (x : F64)
  /-- `LDVAR s, x` -/
  | ldvar (i : Nat) (x : F64)
  /-- `RDVAR s` -/
  | rdvar (i : Nat)
  /-- `LDIARG sp, meas, out` -/
  | ldiarg (sp meas out : Byte)
  /-- `PS_SET_CHANNEL i, x` -/
  | psSetChannel (i : Byte) (x : F64)
  /-- `PS_SET_ALL x` -/
  | psSetAll (x : F64)
  /-- `CL_MAKE k, sp, meas, out, kp, ki, kd, imax, dmax, outmax` -/
  | clMake (k sp meas out : Byte) (kp ki kd imax dmax outmax : F64)
deriving DecidableEq, Repr

/-- The command that a command line spells: its mnemonic, its operand, and the port suffix that a command of several
ports needs; without one "the line is refused" (R130). DESIGN CHOICE, log 27: a suffix on a command of one port, a suffix
that names a port the row does not list, and an operand that is missing, superfluous or wider than its field are refused
too. -/
def commandLine (mnemonic : String) (operand : Option Nat) (suffix : Option Port) : Option Instr :=
  match opRows.find? fun r => r.mnemonic == mnemonic with
  | none => none
  | some r =>
    let port := match r.ports, suffix with
      | [x], none => some x
      | [_], some _ => none
      | xs, some x => if xs.contains x then some x else none
      | _, none => none
    match port, r.format, operand with
    | some x, .z, none => some (r.build x 0 0)
    | some x, .a, some n => if n < 256 then some (r.build x (BitVec.ofNat 8 n) 0) else none
    | some x, .l, some n => if n < 65536 then some (r.build x 0 (BitVec.ofNat 16 n)) else none
    | _, _, _ => none

/-- `WR X.NAME, value` as a step. -/
def wrStep (c : Params) (x : Port) (r : Register) (v : Word) : Action := .bus (registerAccess c x r (.write v))

/-- `RD X.NAME` as a step. -/
def rdStep (c : Params) (x : Port) (r : Register) : Action := .bus (registerAccess c x r .read)

/-- A command line as a step: one write of the command word to the CMD register of its port (R130). -/
def commandStep (c : Params) (i : Instr) : Action := .bus (cmdWrite c i.port (encode i))

/-- The expansion of `LDARG k, x` (R131). -/
def ldargSteps (c : Params) (k : Fin 6) (x : F64) : List Action :=
  [wrStep c .h (.argLo k) (loHalf x), wrStep c .h (.argHi k) (hiHalf x)]

/-- The value that `LDIARG sp, meas, out` writes: `(out << 16) | (meas << 8) | sp` (R131). -/
def iargWord (sp meas out : Byte) : Word :=
  (out.setWidth 32 <<< 16) ||| (meas.setWidth 32 <<< 8) ||| sp.setWidth 32

/-- The steps that a line stands for, in order (R130, R131). -/
def assemble (c : Params) : Line → List Action
  | .command i => [commandStep c i]
  | .wr x r v => [wrStep c x r v]
  | .rd x r => [rdStep c x r]
  | .clk k => List.replicate k .clk
  | .syncP => [.syncP]
  | .syncC => [.syncC]
  | .ldarg k x => ldargSteps c k x
  | .ldvar i x => [wrStep c .h (.varLo i) (loHalf x), wrStep c .h (.varHi i) (hiHalf x)]
  | .rdvar i => [rdStep c .h (.varLo i), rdStep c .h (.varHi i)]
  | .ldiarg sp meas out => [wrStep c .h .iarg (iargWord sp meas out)]
  | .psSetChannel i x => ldargSteps c 0 x ++ [commandStep c (.psSetChannel i)]
  | .psSetAll x => ldargSteps c 0 x ++ [commandStep c .psSetAll]
  | .clMake k sp meas out kp ki kd imax dmax outmax =>
    [wrStep c .h .iarg (iargWord sp meas out)]
      ++ ldargSteps c 0 kp ++ ldargSteps c 1 ki ++ ldargSteps c 2 kd
      ++ ldargSteps c 3 imax ++ ldargSteps c 4 dmax ++ ldargSteps c 5 outmax
      ++ [commandStep c (.clMake k)]

/-- The steps of a program, line by line (R130). -/
def assembleAll (c : Params) (p : List Line) : List Action := p.flatMap (assemble c)

end Sys2Proof.Machine
end

