-- ==== Sys2Proof/Safety.lean ====
section
/-!
DEFINITION. What a good state of the block is, in the terms that claims use: the invariants of the units (R40, R42 to R48,
R182, R229), the registers that exist (R82, R83, R85), the content of the ring buffer (R182), a frame's start (R230),
and fairness (R21).
-/

namespace Sys2Proof.Safety

open Sys2Proof.Machine
open Sys2Proof.Config (Params)

/-! ## The pulse scheduler -/

/-- The engine invariant of an armed scheduler (R229), with the bounds of R40 and R41. -/
structure EngineInv (c : Params) (u : Pulse) : Prop where
  n_pos : 1 ≤ u.n.toNat
  n_le : u.n.toNat ≤ c.psNmax
  cur_lt : u.cur.toNat < u.n.toNat
  deadline_pos : 1 ≤ u.deadline.toNat
  deadline_le : u.deadline.toNat ≤ c.psPeriod
  cnt_lt : u.cnt.toNat < u.deadline.toNat
  pre_lt : u.pre.toNat < c.psPrescale
  high : u.phase = .drivingHigh → ∀ j < 32, u.out.getLsbD j = decide (j = u.cur.toNat)
  low : u.phase = .waitingLow → u.out = 0

/-- What `PS_INIT` fixes and the setters keep (R37, R38, R224): the slot, and every duty within its bounds. -/
structure ScheduleInv (c : Params) (u : Pulse) : Prop where
  slot_eq : u.slot.toNat = c.psPeriod / u.n.toNat
  high_fits : u.n.toNat * c.psMax ≤ c.psPeriod
  n_le_period : u.n.toNat ≤ c.psPeriod
  duty_ge : ∀ i < c.psNmax, c.psMin ≤ (dutyAt u i).toNat
  duty_le : ∀ i < c.psNmax, (dutyAt u i).toNat ≤ c.psMax

/-- The pulse scheduler: idle as after reset, or armed with the invariant of R229. -/
structure PulseInv (c : Params) (u : Pulse) : Prop where
  length_eq : u.duty.length = c.psNmax
  idle : u.armed = false → u = Pulse.reset c
  engine : u.armed = true → EngineInv c u
  schedule : u.armed = true → ScheduleInv c u

/-- A frame starts (R230): channel 0 rises in this state, or its duty is 0 and its pulse does not show. -/
structure FrameStart (u : Pulse) : Prop where
  cur_eq : u.cur = 0
  cnt_eq : u.cnt = 0
  pre_eq : u.pre = 0
  edge : (u.phase = .drivingHigh ∧ u.deadline = dutyAt u 0)
    ∨ (u.phase = .waitingLow ∧ dutyAt u 0 = 0 ∧ u.deadline = u.slot)

/-- `k` times the PS part of a `CLK` step. -/
def psClks (c : Params) : Nat → Pulse → Pulse
  | 0, u => u
  | k + 1, u => psClks c k (psClk c u)

/-! ## The control loop -/

/-- A controller entry that `CL_MAKE` accepts (R283). -/
structure ControllerOk (c : Params) (k : Controller) : Prop where
  sp_lt : k.sp.toNat < c.varCount
  meas_lt : k.meas.toNat < c.varCount
  out_lt : k.out.toNat < c.varCount
  kp_finite : isFinite k.kp = true
  ki_finite : isFinite k.ki = true
  kd_finite : isFinite k.kd = true
  imax_ok : limitOk k.imax = true
  dmax_ok : limitOk k.dmax = true
  outmax_ok : limitOk k.outmax = true

/-- The control loop (R43 to R46): the counter below its modulus, the registered entries made, every made entry as
`CL_MAKE` accepts it. -/
structure LoopInv (c : Params) (u : Loop) : Prop where
  length_eq : u.table.length = c.clNmax
  n_le : u.n.toNat ≤ c.clNmax
  cnt_lt : u.cnt.toNat < c.clTop
  registered : ∀ k < u.n.toNat, (ctlAt u k).valid = true
  made : ∀ k < c.clNmax, (ctlAt u k).valid = true → ControllerOk c (ctlAt u k)
  idle : u.run = false → u.n = 0 ∧ u.cnt = 0 ∧ u.ovf = 0

/-- The four steps of `pid_step(k, dt)` take `s` to `t` (R282): the error, the clamped sum, the clamped derivative and the
clamped output, each from the one before; the entry takes the sum and the error, `VAR[c.out]` the output. -/
def PidStepTo (dt : F64) (k : Nat) (s t : State) : Prop :=
  ∃ c e sum d u,
    c = ctlAt s.cl k
      ∧ e = sub64 (varAt s c.sp.toNat) (varAt s c.meas.toNat)
      ∧ sum = clamp64 (add64 c.sum (mul64 e dt)) c.imax
      ∧ d = clamp64 (div64 (sub64 e c.last) dt) c.dmax
      ∧ u = clamp64 (add64 (add64 (mul64 c.kp e) (mul64 c.ki sum)) (mul64 c.kd d)) c.outmax
      ∧ ctlAt t.cl k = { c with sum := sum, last := e }
      ∧ (∀ j, j ≠ k → ctlAt t.cl j = ctlAt s.cl j)
      ∧ varAt t c.out.toNat = u
      ∧ (∀ j, j ≠ c.out.toNat → varAt t j = varAt s j)
      ∧ t = { s with cl := { s.cl with table := t.cl.table }, vars := t.vars }

/-! ## The ring buffer -/

/-- `occ`, the bytes pushed and not yet popped or dropped (R182). -/
def occupancy (u : Ring) : Nat := popAvail u.len.toNat u.wr.toNat u.rd.toNat

/-- `d`, the bytes popped that the producer has not yet seen (R182). -/
def unseenPops (u : Ring) : Nat := popAvail u.len.toNat u.rd.toNat u.rdSyncP.toNat

/-- `e`, the bytes pushed that the consumer has not yet seen (R182). -/
def unseenPushes (u : Ring) : Nat := popAvail u.len.toNat u.wr.toNat u.wrSyncC.toNat

/-- The bytes pushed and not yet popped or dropped, in push order (R182). -/
def ringContents (s : State) : List Byte :=
  (List.range (occupancy s.rb)).map fun j => ringByte s ((s.rb.rd.toNat + j) % s.rb.len.toNat)

/-- The invariant of an initialised ring buffer (R47, R48, R182): both indices in range, and every byte that a pop can
read has been stored by a push. -/
structure RingReady (c : Params) (u : Ring) : Prop where
  len_ge : 2 ≤ u.len.toNat
  len_le : u.len.toNat ≤ c.rbSize
  wr_lt : u.wr.toNat < u.len.toNat
  rd_lt : u.rd.toNat < u.len.toNat
  stored : ∀ j < occupancy u, (Memory.read u.mem ((u.rd.toNat + j) % u.len.toNat)).isSome = true

/-- The invariant of the synchronised copies with `RB_CDC = 1` (R182, part 3). -/
structure RingSynced (u : Ring) : Prop where
  rdSync_lt : u.rdSyncP.toNat < u.len.toNat
  wrSync_lt : u.wrSyncC.toNat < u.len.toNat
  pops_fit : occupancy u + unseenPops u ≤ u.len.toNat - 1
  pushes_fit : unseenPushes u ≤ occupancy u

/-- The ring buffer: as after reset, or initialised with the invariant of R182; the storage in canonical form and inside
`RB_SIZE` (R49). -/
structure RingInv (c : Params) (u : Ring) : Prop where
  mem_wf : Memory.wf u.mem = true
  mem_inside : ∀ cell ∈ u.mem, cell.1 < c.rbSize
  idle : u.ready = false → u = Ring.reset
  ready_ok : u.ready = true → RingReady c u
  synced : u.ready = true → c.rbCdc = true → RingSynced u
  no_copies : c.rbCdc = false → u.rdSyncP = 0 ∧ u.wrSyncC = 0

/-! ## The whole block -/

/-- A port's STATUS holds one of the eight codes (R32, R340). -/
def StatusOk (r : PortRegs) : Prop := ∃ code, r.status = statusWord code

/-- The invariant of the block. -/
structure StateInv (s : State) : Prop where
  cfg_ok : s.cfg.wellFormed = true
  vars_length : s.vars.length = s.cfg.varCount
  pulse : PulseInv s.cfg s.ps
  loop : LoopInv s.cfg s.cl
  ring : RingInv s.cfg s.rb
  statusH : StatusOk s.portH
  statusP : StatusOk s.portP
  statusC : StatusOk s.portC

/-! ## Registers, commands and schedules -/

/-- `s` with only the STATUS and RES of port `x` replaced: what a command leaves that does nothing else (R153). -/
def reported (s : State) (x : Port) (status res : Word) : State :=
  s.setPort x { s.port x with status := status, res := res }

/-- The masks, matches and ports of the opcode map, as R125 prints them. -/
def opcodeMasks : List (Word × Word × List Port) :=
  [ (0xFFFFFFFF, 0x00, [.h, .p, .c]),
    (0xFFFF00FF, 0x10, [.h]), (0xFFFF00FF, 0x11, [.h]), (0xFFFFFFFF, 0x12, [.h]), (0xFFFF00FF, 0x13, [.h]),
    (0xFFFF00FF, 0x20, [.h]), (0xFFFF00FF, 0x21, [.h]), (0xFFFFFFFF, 0x22, [.h]),
    (0x0000FFFF, 0x30, [.p]), (0xFFFF00FF, 0x31, [.p]), (0xFFFF00FF, 0x32, [.p]),
    (0xFFFFFFFF, 0x34, [.p, .c]), (0xFFFFFFFF, 0x35, [.p, .c]), (0xFFFFFFFF, 0x36, [.p, .c]),
    (0xFFFFFFFF, 0x37, [.p, .c]), (0xFFFFFFFF, 0x38, [.c]), (0xFFFFFFFF, 0x39, [.c]) ]

/-- The unit of a command: the opcode's upper digit, 1 for PS, 2 for CL, 3 for RB, 0 for `NOP` (R125). -/
def unitOf (i : Instr) : Nat := (opField (encode i)).toNat / 16

/-- The register stands in the window of the port, its index within its bound (R82, R83, R85, R87). -/
def registerExists (c : Params) : Port → Register → Bool
  | _, .cmd => true
  | _, .status => true
  | _, .res => true
  | x, .rbCfg => x.isRing
  | x, .rbOwn => x.isRing
  | x, .rbView => x.isRing
  | .h, .psDuty i => i < c.psNmax
  | .h, .varLo i => i < c.varCount
  | .h, .varHi i => i < c.varCount
  | .h, .ctlRef k => k < c.clNmax
  | .h, .ctlLo k f => k < c.clNmax && f < 8
  | .h, .ctlHi k f => k < c.clNmax && f < 8
  | .h, _ => true
  | _, _ => false

/-- The f64 field number `f` of a controller record is `v` (R83). -/
def ControllerField (c : Controller) (f : Nat) (v : F64) : Prop :=
  [c.kp, c.ki, c.kd, c.imax, c.dmax, c.outmax, c.sum, c.last][f]? = some v

/-- The values that the registers of the ports show, field by field (R32, R33, R82, R83, R85, R86). A register of several
fields is given as the sum of its fields, each at its place, so every other bit is 0. -/
structure RegistersShow (s : State) : Prop where
  cmd : ∀ x, readRegister s x .cmd = 0
  status : ∀ x, readRegister s x .status = (s.port x).status
  res : ∀ x, readRegister s x .res = (s.port x).res
  iarg : readRegister s .h .iarg = s.iarg
  argLo : ∀ k : Fin 6, readRegister s .h (.argLo k) = s.args[k].extractLsb' 0 32
  argHi : ∀ k : Fin 6, readRegister s .h (.argHi k) = s.args[k].extractLsb' 32 32
  psStat : (readRegister s .h .psStat).toNat
    = s.ps.armed.toNat + 2 ^ 1 * (decide (s.ps.phase = .drivingHigh)).toNat + 2 ^ 8 * s.ps.cur.toNat
      + 2 ^ 16 * s.ps.n.toNat
  psOut : ∀ i < 32, (readRegister s .h .psOut).getLsbD i = (s.ps.out.getLsbD i && decide (i < s.cfg.psNmax))
  psCnt : readRegister s .h .psCnt = s.ps.cnt
  psDeadline : readRegister s .h .psDeadline = s.ps.deadline
  psSlot : readRegister s .h .psSlot = s.ps.slot
  psPre : readRegister s .h .psPre = s.ps.pre
  psDuty : ∀ i, readRegister s .h (.psDuty i) = dutyAt s.ps i
  clStat : (readRegister s .h .clStat).toNat = s.cl.run.toNat + 2 ^ 8 * s.cl.n.toNat
  clCnt : (readRegister s .h .clCnt).toNat = s.cl.cnt.toNat
  clOvf : (readRegister s .h .clOvf).toNat = s.cl.ovf.toNat
  varLo : ∀ i, readRegister s .h (.varLo i) = (varAt s i).extractLsb' 0 32
  varHi : ∀ i, readRegister s .h (.varHi i) = (varAt s i).extractLsb' 32 32
  ctlRef : ∀ k, (readRegister s .h (.ctlRef k)).toNat
    = (ctlAt s.cl k).sp.toNat + 2 ^ 8 * (ctlAt s.cl k).meas.toNat + 2 ^ 16 * (ctlAt s.cl k).out.toNat
      + 2 ^ 24 * (ctlAt s.cl k).valid.toNat
  ctlFields : ∀ k f v,
    ControllerField (ctlAt s.cl k) f v →
      readRegister s .h (.ctlLo k f) = v.extractLsb' 0 32 ∧ readRegister s .h (.ctlHi k f) = v.extractLsb' 32 32
  rbCfg : ∀ x, x = .p ∨ x = .c →
    (readRegister s x .rbCfg).toNat = s.rb.len.toNat + 2 ^ 16 * s.rb.ready.toNat + 2 ^ 17 * s.cfg.rbCdc.toNat
  rbOwnP : (readRegister s .p .rbOwn).toNat = s.rb.wr.toNat
  rbOwnC : (readRegister s .c .rbOwn).toNat = s.rb.rd.toNat
  rbViewP : (readRegister s .p .rbView).toNat = if s.cfg.rbCdc then s.rb.rdSyncP.toNat else s.rb.rd.toNat
  rbViewC : (readRegister s .c .rbView).toNat = if s.cfg.rbCdc then s.rb.wrSyncC.toNat else s.rb.wr.toNat

/-- The step is a write of a command word to the CMD register of `x` that spells the command `i` there (R150). -/
def Issues (c : Params) (x : Port) (i : Instr) (a : Action) : Prop :=
  ∃ b w, a = .bus b ∧ b.op = .write w ∧ b.addr = baseOf c x ∧ decode x w = .ok i

/-- The step neither resets the block nor issues a `CL_INIT` or a `CL_ITERATE` (R286). -/
def KeepsTiming (c : Params) (a : Action) : Prop :=
  a ≠ .reset ∧ ¬ Issues c .h .clIterate a ∧ ∀ n, ¬ Issues c .h (.clInit n) a

/-- A schedule of freely chosen steps is fair (R21): `CLK` infinitely often, and both `SYNC` steps with `RB_CDC = 1`. -/
def FairSchedule (c : Params) (f : Nat → Action) : Prop :=
  (∀ n, ∃ m ≥ n, f m = .clk)
    ∧ (c.rbCdc = true → (∀ n, ∃ m ≥ n, f m = .syncP) ∧ ∀ n, ∃ m ≥ n, f m = .syncC)

end Sys2Proof.Safety
end

