-- ==== Sys2Proof/Certificates/Slice0/Obligations.lean ====
section
/-!
DEFINITION. The statements about the block, one `Prop` each; OBLIGATIONS.json lists them with the rules they rest on.
-/

open Sys2Proof Sys2Proof.Machine Sys2Proof.Safety
open Sys2Proof.Config (Params)

/-! ## Encoding -/

/-- Every well-formed command is read back from its word on its port, with every operand (R125, R127, R132). -/
def Obligations.DecodeOfEncodeIsTheCommand : Prop :=
  ∀ i : Instr, i.wellFormed = true → decode i.port (encode i) = .ok i

/-- A word that spells a command on a port is that command's word, and the command is well formed there (R125, R127). -/
def Obligations.EncodeOfDecodeIsTheWord : Prop :=
  ∀ x w i, decode x w = .ok i → i.wellFormed = true ∧ i.port = x ∧ encode i = w

/-- A word spells a command on a port exactly when it meets the mask and match of a row that lists the port (R125). -/
def Obligations.WordSpellsCommandExactlyByMaskAndPort : Prop :=
  ∀ x w, (∃ i, decode x w = .ok i) ↔ ∃ r ∈ opcodeMasks, w &&& r.1 = r.2.1 ∧ x ∈ r.2.2

/-- The four worked words of R132, and vectors of the decoding table (95_test_vectors.md section 2.1). -/
def Obligations.WorkedWordsDecode : Prop :=
  decode .h 0x00000410 = .ok (.psInit 4)
    ∧ decode .p 0x00004131 = .ok (.rbPush 0x41)
    ∧ decode .p 0x00080030 = .ok (.rbInit 8)
    ∧ decode .h 0x00000022 = .ok .clIterate
    ∧ decode .c 0x00000037 = .ok (.rbPopAvailable .c)
    ∧ decode .h 0x00010410 = .error .nonzeroMbz
    ∧ decode .c 0x00080030 = .error .wrongPort
    ∧ decode .p 0x00000033 = .error (.reservedOpcode 0x33)

/-! ## Steps and bus accesses -/

/-- A step takes the oldest placed step, of whatever agent, and performs it on the rest (R20). With none placed it performs
the step that the environment chooses. A placed write of a command word that decodes runs the decoded command (R150, R151).
The queue of placed steps is the model's choice (log 1), and so are the free step and its counter (log 2). -/
def Obligations.StepRunsThePlacedCommand : Prop :=
  (∀ s a rest, s.pending = a :: rest → step s = perform a { s with pending := rest })
    ∧ (∀ s b rest, s.pending = .bus b :: rest → step s = busAccess b { s with pending := rest })
    ∧ (∀ s x w i rest, s.cfg.wellFormed = true → s.pending = .bus (cmdWrite s.cfg x w) :: rest → decode x w = .ok i →
        step s = exec i { s with pending := rest })
    ∧ ∀ s, s.pending = [] → step s = perform (Config.environment s.turn) { s with turn := s.turn + 1 }

/-- An illegal command word writes `ILLEGAL` (6) and 0 on its port and changes nothing else (R152). -/
def Obligations.IllegalWordOnlyReports : Prop :=
  ∀ s x w e, s.cfg.wellFormed = true → decode x w = .error e →
    busAccess (cmdWrite s.cfg x w) s = .next (reported s x 6 0)

/-- Every register that exists stands at its offset, and an offset names only a register that exists there
(R82, R83, R85). -/
def Obligations.RegistersStandAtTheirOffsets : Prop :=
  ∀ c x off r, c.wellFormed = true → (registerAt c x off = some r ↔ registerExists c x r = true ∧ offsetOf r = off)

/-- Reserved offsets read as 0 and ignore writes (R87). -/
def Obligations.ReservedOffsetsReadZeroIgnoreWrites : Prop :=
  ∀ s x off v, s.cfg.wellFormed = true → (∀ r, registerExists s.cfg x r = true → offsetOf r ≠ off) →
    busRead s x off = 0 ∧ busWrite x off v s = .next s

/-- Every register shows the value, and the status words the fields at the bits, that the maps print (R82, R83, R85, R86); the
master of a port reads that value from every register of the window; and a write of a register that is not CMD, `H.IARG`, an
ARG half or a VAR half has no effect (R84). Where the read result stands is the model's choice (log 7). -/
def Obligations.AccessesReachTheirRegister : Prop :=
  ∀ s, s.cfg.wellFormed = true →
    RegistersShow s
      ∧ ∀ x r, registerExists s.cfg x r = true →
        busAccess (registerAccess s.cfg x r .read) s
            = .next (s.setPort x { s.port x with rdata := readRegister s x r })
          ∧ ∀ v, r ≠ .cmd → r ≠ .iarg → (∀ k, r ≠ .argLo k ∧ r ≠ .argHi k) → (∀ i, r ≠ .varLo i ∧ r ≠ .varHi i) →
              busAccess (registerAccess s.cfg x r (.write v)) s = .next s

/-- The RW registers: a write of `H.IARG` stores all its 32 bits (R33, R84); the two halves of an ARG register and of a VAR
entry are written one at a time, and a write of one leaves the other and every other entry (R90); nothing else changes. -/
def Obligations.HalvesAreWrittenIndependently : Prop :=
  ∀ s v, s.cfg.wellFormed = true → s.vars.length = s.cfg.varCount →
    busAccess (registerAccess s.cfg .h .iarg (.write v)) s = .next { s with iarg := v }
    ∧ (∀ k : Fin 6, ∃ t, busAccess (registerAccess s.cfg .h (.argLo k) (.write v)) s = .next t
      ∧ t = { s with args := t.args }
      ∧ ∀ j : Fin 6, hiHalf t.args[j] = hiHalf s.args[j]
          ∧ loHalf t.args[j] = if j = k then v else loHalf s.args[j])
    ∧ (∀ k : Fin 6, ∃ t, busAccess (registerAccess s.cfg .h (.argHi k) (.write v)) s = .next t
      ∧ t = { s with args := t.args }
      ∧ ∀ j : Fin 6, loHalf t.args[j] = loHalf s.args[j]
          ∧ hiHalf t.args[j] = if j = k then v else hiHalf s.args[j])
    ∧ (∀ i < s.cfg.varCount, ∃ t, busAccess (registerAccess s.cfg .h (.varLo i) (.write v)) s = .next t
      ∧ t = { s with vars := t.vars } ∧ t.vars.length = s.vars.length
      ∧ ∀ j, hiHalf (varAt t j) = hiHalf (varAt s j)
          ∧ loHalf (varAt t j) = if j = i then v else loHalf (varAt s j))
    ∧ (∀ i < s.cfg.varCount, ∃ t, busAccess (registerAccess s.cfg .h (.varHi i) (.write v)) s = .next t
      ∧ t = { s with vars := t.vars } ∧ t.vars.length = s.vars.length
      ∧ ∀ j, loHalf (varAt t j) = loHalf (varAt s j)
          ∧ hiHalf (varAt t j) = if j = i then v else hiHalf (varAt s j))

/-- A bus read changes nothing of the block: only what the read returned is new, and every register of every port reads
afterwards as before (R92). Where the read result stands is the model's choice (log 7). -/
def Obligations.ReadsHaveNoSideEffect : Prop :=
  ∀ a s t, a.op = .read → busAccess a s = .next t →
    (∃ x v, t = s.setPort x { s.port x with rdata := v }) ∧ ∀ y off, busRead t y off = busRead s y off

/-- An access of another width, a misaligned one, one outside every window, and one by an agent that is not the port's
master have no next step (R24, R89). -/
def Obligations.UndefinedAccessesAreRefused : Prop :=
  ∀ a s, s.cfg.wellFormed = true →
    (a.size ≠ .word ∨ a.addr % 4 ≠ 0
      ∨ (∀ x, ¬ (baseOf s.cfg x ≤ a.addr ∧ a.addr < baseOf s.cfg x + windowSize x))
      ∨ (∃ x, baseOf s.cfg x ≤ a.addr ∧ a.addr < baseOf s.cfg x + windowSize x ∧ masterOf s.cfg x ≠ a.master)) →
    ∃ r, busAccess a s = .refused r

/-- An aligned 32-bit access inside a window by the port's master is never refused: every command, illegal ones too, has
a next step or the one fault of log 6 (R84, R127). -/
def Obligations.ProperAccessesAreNeverRefused : Prop :=
  ∀ a s x r, s.cfg.wellFormed = true → a.size = .word → a.addr % 4 = 0 → baseOf s.cfg x ≤ a.addr →
    a.addr < baseOf s.cfg x + windowSize x → masterOf s.cfg x = a.master → busAccess a s ≠ .refused r

/-- The byte at `off + j` of a window is byte `j` of the register at `off`, the least significant first, and a 64-bit
value occupies eight consecutive byte addresses (R88). -/
def Obligations.WindowBytesAreLittleEndian : Prop :=
  ∀ s, s.cfg.wellFormed = true →
    (∀ x r j, registerExists s.cfg x r = true → j < 4 →
      windowByte s x (offsetOf r + j) = (readRegister s x r).extractLsb' (8 * j) 8)
    ∧ (∀ k : Fin 6, ∀ j < 8, windowByte s .h (0x010 + 8 * k.val + j) = s.args[k].extractLsb' (8 * j) 8)
    ∧ (∀ i < s.cfg.varCount, ∀ j < 8, windowByte s .h (0x100 + 8 * i + j) = (varAt s i).extractLsb' (8 * j) 8)

/-- `LDARG`, `LDVAR` and `LDIARG` load their register and nothing else; the fields of `H.IARG` are then the operands
(R124, R131). -/
def Obligations.LoadPseudoInstructionsLoad : Prop :=
  ∀ s, s.cfg.wellFormed = true → s.vars.length = s.cfg.varCount →
    (∀ k x, performAll (assemble s.cfg (.ldarg k x)) s = .next { s with args := s.args.set k x })
    ∧ (∀ i < s.cfg.varCount, ∀ x,
        performAll (assemble s.cfg (.ldvar i x)) s = .next { s with vars := s.vars.set i x })
    ∧ (∀ sp meas out, ∃ t, performAll (assemble s.cfg (.ldiarg sp meas out)) s = .next t
        ∧ t = { s with iarg := t.iarg } ∧ iargSp t = sp ∧ iargMeas t = meas ∧ iargOut t = out)

/-! ## The command frame -/

/-- A command writes one status code and a result on its own port, and nothing on the other ports (R153), and
leaves what the port's last read returned (the model's own field, log 7). -/
def Obligations.CommandsReportOnTheirOwnPort : Prop :=
  ∀ i s t, i.wellFormed = true → exec i s = .next t →
    (∀ y, y ≠ i.port → t.port y = s.port y)
      ∧ (t.port i.port).status.toNat < 8
      ∧ (t.port i.port).rdata = (s.port i.port).rdata

/-- A command, illegal or not, that ends with a status other than `OK` (0) and `SKIPPED` (7) has result 0 and changes nothing
else; one that ends with `SKIPPED` leaves the CL counters at 0, and result 0 (R154). -/
def Obligations.FailingCommandsChangeNothingElse : Prop :=
  ∀ x w s t, runCommand x w s = .next t →
    ((t.port x).status ≠ 0 → (t.port x).status ≠ 7 → t = reported s x (t.port x).status 0)
      ∧ ((t.port x).status = 7 → t.cl.cnt = 0 ∧ t.cl.ovf = 0 ∧ (t.port x).res = 0)

/-- No command writes an operand register (R33), the parameters (R53), or the model's own fields: the
placed steps (log 1) and the two counters (log 2, log 5). -/
def Obligations.CommandsLeaveOperandsAndParameters : Prop :=
  ∀ i s t, exec i s = .next t →
    t.args = s.args ∧ t.iarg = s.iarg ∧ t.cfg = s.cfg ∧ t.pending = s.pending ∧ t.turn = s.turn ∧ t.resets = s.resets

/-- The units share no state: only PS commands write PS, only CL commands write CL and the variable file, only RB commands
write RB, every byte of its storage included (R3, R352). -/
def Obligations.UnitsKeepToTheirOwnState : Prop :=
  ∀ i s t, exec i s = .next t →
    (unitOf i ≠ 1 → t.ps = s.ps)
      ∧ (unitOf i ≠ 2 → t.cl = s.cl ∧ t.vars = s.vars)
      ∧ (unitOf i ≠ 3 → t.rb = s.rb ∧ ∀ j, ringByte t j = ringByte s j)

/-- `NOP` writes `OK` and 0 on its port and does nothing else (R155). -/
def Obligations.NopReportsOk : Prop := ∀ x s, exec (.nop x) s = .next (reported s x 0 0)

/-! ## The pulse scheduler -/

/-- `PS_INIT` (R224): `BAD_ARG` outside its domain, else it arms the scheduler with `n` channels at the minimum duty, in
`DRIVING_HIGH(0)`, or in `WAITING_LOW(0)` when the minimum is 0, and answers the slot; nothing else changes. -/
def Obligations.PsInitArmsOrRejects : Prop :=
  ∀ s n, s.cfg.wellFormed = true →
    ((n.toNat < 1 ∨ s.cfg.psNmax < n.toNat ∨ s.cfg.psPeriod < n.toNat * s.cfg.psMax ∨ s.cfg.psPeriod < n.toNat) →
      exec (.psInit n) s = .next (reported s .h 5 0))
    ∧ (1 ≤ n.toNat → n.toNat ≤ s.cfg.psNmax → n.toNat * s.cfg.psMax ≤ s.cfg.psPeriod → n.toNat ≤ s.cfg.psPeriod →
      ∃ u : Pulse, exec (.psInit n) s = .next (reported { s with ps := u } .h 0 u.slot)
        ∧ u.armed = true ∧ u.n.toNat = n.toNat ∧ u.slot.toNat = s.cfg.psPeriod / n.toNat
        ∧ u.duty.length = s.cfg.psNmax ∧ (∀ i < s.cfg.psNmax, (dutyAt u i).toNat = s.cfg.psMin)
        ∧ u.cur = 0 ∧ u.cnt = 0 ∧ u.pre = 0
        ∧ (0 < s.cfg.psMin → u.phase = .drivingHigh ∧ u.deadline.toNat = s.cfg.psMin
            ∧ ∀ j < 32, u.out.getLsbD j = decide (j = 0))
        ∧ (s.cfg.psMin = 0 → u.phase = .waitingLow ∧ u.deadline = u.slot ∧ u.out = 0))

/-- `PS_SET_CHANNEL` (R225): `NOT_INIT`, then `INDEX_RANGE`, else the duty of the one channel becomes the mapped percent of
`H.ARG0`, which is also the result; nothing else changes. -/
def Obligations.PsSetChannelStoresOneDuty : Prop :=
  ∀ s index, s.cfg.wellFormed = true → PulseInv s.cfg s.ps →
    (s.ps.armed = false → exec (.psSetChannel index) s = .next (reported s .h 4 0))
    ∧ (s.ps.armed = true → s.ps.n.toNat ≤ index.toNat → exec (.psSetChannel index) s = .next (reported s .h 3 0))
    ∧ (s.ps.armed = true → index.toNat < s.ps.n.toNat →
      ∃ duty res, exec (.psSetChannel index) s
            = .next (reported { s with ps := { s.ps with duty := duty } } .h 0 res)
        ∧ res.toNat = mapPercent s.cfg s.args[0] ∧ duty.length = s.ps.duty.length
        ∧ ∀ i < s.cfg.psNmax, duty.getD i 0 = if i = index.toNat then res else dutyAt s.ps i)

/-- `PS_SET_ALL` (R226): `NOT_INIT`, else every active channel's duty becomes the mapped percent of `H.ARG0`, and the
entries beyond `ps_n` keep their value; nothing else changes. -/
def Obligations.PsSetAllStoresEveryActiveDuty : Prop :=
  ∀ s, s.cfg.wellFormed = true → PulseInv s.cfg s.ps →
    (s.ps.armed = false → exec .psSetAll s = .next (reported s .h 4 0))
    ∧ (s.ps.armed = true →
      ∃ duty res, exec .psSetAll s = .next (reported { s with ps := { s.ps with duty := duty } } .h 0 res)
        ∧ res.toNat = mapPercent s.cfg s.args[0] ∧ duty.length = s.ps.duty.length
        ∧ ∀ i < s.cfg.psNmax, duty.getD i 0 = if i < s.ps.n.toNat then res else dutyAt s.ps i)

/-- `PS_SET_CHANNELS` (R227): `NOT_INIT`, then `INDEX_RANGE` when the operands run past the variable file, else the duty
of channel `i` becomes the mapped percent of `VAR[base + i]`; nothing else changes. -/
def Obligations.PsSetChannelsStoresDutiesFromVariables : Prop :=
  ∀ s base, s.cfg.wellFormed = true → PulseInv s.cfg s.ps →
    (s.ps.armed = false → exec (.psSetChannels base) s = .next (reported s .h 4 0))
    ∧ (s.ps.armed = true → s.cfg.varCount < base.toNat + s.ps.n.toNat →
      exec (.psSetChannels base) s = .next (reported s .h 3 0))
    ∧ (s.ps.armed = true → base.toNat + s.ps.n.toNat ≤ s.cfg.varCount →
      ∃ duty, exec (.psSetChannels base) s = .next (reported { s with ps := { s.ps with duty := duty } } .h 0 0)
        ∧ duty.length = s.ps.duty.length
        ∧ (∀ i < s.ps.n.toNat, (duty.getD i 0).toNat = mapPercent s.cfg (varAt s (base.toNat + i)))
        ∧ ∀ i, s.ps.n.toNat ≤ i → duty.getD i 0 = dutyAt s.ps i)

/-- The mapped percent lies in `[PS_MIN, PS_MAX]` for every bit pattern (R220). -/
def Obligations.MappedPercentStaysInBounds : Prop :=
  ∀ c p, c.wellFormed = true → c.psMin ≤ mapPercent c p ∧ mapPercent c p ≤ c.psMax

/-- The percent is clamped, never rejected: a NaN and everything up to a zero map to `PS_MIN`, everything from 1.0 on maps
to `PS_MAX`; in between the duty is `PS_MIN` plus the floor of the rounded product with the range (R220). -/
def Obligations.PercentIsClamped : Prop :=
  ∀ c p, c.wellFormed = true →
    (isNaN p = true → mapPercent c p = c.psMin)
    ∧ (isNaN p = false → gt64 p 0 = false → mapPercent c p = c.psMin)
    ∧ (isNaN p = false → lt64 p one64 = false → mapPercent c p = c.psMax)
    ∧ (isNaN p = false → lt64 p 0 = false → gt64 p one64 = false →
      ∃ d : Nat, mapPercent c p = c.psMin + d
        ∧ (d : Int) * 2 ^ 1074 ≤ scaled (mul64 p (to64 (c.psMax - c.psMin)))
        ∧ scaled (mul64 p (to64 (c.psMax - c.psMin))) < ((d : Int) + 1) * 2 ^ 1074)

/-- A larger percent never maps to a smaller duty (R220: the product is monotonic). -/
def Obligations.PercentMappingIsMonotone : Prop :=
  ∀ c p q, c.wellFormed = true → isNaN p = false → isNaN q = false → gt64 p q = false →
    mapPercent c p ≤ mapPercent c q

/-- The compare event (R221), in every state in which the engine can run it, a deadline of 0 and a count at the deadline among
them: in `DRIVING_HIGH(i)` line `i` falls and the deadline is the rest of the slot; in `WAITING_LOW(i)` the next channel
round the ring rises and the deadline is its duty; the counter restarts. -/
def Obligations.CompareEventTakesTheTransition : Prop :=
  ∀ c u, c.wellFormed = true → u.cur.toNat < u.n.toNat → u.n.toNat ≤ c.psNmax → ScheduleInv c u →
    (u.phase = .drivingHigh →
      ∃ out deadline, psService c u = { u with out := out, deadline := deadline, phase := .waitingLow, cnt := 0 }
        ∧ deadline.toNat = u.slot.toNat - (dutyAt u u.cur.toNat).toNat
        ∧ (dutyAt u u.cur.toNat).toNat ≤ u.slot.toNat
        ∧ ∀ j < 32, out.getLsbD j = (u.out.getLsbD j && decide (j ≠ u.cur.toNat)))
    ∧ (u.phase = .waitingLow →
      ∃ out cur, psService c u
          = { u with out := out, cur := cur, deadline := dutyAt u cur.toNat, phase := .drivingHigh, cnt := 0 }
        ∧ cur.toNat = (u.cur.toNat + 1) % u.n.toNat
        ∧ ∀ j < 32, out.getLsbD j = (u.out.getLsbD j || decide (j = cur.toNat)))

/-- After `ps_settle` the deadline is at least 1, and a deadline that is not 0 is left as it is (R222). A zero HIGH deadline
is one that the duty 0 of the current channel set. The loop's two rounds: log 11. -/
def Obligations.SettledDeadlineIsPositive : Prop :=
  ∀ c u, c.wellFormed = true → u.cur.toNat < u.n.toNat → u.n.toNat ≤ c.psNmax → ScheduleInv c u →
    (u.deadline = 0 → u.phase = .drivingHigh → dutyAt u u.cur.toNat = 0) →
    1 ≤ (psSettle c u).deadline.toNat ∧ (u.deadline ≠ 0 → psSettle c u = u)

/-- The PS part of a `CLK` step (R223). The prescaler: from a prescaler count of 0, the first `PS_PRESCALE - 1` `CLK` steps only
count, and the next one is a PS tick that leaves the count at 0; from any count below that bound, one step counts or ticks.
The PS tick: below the deadline it only counts, whatever the duties say, and at the deadline it runs the compare event and
settles. An unarmed scheduler does not move. -/
def Obligations.PrescalerDividesTheClock : Prop :=
  ∀ c u, c.wellFormed = true →
    (u.armed = false → ∀ k, psClks c k u = u)
    ∧ (u.armed = true → u.pre = 0 →
      (∀ k < c.psPrescale, ∃ pre : Word, psClks c k u = { u with pre := pre } ∧ pre.toNat = k)
      ∧ psClks c c.psPrescale u = psTick c u)
    ∧ (u.armed = true →
      (u.pre.toNat + 1 < c.psPrescale → ∃ pre : Word, psClk c u = { u with pre := pre } ∧ pre.toNat = u.pre.toNat + 1)
      ∧ (u.pre.toNat + 1 = c.psPrescale → psClk c u = psTick c { u with pre := 0 }))
    ∧ (u.armed = true → PulseInv c u →
      (u.cnt.toNat + 1 < u.deadline.toNat →
        ∃ cnt : Word, psTick c u = { u with cnt := cnt } ∧ cnt.toNat = u.cnt.toNat + 1)
      ∧ (u.cnt.toNat + 1 = u.deadline.toNat → psTick c u = psSettle c (psService c u)))

/-- Frame timing (R230): `k` `CLK` steps after the start of a frame, with the duties unchanged, line `i` is HIGH exactly
when its slot is in turn and fewer ticks of the slot have passed than its duty; a frame lasts `n * slot` ticks, which is
`P - (P mod n)`. -/
def Obligations.FrameTimingFollowsSlotsAndDuties : Prop :=
  ∀ c u k, c.wellFormed = true → PulseInv c u → u.armed = true → FrameStart u →
    u.n.toNat * u.slot.toNat = c.psPeriod - c.psPeriod % u.n.toNat
    ∧ ∀ i < 32, (psClks c k u).out.getLsbD i
        = decide (i < u.n.toNat ∧ k / c.psPrescale / u.slot.toNat % u.n.toNat = i
            ∧ k / c.psPrescale % u.slot.toNat < (dutyAt u i).toNat)

/-- When a duty change takes effect (R231), for all three setters. A setter changes nothing of the engine but the duties, so
the phase in flight keeps its length. When the pulse of channel `i` is in flight, the LOW phase that follows lasts the slot
less the new duty of `i`. When a LOW phase is in flight, the next event raises the next channel for its new duty, and that
slot keeps its length. The new duties are the mapped percents of R225 to R227. -/
def Obligations.DutyChangeSparesThePulseInFlight : Prop :=
  ∀ s i t, s.cfg.wellFormed = true → PulseInv s.cfg s.ps → s.ps.armed = true →
    (i = .psSetAll ∨ (∃ index, i = .psSetChannel index) ∨ ∃ base, i = .psSetChannels base) → exec i s = .next t →
    t.ps = { s.ps with duty := t.ps.duty }
      ∧ (s.ps.phase = .drivingHigh →
        (psService s.cfg t.ps).phase = .waitingLow ∧ (psService s.cfg t.ps).cur = s.ps.cur
          ∧ (psService s.cfg t.ps).deadline.toNat = s.ps.slot.toNat - (dutyAt t.ps s.ps.cur.toNat).toNat)
      ∧ (s.ps.phase = .waitingLow →
        (psService s.cfg t.ps).phase = .drivingHigh
          ∧ (psService s.cfg t.ps).cur.toNat = (s.ps.cur.toNat + 1) % s.ps.n.toNat
          ∧ (psService s.cfg t.ps).deadline = dutyAt t.ps ((s.ps.cur.toNat + 1) % s.ps.n.toNat)
          ∧ (psService s.cfg t.ps).deadline.toNat + (psService s.cfg (psService s.cfg t.ps)).deadline.toNat
              = s.ps.slot.toNat)
      ∧ (∀ index, i = .psSetChannel index → index.toNat < s.ps.n.toNat →
        (dutyAt t.ps index.toNat).toNat = mapPercent s.cfg s.args[0]
          ∧ ∀ j, j ≠ index.toNat → dutyAt t.ps j = dutyAt s.ps j)
      ∧ (i = .psSetAll → ∀ j < s.ps.n.toNat, (dutyAt t.ps j).toNat = mapPercent s.cfg s.args[0])
      ∧ (∀ base, i = .psSetChannels base → base.toNat + s.ps.n.toNat ≤ s.cfg.varCount →
        ∀ j < s.ps.n.toNat, (dutyAt t.ps j).toNat = mapPercent s.cfg (varAt s (base.toNat + j)))

/-! ## The control loop -/

/-- The `CLK` step (R280, R347): the running counter counts, wraps from `CL_TOP - 1` to 0 with a saturating overflow
count, and a stopped one stands; the variable file, the ring buffer, the operands and the ports do not change. -/
def Obligations.ClockStepCountsAndOverflows : Prop :=
  ∀ s, s.cfg.wellFormed = true → LoopInv s.cfg s.cl →
    ∃ ps cnt ovf, perform .clk s = .next { s with ps := ps, cl := { s.cl with cnt := cnt, ovf := ovf } }
      ∧ ps = psClk s.cfg s.ps
      ∧ (s.cl.run = false → cnt = s.cl.cnt ∧ ovf = s.cl.ovf)
      ∧ (s.cl.run = true → s.cl.cnt.toNat + 1 < s.cfg.clTop → cnt.toNat = s.cl.cnt.toNat + 1 ∧ ovf = s.cl.ovf)
      ∧ (s.cl.run = true → s.cl.cnt.toNat + 1 = s.cfg.clTop →
          cnt = 0 ∧ ovf.toNat = if s.cl.ovf.toNat < 65535 then s.cl.ovf.toNat + 1 else 65535)

/-- `CL_MAKE` (R283): `INDEX_RANGE` for the entry, then for the variables, `BAD_ARG` for a gain that is not finite, then for
a limit that is a NaN or negative, else entry `k` takes the operands with zeroed memory; nothing else changes. -/
def Obligations.ClMakeWritesOneEntry : Prop :=
  ∀ s k, s.cl.table.length = s.cfg.clNmax →
    ((s.cfg.clNmax ≤ k.toNat ∨ s.cfg.varCount ≤ (iargSp s).toNat ∨ s.cfg.varCount ≤ (iargMeas s).toNat
        ∨ s.cfg.varCount ≤ (iargOut s).toNat) → exec (.clMake k) s = .next (reported s .h 3 0))
    ∧ (k.toNat < s.cfg.clNmax → (iargSp s).toNat < s.cfg.varCount → (iargMeas s).toNat < s.cfg.varCount →
        (iargOut s).toNat < s.cfg.varCount →
        (((∃ j : Fin 6, j.val < 3 ∧ isFinite s.args[j] = false)
            ∨ ∃ j : Fin 6, 3 ≤ j.val ∧ (isNaN s.args[j] = true ∨ lt64 s.args[j] 0 = true)) →
          exec (.clMake k) s = .next (reported s .h 5 0))
        ∧ ((∀ j : Fin 6, j.val < 3 → isFinite s.args[j] = true) →
          (∀ j : Fin 6, 3 ≤ j.val → isNaN s.args[j] = false ∧ lt64 s.args[j] 0 = false) →
          ∃ table, exec (.clMake k) s = .next (reported { s with cl := { s.cl with table := table } } .h 0 0)
            ∧ table.length = s.cl.table.length
            ∧ table.getD k.toNat .reset
                = { valid := true, sp := iargSp s, meas := iargMeas s, out := iargOut s,
                    kp := s.args[0], ki := s.args[1], kd := s.args[2],
                    imax := s.args[3], dmax := s.args[4], outmax := s.args[5], sum := 0, last := 0 }
            ∧ ∀ j, j ≠ k.toNat → table.getD j .reset = ctlAt s.cl j))

/-- `CL_INIT` (R284): `BAD_ARG` beyond the table, `NOT_INIT` when an entry below `n` was never made, else it registers the
first `n` entries and starts the timer from 0; nothing else changes, the controllers' memory neither. -/
def Obligations.ClInitStartsTheTimer : Prop :=
  ∀ s n, s.cfg.wellFormed = true →
    (s.cfg.clNmax < n.toNat → exec (.clInit n) s = .next (reported s .h 5 0))
    ∧ (n.toNat ≤ s.cfg.clNmax → (∃ k < n.toNat, (ctlAt s.cl k).valid = false) →
      exec (.clInit n) s = .next (reported s .h 4 0))
    ∧ (n.toNat ≤ s.cfg.clNmax → (∀ k < n.toNat, (ctlAt s.cl k).valid = true) →
      ∃ m, exec (.clInit n) s
            = .next (reported { s with cl := { s.cl with n := m, cnt := 0, ovf := 0, run := true } } .h 0 0)
        ∧ m.toNat = n.toNat)

/-- `CL_ITERATE` (R285): `NOT_INIT` before `CL_INIT`; `SKIPPED` (7) with result 0 when no tick has passed; else the counters
are zeroed, every registered controller takes one PID step in order with `dt = ticks / F_CLK`, each on the state the
one before left, and the result is `ticks`. Nothing but the
counters, the entries, the variable file and port H's result changes. -/
def Obligations.ClIterateRunsTheControllersInOrder : Prop :=
  ∀ s, s.cfg.wellFormed = true → LoopInv s.cfg s.cl → s.vars.length = s.cfg.varCount →
    (s.cl.run = false → exec .clIterate s = .next (reported s .h 4 0))
    ∧ (s.cl.run = true → s.cl.ovf.toNat * s.cfg.clTop + s.cl.cnt.toNat = 0 →
      exec .clIterate s = .next (reported s .h 7 0))
    ∧ (s.cl.run = true → 0 < s.cl.ovf.toNat * s.cfg.clTop + s.cl.cnt.toNat →
      ∃ (st : Nat → State) (res : Word),
        exec .clIterate s = .next (reported (st s.cl.n.toNat) .h 0 res)
          ∧ res.toNat = s.cl.ovf.toNat * s.cfg.clTop + s.cl.cnt.toNat
          ∧ st 0 = { s with cl := { s.cl with cnt := 0, ovf := 0 } }
          ∧ ∀ k < s.cl.n.toNat, PidStepTo (div64 (to64 res.toNat) (to64 s.cfg.fClk)) k (st k) (st (k + 1)))

/-- Tick reconstruction and saturation (R286, R287): take a state whose counters were just zeroed, and any steps of any
agents after it that neither reset the block nor issue a `CL_INIT` or a `CL_ITERATE`, with `T` `CLK` steps among them.
`CL_ITERATE` then returns `T` while `T < 65536 * CL_TOP`, and `65535 * CL_TOP + T mod CL_TOP` from there on, and a second
one at once returns `SKIPPED`. -/
def Obligations.TicksAreReconstructedUpToSaturation : Prop :=
  ∀ s as t, s.cfg.wellFormed = true → s.cl.run = true → s.cl.cnt = 0 → s.cl.ovf = 0 →
    (∀ a ∈ as, KeepsTiming s.cfg a) → performAll as s = .next t →
    ∃ u v, exec .clIterate t = .next u
      ∧ u.portH.res.toNat
          = (if as.count .clk < 65536 * s.cfg.clTop then as.count .clk
             else 65535 * s.cfg.clTop + as.count .clk % s.cfg.clTop)
      ∧ exec .clIterate u = .next v ∧ v.portH.status = 7 ∧ v.portH.res = 0

/-- The clamp (R281): a value above the limit gives the limit, one below the negated limit gives the negated limit, and any
other value, a NaN among them, passes unchanged. So, after a PID step of a made controller, the sum, the derivative and the
output are each a NaN or within their symmetric limit (R288). -/
def Obligations.ClampedTermsStayWithinTheirLimits : Prop :=
  (∀ x lim, limitOk lim = true →
    (gt64 x lim = true → clamp64 x lim = lim)
      ∧ (lt64 x (neg64 lim) = true → clamp64 x lim = neg64 lim)
      ∧ (gt64 x lim = false → lt64 x (neg64 lim) = false → clamp64 x lim = x)
      ∧ (isNaN x = true → clamp64 x lim = x))
  ∧ ∀ c k e dt sum d, ControllerOk c k →
    (isNaN (pidSum k e dt) = false →
      gt64 (pidSum k e dt) k.imax = false ∧ lt64 (pidSum k e dt) (neg64 k.imax) = false)
    ∧ (isNaN (pidDerivative k e dt) = false →
      gt64 (pidDerivative k e dt) k.dmax = false ∧ lt64 (pidDerivative k e dt) (neg64 k.dmax) = false)
    ∧ (isNaN (pidOutput k e sum d) = false →
      gt64 (pidOutput k e sum d) k.outmax = false ∧ lt64 (pidOutput k e sum d) (neg64 k.outmax) = false)

/-- With setpoint and measurement equal and finite and no memory, a PID step over a positive finite `dt` gives a zero error,
sum and derivative of positive sign, and an output of zero, negative exactly when every gain is (R288). -/
def Obligations.ZeroErrorGivesZeroOutput : Prop :=
  ∀ c s k dt, ControllerOk c (ctlAt s.cl k) → k < s.cl.table.length → (ctlAt s.cl k).out.toNat < s.vars.length →
    (ctlAt s.cl k).sum = 0 → (ctlAt s.cl k).last = 0 →
    varAt s (ctlAt s.cl k).sp.toNat = varAt s (ctlAt s.cl k).meas.toNat →
    isFinite (varAt s (ctlAt s.cl k).sp.toNat) = true → isFinite dt = true → gt64 dt 0 = true →
    (ctlAt (pidStep dt s k).cl k).sum = 0 ∧ (ctlAt (pidStep dt s k).cl k).last = 0
      ∧ varAt (pidStep dt s k) (ctlAt s.cl k).out.toNat
          = if signBit (ctlAt s.cl k).kp && signBit (ctlAt s.cl k).ki && signBit (ctlAt s.cl k).kd
            then 0x8000000000000000 else 0

/-- NaN persistence (R288, R405). A NaN in a controller's sum stays a NaN through every command but a `CL_MAKE` of that entry.
A PID step of an entry whose error is a NaN makes the sum, `last` and the output NaNs, and one whose sum is a NaN makes the
output a NaN, whatever the error. `last` is the error of the latest step (R282; the prose of R288 and R405 on a NaN in
`last`: log 24). -/
def Obligations.NanSumPersistsUntilRemade : Prop :=
  (∀ i s t k, exec i s = .next t → (∀ b, i = .clMake b → b.toNat ≠ k) → isNaN (ctlAt s.cl k).sum = true →
    isNaN (ctlAt t.cl k).sum = true)
  ∧ ∀ dt s k, k < s.cl.table.length → (ctlAt s.cl k).out.toNat < s.vars.length →
    (isNaN (pidError s (ctlAt s.cl k)) = true →
      isNaN (ctlAt (pidStep dt s k).cl k).sum = true ∧ isNaN (ctlAt (pidStep dt s k).cl k).last = true
        ∧ isNaN (varAt (pidStep dt s k) (ctlAt s.cl k).out.toNat) = true)
    ∧ (isNaN (ctlAt s.cl k).sum = true → isNaN (varAt (pidStep dt s k) (ctlAt s.cl k).out.toNat) = true)
    ∧ (ctlAt (pidStep dt s k).cl k).last = pidError s (ctlAt s.cl k)

/-! ## The ring buffer -/

/-- `RB_INIT` (R171): `BAD_ARG` outside `[2, RB_SIZE]`, else the buffer of that length is empty, both copies are reset where
they exist, and the result is the capacity; the storage bytes and everything else keep their values. -/
def Obligations.RbInitEmptiesTheBuffer : Prop :=
  ∀ s len, s.cfg.wellFormed = true →
    ((len.toNat < 2 ∨ s.cfg.rbSize < len.toNat) → exec (.rbInit len) s = .next (reported s .p 5 0))
    ∧ (2 ≤ len.toNat → len.toNat ≤ s.cfg.rbSize →
      ∃ u res, exec (.rbInit len) s = .next (reported { s with rb := u } .p 0 res)
        ∧ res.toNat = len.toNat - 1 ∧ u.ready = true ∧ u.len = len ∧ u.wr = 0 ∧ u.rd = 0 ∧ u.mem = s.rb.mem
        ∧ (s.cfg.rbCdc = true → u.rdSyncP = 0 ∧ u.wrSyncC = 0)
        ∧ (s.cfg.rbCdc = false → u.rdSyncP = s.rb.rdSyncP ∧ u.wrSyncC = s.rb.wrSyncC))

/-- `RB_PUSH` (R172): `NOT_INIT`, then `FULL` as the producer sees it, else the byte is stored at the write index, which
advances; every other byte and everything else keeps its value. -/
def Obligations.RbPushStoresOneByte : Prop :=
  ∀ s a, s.cfg.wellFormed = true → RingInv s.cfg s.rb →
    (s.rb.ready = false → exec (.rbPush a) s = .next (reported s .p 4 0))
    ∧ (s.rb.ready = true → (s.rb.wr.toNat + 1) % s.rb.len.toNat = (viewRdP s).toNat →
      exec (.rbPush a) s = .next (reported s .p 1 0))
    ∧ (s.rb.ready = true → (s.rb.wr.toNat + 1) % s.rb.len.toNat ≠ (viewRdP s).toNat →
      ∃ mem wr, exec (.rbPush a) s
            = .next (reported { s with rb := { s.rb with mem := mem, wr := wr } } .p 0 0)
        ∧ wr.toNat = (s.rb.wr.toNat + 1) % s.rb.len.toNat
        ∧ Memory.read mem s.rb.wr.toNat = some a
        ∧ ∀ j, j ≠ s.rb.wr.toNat → Memory.read mem j = Memory.read s.rb.mem j)

/-- `RB_PUSH_OVERWRITE` (R173): `ILLEGAL` with `RB_CDC = 1`, then `NOT_INIT`, else the byte is stored at the write index, which
advances; when it then meets the read index, the read index advances too and the result is 1. -/
def Obligations.RbPushOverwriteDropsTheOldest : Prop :=
  ∀ s a, s.cfg.wellFormed = true → RingInv s.cfg s.rb →
    (s.cfg.rbCdc = true → exec (.rbPushOverwrite a) s = .next (reported s .p 6 0))
    ∧ (s.cfg.rbCdc = false → s.rb.ready = false → exec (.rbPushOverwrite a) s = .next (reported s .p 4 0))
    ∧ (s.cfg.rbCdc = false → s.rb.ready = true →
      ∃ mem wr rd res, exec (.rbPushOverwrite a) s
            = .next (reported { s with rb := { s.rb with mem := mem, wr := wr, rd := rd } } .p 0 res)
        ∧ wr.toNat = (s.rb.wr.toNat + 1) % s.rb.len.toNat
        ∧ Memory.read mem s.rb.wr.toNat = some a
        ∧ (∀ j, j ≠ s.rb.wr.toNat → Memory.read mem j = Memory.read s.rb.mem j)
        ∧ (wr = s.rb.rd → rd.toNat = (s.rb.rd.toNat + 1) % s.rb.len.toNat ∧ res = 1)
        ∧ (wr ≠ s.rb.rd → rd = s.rb.rd ∧ res = 0))

/-- The four queries (R174 to R177) answer from the pair of their own port, `NOT_INIT` before `RB_INIT`, and change nothing
but that port's result. -/
def Obligations.RbQueriesAnswerFromTheirPort : Prop :=
  ∀ s x w r, ((x = .p ∧ w = s.rb.wr ∧ r = viewRdP s) ∨ (x = .c ∧ w = viewWrC s ∧ r = s.rb.rd)) →
    (s.rb.ready = false →
      exec (.rbIsEmpty x) s = .next (reported s x 4 0) ∧ exec (.rbIsFull x) s = .next (reported s x 4 0)
        ∧ exec (.rbPushAvailable x) s = .next (reported s x 4 0)
        ∧ exec (.rbPopAvailable x) s = .next (reported s x 4 0))
    ∧ (s.rb.ready = true → 2 ≤ s.rb.len.toNat → w.toNat < s.rb.len.toNat → r.toNat < s.rb.len.toNat →
      exec (.rbIsEmpty x) s = .next (reported s x 0 (if w = r then 1 else 0))
        ∧ exec (.rbIsFull x) s
            = .next (reported s x 0 (if (w.toNat + 1) % s.rb.len.toNat = r.toNat then 1 else 0))
        ∧ (∃ free, exec (.rbPushAvailable x) s = .next (reported s x 0 free)
            ∧ (free.toNat : Int) = ((r.toNat : Int) - w.toNat - 1) % (s.rb.len.toNat : Int))
        ∧ ∃ used, exec (.rbPopAvailable x) s = .next (reported s x 0 used)
            ∧ (used.toNat : Int) = ((w.toNat : Int) - r.toNat) % (s.rb.len.toNat : Int))

/-- `RB_POP` (R178): `NOT_INIT`, then `EMPTY` as the consumer sees it, else the oldest byte is the result and the read index
advances; every byte of the storage and everything else keeps its value. -/
def Obligations.RbPopTakesTheOldestByte : Prop :=
  ∀ s, s.cfg.wellFormed = true → RingInv s.cfg s.rb →
    (s.rb.ready = false → exec .rbPop s = .next (reported s .c 4 0))
    ∧ (s.rb.ready = true → viewWrC s = s.rb.rd → exec .rbPop s = .next (reported s .c 2 0))
    ∧ (s.rb.ready = true → viewWrC s ≠ s.rb.rd →
      ∃ b rd, exec .rbPop s = .next (reported { s with rb := { s.rb with rd := rd } } .c 0 (b.setWidth 32))
        ∧ Memory.read s.rb.mem s.rb.rd.toNat = some b
        ∧ rd.toNat = (s.rb.rd.toNat + 1) % s.rb.len.toNat)

/-- `RB_PEEK` (R179): as `RB_POP`, without advancing the read index; only port C's result changes. -/
def Obligations.RbPeekReadsTheOldestByte : Prop :=
  ∀ s, s.cfg.wellFormed = true → RingInv s.cfg s.rb →
    (s.rb.ready = false → exec .rbPeek s = .next (reported s .c 4 0))
    ∧ (s.rb.ready = true → viewWrC s = s.rb.rd → exec .rbPeek s = .next (reported s .c 2 0))
    ∧ (s.rb.ready = true → viewWrC s ≠ s.rb.rd →
      ∃ b, exec .rbPeek s = .next (reported s .c 0 (b.setWidth 32)) ∧ Memory.read s.rb.mem s.rb.rd.toNat = some b)

/-- For every pair in range, the two counts sum to the capacity (R170). -/
def Obligations.CountsSumToTheCapacity : Prop :=
  ∀ len w r : Nat, 1 ≤ len → w < len → r < len → pushAvail len w r + popAvail len w r = len - 1

/-- The buffer is a first-in first-out queue (R182, R183): a push appends its byte, an overwriting push drops the first when
the buffer was full, a pop takes the first and answers it, a peek answers it, an initialisation empties the queue. -/
def Obligations.ContentsFollowTheQueue : Prop :=
  ∀ s t, s.cfg.wellFormed = true → RingInv s.cfg s.rb →
    (∀ a, exec (.rbPush a) s = .next t → t.portP.status = 0 → ringContents t = ringContents s ++ [a])
    ∧ (∀ a, exec (.rbPushOverwrite a) s = .next t → t.portP.status = 0 →
        ringContents t = (if (ringContents s).length + 1 = s.rb.len.toNat then (ringContents s).tail
          else ringContents s) ++ [a])
    ∧ (exec .rbPop s = .next t → t.portC.status = 0 →
        ∃ b, ringContents s = b :: ringContents t ∧ t.portC.res = b.setWidth 32)
    ∧ (exec .rbPeek s = .next t → t.portC.status = 0 →
        ringContents t = ringContents s ∧ ∃ b rest, ringContents s = b :: rest ∧ t.portC.res = b.setWidth 32)
    ∧ (∀ len, exec (.rbInit len) s = .next t → t.portP.status = 0 → ringContents t = [])

/-- With `RB_CDC = 0`, pushing up to `L - 1` bytes to an empty buffer succeeds and popping as many times returns them in
order; at `L - 1` bytes a further push answers `FULL` (R183). -/
def Obligations.BytesComeOutInTheOrderPushed : Prop :=
  ∀ (s : State) (bytes : List Byte), s.cfg.wellFormed = true → RingInv s.cfg s.rb → s.cfg.rbCdc = false → s.rb.ready = true →
    s.rb.wr = s.rb.rd → bytes.length < s.rb.len.toNat →
    ∃ t, performAll (bytes.map fun b => commandStep s.cfg (.rbPush b)) s = .next t
      ∧ (∀ h : 0 < bytes.length, t.portP.status = 0)
      ∧ (bytes.length + 1 = s.rb.len.toNat →
          ∀ b, ∃ u, perform (commandStep s.cfg (.rbPush b)) t = .next u ∧ u.portP.status = 1)
      ∧ ∀ j (h : j < bytes.length),
          ∃ u, performAll (List.replicate (j + 1) (commandStep s.cfg .rbPop)) t = .next u
            ∧ u.portC.status = 0 ∧ u.portC.res = (bytes[j]).setWidth 32

/-- The `SYNC` steps (R180, R181) copy one index and do nothing else, and what they copy is what the other side then sees;
with `RB_CDC = 0` the agents are not present, and the model refuses them (log 10). -/
def Obligations.SyncStepsCopyOneIndex : Prop :=
  ∀ s, (s.cfg.rbCdc = true →
      ∃ t u, perform .syncP s = .next t ∧ t = { s with rb := { s.rb with rdSyncP := s.rb.rd } } ∧ viewRdP t = s.rb.rd
        ∧ perform .syncC s = .next u ∧ u = { s with rb := { s.rb with wrSyncC := s.rb.wr } } ∧ viewWrC u = s.rb.wr)
    ∧ (s.cfg.rbCdc = false → (∃ r, perform .syncP s = .refused r) ∧ ∃ r, perform .syncC s = .refused r)

/-! ## Reset and invariants -/

/-- The reset event (R390) from any state: every status, result and operand register 0, every unit idle, every variable and
controller field 0, every line LOW; the parameters stay. -/
def Obligations.ResetEventClearsTheBlock : Prop :=
  ∀ s, ∃ t, perform .reset s = .next t ∧ t.cfg = s.cfg
    ∧ (∀ x, (t.port x).status = 0 ∧ (t.port x).res = 0) ∧ (∀ k : Fin 6, t.args[k] = 0) ∧ t.iarg = 0
    ∧ t.ps.armed = false ∧ t.ps.n = 0 ∧ t.ps.slot = 0 ∧ t.ps.cur = 0 ∧ t.ps.phase = .waitingLow ∧ t.ps.cnt = 0
    ∧ t.ps.deadline = 0 ∧ t.ps.pre = 0 ∧ (∀ i, dutyAt t.ps i = 0) ∧ (∀ i, pwmOut t i = false)
    ∧ t.vars.length = s.cfg.varCount ∧ (∀ i, varAt t i = 0)
    ∧ t.cl.run = false ∧ t.cl.n = 0 ∧ t.cl.cnt = 0 ∧ t.cl.ovf = 0 ∧ t.cl.table.length = s.cfg.clNmax
    ∧ (∀ k, ctlAt t.cl k = ⟨false, 0, 0, 0, 0, 0, 0, 0, 0, 0, 0, 0⟩)
    ∧ t.rb.ready = false ∧ t.rb.len = 0 ∧ t.rb.wr = 0 ∧ t.rb.rd = 0 ∧ t.rb.rdSyncP = 0 ∧ t.rb.wrSyncC = 0

/-- The state after reset is idle (R391): `CLK` steps change nothing, and every command that needs an initialised unit answers
`NOT_INIT`, or `ILLEGAL` where R342 puts that first. -/
def Obligations.BlockIsIdleAfterReset : Prop :=
  ∀ c k, performAll (List.replicate k .clk) (State.resetOf c) = .next (State.resetOf c)
    ∧ (∀ i, i ∈ [Instr.psSetAll, .clIterate, .rbIsEmpty .p, .rbIsEmpty .c, .rbIsFull .p, .rbIsFull .c,
          .rbPushAvailable .p, .rbPushAvailable .c, .rbPopAvailable .p, .rbPopAvailable .c, .rbPop, .rbPeek] →
        exec i (State.resetOf c) = .next (reported (State.resetOf c) i.port 4 0))
    ∧ (∀ a, exec (.psSetChannel a) (State.resetOf c) = .next (reported (State.resetOf c) .h 4 0)
        ∧ exec (.psSetChannels a) (State.resetOf c) = .next (reported (State.resetOf c) .h 4 0)
        ∧ exec (.rbPush a) (State.resetOf c) = .next (reported (State.resetOf c) .p 4 0)
        ∧ exec (.rbPushOverwrite a) (State.resetOf c)
            = .next (reported (State.resetOf c) .p (if c.rbCdc then 6 else 4) 0))

/-- The state after reset meets the invariant of the block, for every record of parameters (R390). -/
def Obligations.ResetMeetsTheInvariant : Prop := ∀ c, c.wellFormed = true → StateInv (State.resetOf c)

/-- Every step keeps the invariant of the block: the engine invariant with at most one line HIGH (R229), the ring buffer's
(R182), the control loop's (R43 to R46), the bounds of R40, R47 and R48, and the canonical form of the storage; and no
step changes the parameters (R53). The queue, the free step and the storage's form are the model's choices (logs 1, 2, 5). -/
def Obligations.EveryStepKeepsTheInvariant : Prop :=
  ∀ s t, StateInv s → step s = .next t → StateInv t ∧ t.cfg = s.cfg

/-- No step of a state that meets the invariant faults: no condition of the block stops a unit (R341; the fault
is the model's choice, log 6). -/
def Obligations.NoStepFaults : Prop := ∀ s r, StateInv s → step s ≠ .fault r

/-! ## Binary64 -/

/-- Every NaN that an operation produces is the canonical quiet NaN, and an operation produces one exactly when an operand is
a NaN, or for an infinity less itself, a zero times an infinity, a zero by a zero and an infinity by an infinity (R25;
IEEE 754's definitions as log 15 presumes them). -/
def Obligations.NanResultsAreCanonical : Prop :=
  ∀ a b,
    (∀ r, r ∈ [add64 a b, sub64 a b, mul64 a b, div64 a b] → isNaN r = true → r = 0x7FF8000000000000)
    ∧ (isNaN (add64 a b) = true
        ↔ isNaN a = true ∨ isNaN b = true ∨ (isInf a = true ∧ isInf b = true ∧ signBit a ≠ signBit b))
    ∧ (isNaN (sub64 a b) = true
        ↔ isNaN a = true ∨ isNaN b = true ∨ (isInf a = true ∧ isInf b = true ∧ signBit a = signBit b))
    ∧ (isNaN (mul64 a b) = true
        ↔ isNaN a = true ∨ isNaN b = true ∨ (isInf a = true ∧ isFinite b = true ∧ scaled b = 0)
          ∨ (isFinite a = true ∧ scaled a = 0 ∧ isInf b = true))
    ∧ (isNaN (div64 a b) = true
        ↔ isNaN a = true ∨ isNaN b = true ∨ (isInf a = true ∧ isInf b = true)
          ∨ (isFinite a = true ∧ scaled a = 0 ∧ isFinite b = true ∧ scaled b = 0))

/-- `add64` and `sub64` round to nearest, ties to even (R25). For finite operands, with the exact sum or difference `x` in
units of `2^-1074`: the result is finite exactly when `|x| < 2^1024 - 2^970`, and an infinity of the sign of `x` otherwise;
no finite value is nearer to `x` than a finite result, and when another one is as near, the result's last bit is 0; an exact
zero is `-0.0` only as the sum of two negative zeros. An infinite operand gives itself, or its negation where it is
subtracted, unless the result is a NaN. IEEE 754's definitions are those that log 15 presumes. -/
def Obligations.AdditionRoundsToNearestEven : Prop :=
  (∀ a b r x, isFinite a = true → isFinite b = true →
    ((r = add64 a b ∧ x = scaled a + scaled b) ∨ (r = sub64 a b ∧ x = scaled a - scaled b)) →
    (isFinite r = true ↔ |x| < (2 ^ 1024 - 2 ^ 970) * 2 ^ 1074)
    ∧ (isFinite r = false → r = if x < 0 then 0xFFF0000000000000 else 0x7FF0000000000000)
    ∧ (isFinite r = true → ∀ c, isFinite c = true →
        |scaled r - x| ≤ |scaled c - x|
          ∧ (|scaled r - x| = |scaled c - x| → scaled c ≠ scaled r → r.getLsbD 0 = false)))
  ∧ (∀ a b, isFinite a = true → isFinite b = true →
      (scaled a + scaled b = 0 → add64 a b = if signBit a ∧ signBit b then 0x8000000000000000 else 0)
      ∧ (scaled a - scaled b = 0 → sub64 a b = if signBit a ∧ ¬ signBit b then 0x8000000000000000 else 0))
  ∧ ∀ a b,
      (isNaN (add64 a b) = false →
        (isInf a = true → add64 a b = a) ∧ (isInf b = true → add64 a b = b))
      ∧ (isNaN (sub64 a b) = false →
        (isInf a = true → sub64 a b = a) ∧ (isInf b = true → sub64 a b = neg64 b))

/-- `mul64` rounds to nearest, ties to even (R25). For finite operands, the exact product taken in units of `2^-2148`: the
result is finite exactly when the product's magnitude is below `2^1024 - 2^970`, and an infinity otherwise; no finite value
is nearer than a finite result, and when another one is as near, the result's last bit is 0. Every result that is no NaN
has the sign that the operands' signs give, and it is an infinity when an operand is. IEEE 754's definitions are those that
log 15 presumes. -/
def Obligations.MultiplicationRoundsToNearestEven : Prop :=
  (∀ a b, isFinite a = true → isFinite b = true →
    (isFinite (mul64 a b) = true ↔ |scaled a * scaled b| < (2 ^ 1024 - 2 ^ 970) * 2 ^ 2148)
    ∧ (isFinite (mul64 a b) = false → isInf (mul64 a b) = true)
    ∧ (isFinite (mul64 a b) = true → ∀ c, isFinite c = true →
        |scaled (mul64 a b) * 2 ^ 1074 - scaled a * scaled b| ≤ |scaled c * 2 ^ 1074 - scaled a * scaled b|
          ∧ (|scaled (mul64 a b) * 2 ^ 1074 - scaled a * scaled b| = |scaled c * 2 ^ 1074 - scaled a * scaled b| →
              scaled c ≠ scaled (mul64 a b) → (mul64 a b).getLsbD 0 = false)))
  ∧ ∀ a b, isNaN (mul64 a b) = false →
      signBit (mul64 a b) = (signBit a != signBit b)
        ∧ (isInf a = true ∨ isInf b = true → isInf (mul64 a b) = true)

/-- `div64` rounds to nearest, ties to even (R25). For finite operands and a divisor that is not zero, the exact quotient
multiplied out by the divisor: the result is finite exactly when the quotient's magnitude is below `2^1024 - 2^970`, and an
infinity otherwise; no finite value is nearer than a finite result, and when another one is as near, the result's last bit
is 0. Every result that is no NaN has the sign that the operands' signs give; it is an infinity when the dividend is one or
the divisor is a zero, and a zero when the divisor is an infinity. IEEE 754's definitions are those that log 15 presumes. -/
def Obligations.DivisionRoundsToNearestEven : Prop :=
  (∀ a b, isFinite a = true → isFinite b = true → scaled b ≠ 0 →
    (isFinite (div64 a b) = true ↔ |scaled a| < (2 ^ 1024 - 2 ^ 970) * |scaled b|)
    ∧ (isFinite (div64 a b) = false → isInf (div64 a b) = true)
    ∧ (isFinite (div64 a b) = true → ∀ c, isFinite c = true →
        |scaled (div64 a b) * scaled b - scaled a * 2 ^ 1074| ≤ |scaled c * scaled b - scaled a * 2 ^ 1074|
          ∧ (|scaled (div64 a b) * scaled b - scaled a * 2 ^ 1074| = |scaled c * scaled b - scaled a * 2 ^ 1074| →
              scaled c ≠ scaled (div64 a b) → (div64 a b).getLsbD 0 = false)))
  ∧ ∀ a b, isNaN (div64 a b) = false →
      signBit (div64 a b) = (signBit a != signBit b)
        ∧ (isInf a = true ∨ (isFinite b = true ∧ scaled b = 0) → isInf (div64 a b) = true)
        ∧ (isInf b = true → isFinite (div64 a b) = true ∧ scaled (div64 a b) = 0)

/-- The comparisons order finite values by their value, put `+inf` above and `-inf` below every other value, call no infinity
above or below itself, and are false on a NaN; `to64` is exact below `2^53`, with the positive sign (R25).
The layout and the order are IEEE 754's, as log 15 presumes them. -/
def Obligations.ComparisonsAndConversionAreExact : Prop :=
  (∀ a b, isFinite a = true → isFinite b = true →
      (gt64 a b = true ↔ scaled b < scaled a) ∧ (lt64 a b = true ↔ scaled a < scaled b))
    ∧ (∀ a b, isNaN a = false → isNaN b = false → isInf a = true ∨ isInf b = true →
      (gt64 a b = true
        ↔ (a = 0x7FF0000000000000 ∧ b ≠ 0x7FF0000000000000) ∨ (b = 0xFFF0000000000000 ∧ a ≠ 0xFFF0000000000000))
      ∧ (lt64 a b = true
        ↔ (a = 0xFFF0000000000000 ∧ b ≠ 0xFFF0000000000000) ∨ (b = 0x7FF0000000000000 ∧ a ≠ 0x7FF0000000000000)))
    ∧ (∀ a b, isNaN a = true ∨ isNaN b = true → gt64 a b = false ∧ lt64 a b = false)
    ∧ ∀ k, k < 2 ^ 53 → isFinite (to64 k) = true ∧ signBit (to64 k) = false ∧ scaled (to64 k) = k * 2 ^ 1074
end

