-- ==== Sys2Proof/Laws/State.lean ====
section
/-!
SUPPORT. One lemma per field per update of the state, each true by computation, so that no later proof unfolds an update.
-/

namespace Sys2Proof.Laws

open Sys2Proof.Machine
open Sys2Proof.Config (Params)

/-! ## Replacing a port's registers -/

section
variable (s : State) (x y : Port) (r : PortRegs)

@[simp] theorem setPort_cfg : (s.setPort x r).cfg = s.cfg := by cases x <;> rfl
@[simp] theorem setPort_args : (s.setPort x r).args = s.args := by cases x <;> rfl
@[simp] theorem setPort_iarg : (s.setPort x r).iarg = s.iarg := by cases x <;> rfl
@[simp] theorem setPort_ps : (s.setPort x r).ps = s.ps := by cases x <;> rfl
@[simp] theorem setPort_vars : (s.setPort x r).vars = s.vars := by cases x <;> rfl
@[simp] theorem setPort_cl : (s.setPort x r).cl = s.cl := by cases x <;> rfl
@[simp] theorem setPort_rb : (s.setPort x r).rb = s.rb := by cases x <;> rfl
@[simp] theorem setPort_pending : (s.setPort x r).pending = s.pending := by cases x <;> rfl
@[simp] theorem setPort_turn : (s.setPort x r).turn = s.turn := by cases x <;> rfl
@[simp] theorem setPort_resets : (s.setPort x r).resets = s.resets := by cases x <;> rfl
@[simp] theorem setPort_port_self : (s.setPort x r).port x = r := by cases x <;> rfl

theorem setPort_port_other (h : y ≠ x) : (s.setPort x r).port y = s.port y := by
  cases x <;> cases y <;> first | rfl | exact absurd rfl h

@[simp] theorem setPort_same : s.setPort x (s.port x) = s := by cases x <;> rfl

@[simp] theorem setPort_setPort (r' : PortRegs) : (s.setPort x r).setPort x r' = s.setPort x r' := by cases x <;> rfl

end

@[simp] theorem port_h (s : State) : s.port .h = s.portH := rfl
@[simp] theorem port_p (s : State) : s.port .p = s.portP := rfl
@[simp] theorem port_c (s : State) : s.port .c = s.portC := rfl

/-! ## The end of a command -/

section
variable (s : State) (x y : Port) (c : StatusCode) (v : Word)

@[simp] theorem complete_cfg : (complete x c v s).cfg = s.cfg := setPort_cfg ..
@[simp] theorem complete_args : (complete x c v s).args = s.args := setPort_args ..
@[simp] theorem complete_iarg : (complete x c v s).iarg = s.iarg := setPort_iarg ..
@[simp] theorem complete_ps : (complete x c v s).ps = s.ps := setPort_ps ..
@[simp] theorem complete_vars : (complete x c v s).vars = s.vars := setPort_vars ..
@[simp] theorem complete_cl : (complete x c v s).cl = s.cl := setPort_cl ..
@[simp] theorem complete_rb : (complete x c v s).rb = s.rb := setPort_rb ..
@[simp] theorem complete_pending : (complete x c v s).pending = s.pending := setPort_pending ..
@[simp] theorem complete_turn : (complete x c v s).turn = s.turn := setPort_turn ..
@[simp] theorem complete_resets : (complete x c v s).resets = s.resets := setPort_resets ..

@[simp] theorem complete_status : ((complete x c v s).port x).status = statusWord c := by cases x <;> rfl
@[simp] theorem complete_res : ((complete x c v s).port x).res = v := by cases x <;> rfl
@[simp] theorem complete_rdata : ((complete x c v s).port x).rdata = (s.port x).rdata := by cases x <;> rfl

theorem complete_port_other (h : y ≠ x) : (complete x c v s).port y = s.port y := setPort_port_other _ _ _ _ h

end

/-! ## The pulse engine's updates -/

section
variable (c : Params) (u : Pulse)

@[simp] theorem psService_armed : (psService c u).armed = u.armed := by unfold psService; split <;> rfl
@[simp] theorem psService_n : (psService c u).n = u.n := by unfold psService; split <;> rfl
@[simp] theorem psService_slot : (psService c u).slot = u.slot := by unfold psService; split <;> rfl
@[simp] theorem psService_duty : (psService c u).duty = u.duty := by unfold psService; split <;> rfl
@[simp] theorem psService_pre : (psService c u).pre = u.pre := by unfold psService; split <;> rfl
@[simp] theorem psService_cnt : (psService c u).cnt = 0 := by unfold psService; split <;> rfl

@[simp] theorem psSettleOnce_armed : (psSettleOnce c u).armed = u.armed := by unfold psSettleOnce; split <;> simp
@[simp] theorem psSettleOnce_n : (psSettleOnce c u).n = u.n := by unfold psSettleOnce; split <;> simp
@[simp] theorem psSettleOnce_slot : (psSettleOnce c u).slot = u.slot := by unfold psSettleOnce; split <;> simp
@[simp] theorem psSettleOnce_duty : (psSettleOnce c u).duty = u.duty := by unfold psSettleOnce; split <;> simp
@[simp] theorem psSettleOnce_pre : (psSettleOnce c u).pre = u.pre := by unfold psSettleOnce; split <;> simp

@[simp] theorem psSettle_armed : (psSettle c u).armed = u.armed := by simp [psSettle]
@[simp] theorem psSettle_n : (psSettle c u).n = u.n := by simp [psSettle]
@[simp] theorem psSettle_slot : (psSettle c u).slot = u.slot := by simp [psSettle]
@[simp] theorem psSettle_duty : (psSettle c u).duty = u.duty := by simp [psSettle]
@[simp] theorem psSettle_pre : (psSettle c u).pre = u.pre := by simp [psSettle]

@[simp] theorem psTick_armed : (psTick c u).armed = u.armed := by unfold psTick; dsimp only; split <;> simp
@[simp] theorem psTick_n : (psTick c u).n = u.n := by unfold psTick; dsimp only; split <;> simp
@[simp] theorem psTick_slot : (psTick c u).slot = u.slot := by unfold psTick; dsimp only; split <;> simp
@[simp] theorem psTick_duty : (psTick c u).duty = u.duty := by unfold psTick; dsimp only; split <;> simp
@[simp] theorem psTick_pre : (psTick c u).pre = u.pre := by unfold psTick; dsimp only; split <;> simp

variable (i d : Nat)

@[simp] theorem setDuty_out : (setDuty c u i d).out = u.out := rfl
@[simp] theorem setDuty_armed : (setDuty c u i d).armed = u.armed := rfl
@[simp] theorem setDuty_n : (setDuty c u i d).n = u.n := rfl
@[simp] theorem setDuty_slot : (setDuty c u i d).slot = u.slot := rfl
@[simp] theorem setDuty_cur : (setDuty c u i d).cur = u.cur := rfl
@[simp] theorem setDuty_phase : (setDuty c u i d).phase = u.phase := rfl
@[simp] theorem setDuty_cnt : (setDuty c u i d).cnt = u.cnt := rfl
@[simp] theorem setDuty_deadline : (setDuty c u i d).deadline = u.deadline := rfl
@[simp] theorem setDuty_pre : (setDuty c u i d).pre = u.pre := rfl

end

/-! ## The control loop's updates -/

section
variable (dt : F64) (s : State) (k : Nat)

@[simp] theorem pidStep_cfg : (pidStep dt s k).cfg = s.cfg := rfl
@[simp] theorem pidStep_portH : (pidStep dt s k).portH = s.portH := rfl
@[simp] theorem pidStep_portP : (pidStep dt s k).portP = s.portP := rfl
@[simp] theorem pidStep_portC : (pidStep dt s k).portC = s.portC := rfl
@[simp] theorem pidStep_args : (pidStep dt s k).args = s.args := rfl
@[simp] theorem pidStep_iarg : (pidStep dt s k).iarg = s.iarg := rfl
@[simp] theorem pidStep_ps : (pidStep dt s k).ps = s.ps := rfl
@[simp] theorem pidStep_rb : (pidStep dt s k).rb = s.rb := rfl
@[simp] theorem pidStep_pending : (pidStep dt s k).pending = s.pending := rfl
@[simp] theorem pidStep_turn : (pidStep dt s k).turn = s.turn := rfl
@[simp] theorem pidStep_resets : (pidStep dt s k).resets = s.resets := rfl
@[simp] theorem pidStep_cl_run : (pidStep dt s k).cl.run = s.cl.run := rfl
@[simp] theorem pidStep_cl_n : (pidStep dt s k).cl.n = s.cl.n := rfl
@[simp] theorem pidStep_cl_cnt : (pidStep dt s k).cl.cnt = s.cl.cnt := rfl
@[simp] theorem pidStep_cl_ovf : (pidStep dt s k).cl.ovf = s.cl.ovf := rfl

@[simp] theorem clClk_run (c : Params) (u : Loop) : (clClk c u).run = u.run := by
  unfold clClk; split
  · split <;> rfl
  · rfl

@[simp] theorem clClk_n (c : Params) (u : Loop) : (clClk c u).n = u.n := by
  unfold clClk; split
  · split <;> rfl
  · rfl

@[simp] theorem clClk_table (c : Params) (u : Loop) : (clClk c u).table = u.table := by
  unfold clClk; split
  · split <;> rfl
  · rfl

end

/-! ## The ring buffer's updates -/

section
variable (a : Byte) (u : Ring)

@[simp] theorem ringStore_ready : (ringStore a u).ready = u.ready := rfl
@[simp] theorem ringStore_len : (ringStore a u).len = u.len := rfl
@[simp] theorem ringStore_wr : (ringStore a u).wr = ringNext u.len u.wr := rfl
@[simp] theorem ringStore_rd : (ringStore a u).rd = u.rd := rfl
@[simp] theorem ringStore_mem : (ringStore a u).mem = Memory.write u.mem u.wr.toNat a := rfl
@[simp] theorem ringStore_rdSyncP : (ringStore a u).rdSyncP = u.rdSyncP := rfl
@[simp] theorem ringStore_wrSyncC : (ringStore a u).wrSyncC = u.wrSyncC := rfl

end

/-! ## The clock step and the reset event -/

section
variable (s : State)

@[simp] theorem clkStep_cfg : (clkStep s).cfg = s.cfg := rfl
@[simp] theorem clkStep_portH : (clkStep s).portH = s.portH := rfl
@[simp] theorem clkStep_portP : (clkStep s).portP = s.portP := rfl
@[simp] theorem clkStep_portC : (clkStep s).portC = s.portC := rfl
@[simp] theorem clkStep_args : (clkStep s).args = s.args := rfl
@[simp] theorem clkStep_iarg : (clkStep s).iarg = s.iarg := rfl
@[simp] theorem clkStep_ps : (clkStep s).ps = psClk s.cfg s.ps := rfl
@[simp] theorem clkStep_vars : (clkStep s).vars = s.vars := rfl
@[simp] theorem clkStep_cl : (clkStep s).cl = clClk s.cfg s.cl := rfl
@[simp] theorem clkStep_rb : (clkStep s).rb = s.rb := rfl
@[simp] theorem clkStep_pending : (clkStep s).pending = s.pending := rfl
@[simp] theorem clkStep_turn : (clkStep s).turn = s.turn := rfl
@[simp] theorem clkStep_resets : (clkStep s).resets = s.resets := rfl

@[simp] theorem platformReset_cfg : (platformReset s).cfg = s.cfg := rfl
@[simp] theorem platformReset_args : (platformReset s).args = Vector.replicate 6 0 := rfl
@[simp] theorem platformReset_iarg : (platformReset s).iarg = 0 := rfl
@[simp] theorem platformReset_ps : (platformReset s).ps = Pulse.reset s.cfg := rfl
@[simp] theorem platformReset_vars : (platformReset s).vars = List.replicate s.cfg.varCount 0 := rfl
@[simp] theorem platformReset_cl : (platformReset s).cl = Loop.reset s.cfg := rfl
@[simp] theorem platformReset_rb : (platformReset s).rb = Ring.reset := rfl
@[simp] theorem platformReset_pending : (platformReset s).pending = s.pending := rfl
@[simp] theorem platformReset_turn : (platformReset s).turn = s.turn := rfl
@[simp] theorem platformReset_resets : (platformReset s).resets = s.resets + 1 := rfl

end

end Sys2Proof.Laws
end

