-- ==== Sys2Proof/Laws/Bus.lean ====
section
/-!
SUPPORT. The windows and the bus accesses: which port an address belongs to, what an access can do, and what a command
write does.
-/

namespace Sys2Proof.Laws

open Sys2Proof.Machine Sys2Proof.Safety
open Sys2Proof.Config (Params)

/-- The bounds of R10, R14 and R15 that the register maps need. -/
theorem wellFormed_bounds {c : Params} (h : c.wellFormed = true) : c.psNmax ≤ 32 ∧ c.clNmax ≤ 32 ∧ c.varCount ≤ 256 := by
  simp only [Params.wellFormed, Params.psOk, Params.clOk, Bool.and_eq_true, decide_eq_true_eq] at h
  omega

theorem baseOf_aligned {c : Params} (h : c.wellFormed = true) (x : Port) : baseOf c x % 4 = 0 := by
  simp only [Params.wellFormed, Params.basesOk, Bool.and_eq_true, beq_iff_eq] at h
  cases x <;> simp only [baseOf] <;> omega

/-- The windows are disjoint, so an address inside one belongs to its port (R18). -/
theorem portAt_of_mem {c : Params} (h : c.wellFormed = true) {x : Port} {a : Nat} (h1 : baseOf c x ≤ a)
    (h2 : a < baseOf c x + windowSize x) : portAt c a = some x := by
  simp only [Params.wellFormed, Params.basesOk, Config.disjointWindows, Bool.and_eq_true, Bool.or_eq_true,
    decide_eq_true_eq] at h
  have hin : inWindow c x a = true := by simp [inWindow, h1, h2]
  have hout : ∀ y, y ≠ x → inWindow c y a = false := by
    intro y hy
    rw [Bool.eq_false_iff]
    simp only [inWindow, ne_eq, Bool.and_eq_true, decide_eq_true_eq]
    cases x <;> cases y <;> simp_all [baseOf, windowSize, Config.windowH, Config.windowPC] <;> omega
  unfold portAt
  cases x
  · simp [hin]
  · simp [hin, hout .h (by decide)]
  · simp [hin, hout .h (by decide), hout .p (by decide)]

/-- An address of no window belongs to no port. -/
theorem portAt_none {c : Params} {a : Nat} (h : ∀ x, ¬ (baseOf c x ≤ a ∧ a < baseOf c x + windowSize x)) :
    portAt c a = none := by
  simp only [portAt, List.find?_eq_none, inWindow, Bool.and_eq_true, decide_eq_true_eq]
  exact fun x _ => h x

/-- A register that exists stands at an aligned offset inside its window. -/
theorem offsetOf_inside {c : Params} (h : c.wellFormed = true) {x : Port} {r : Register}
    (hr : registerExists c x r = true) : offsetOf r % 4 = 0 ∧ offsetOf r < windowSize x := by
  have hb := wellFormed_bounds h
  cases x <;> cases r <;> simp [registerExists, Port.isRing] at hr <;>
    simp [offsetOf, windowSize, Config.windowH, Config.windowPC] <;> omega

@[simp] theorem registerAt_cmd (c : Params) (x : Port) : registerAt c x 0 = some .cmd := by cases x <;> rfl

/-- A proper access of the port's master acts at the offset in its port's window (R84). -/
theorem busAccess_proper {a : Access} {s : State} {x : Port} (h : s.cfg.wellFormed = true) (hs : a.size = .word)
    (h4 : a.addr % 4 = 0) (h1 : baseOf s.cfg x ≤ a.addr) (h2 : a.addr < baseOf s.cfg x + windowSize x)
    (hm : masterOf s.cfg x = a.master) :
    busAccess a s = match a.op with
      | .read => .next (s.setPort x { s.port x with rdata := busRead s x (a.addr - baseOf s.cfg x) })
      | .write v => busWrite x (a.addr - baseOf s.cfg x) v s := by
  cases ho : a.op <;>
    simp only [busAccess, hs, h4, portAt_of_mem h h1 h2, hm, ne_eq, not_true_eq_false, if_false, ho]

/-- An access that answers a next state was proper, and it read or wrote (R84, R89). -/
theorem busAccess_next {a : Access} {s t : State} (h : busAccess a s = .next t) :
    a.size = .word ∧ a.addr % 4 = 0
      ∧ ∃ x, portAt s.cfg a.addr = some x ∧ masterOf s.cfg x = a.master
        ∧ ((a.op = .read ∧ t = s.setPort x { s.port x with rdata := busRead s x (a.addr - baseOf s.cfg x) })
          ∨ ∃ v, a.op = .write v ∧ busWrite x (a.addr - baseOf s.cfg x) v s = .next t) := by
  unfold busAccess at h
  split at h
  · cases h
  · rename_i hs
    split at h
    · cases h
    · rename_i h4
      split at h
      · cases h
      · rename_i x hx
        split at h
        · cases h
        · rename_i hm
          refine ⟨not_not.mp hs, not_not.mp h4, x, hx, not_not.mp hm, ?_⟩
          split at h
          · rename_i ho
            exact .inl ⟨ho, (Host.Outcome.next.inj h).symm⟩
          · rename_i v ho
            exact .inr ⟨v, ho, h⟩

/-- A bus write runs a command, stores into a register, or does nothing (R84, R87). -/
theorem busWrite_cases (x : Port) (off : Nat) (v : Word) (s : State) :
    (registerAt s.cfg x off = some .cmd ∧ busWrite x off v s = runCommand x v s)
    ∨ (∃ r, r ≠ .cmd ∧ registerAt s.cfg x off = some r ∧ busWrite x off v s = .next (writeRegister v s r))
    ∨ (registerAt s.cfg x off = none ∧ busWrite x off v s = .next s) := by
  unfold busWrite
  cases hr : registerAt s.cfg x off with
  | none => exact .inr (.inr ⟨rfl, rfl⟩)
  | some r =>
    by_cases hc : r = .cmd
    · subst hc
      exact .inl ⟨rfl, rfl⟩
    · refine .inr (.inl ⟨r, hc, rfl, ?_⟩)
      cases r <;> first | rfl | exact absurd rfl hc

/-- A command word runs its command, or fails as `ILLEGAL` (R151, R152). -/
theorem runCommand_cases (x : Port) (w : Word) (s : State) :
    (∃ i, decode x w = .ok i ∧ runCommand x w s = exec i s)
    ∨ ∃ e, decode x w = .error e ∧ runCommand x w s = .next (complete x .illegal 0 s) := by
  unfold runCommand
  cases hd : decode x w with
  | ok i => exact .inl ⟨i, rfl, rfl⟩
  | error e => exact .inr ⟨e, rfl, rfl⟩

/-- The write of a command word runs it (R150). -/
theorem busAccess_cmdWrite {s : State} (h : s.cfg.wellFormed = true) (x : Port) (w : Word) :
    busAccess (cmdWrite s.cfg x w) s = runCommand x w s := by
  have hb := baseOf_aligned h x
  have hw : 0 < windowSize x := by cases x <;> decide
  rw [busAccess_proper (x := x) h rfl (by simpa [cmdWrite, registerAccess, offsetOf] using hb)
    (by simp [cmdWrite, registerAccess]) (by simpa [cmdWrite, registerAccess, offsetOf] using hw) rfl]
  simp [cmdWrite, registerAccess, offsetOf, busWrite]

/-- A write of a register leaves all but the operand registers and the variable file (R82, R83). -/
theorem writeRegister_frame (v : Word) (s : State) (r : Register) :
    writeRegister v s r
      = { s with
          args := (writeRegister v s r).args
          iarg := (writeRegister v s r).iarg
          vars := (writeRegister v s r).vars } := by
  cases r <;> rfl

theorem writeRegister_vars_length (v : Word) (s : State) (r : Register) :
    (writeRegister v s r).vars.length = s.vars.length := by
  cases r <;> simp [writeRegister]

end Sys2Proof.Laws
end

