-- ==== Sys2Proof/Laws/Memory.lean ====
section
/-!
SUPPORT. The laws of the ring buffer's storage: a read after a write, the canonical form, and the addresses that are
listed.
-/

namespace Sys2Proof.Laws

open Sys2Proof.Machine

theorem memory_read_write_same (m : List Host.Cell) (j : Nat) (v : Byte) :
    Memory.read (Memory.write m j v) j = some v := by
  induction m with
  | nil => simp [Memory.write, Memory.read]
  | cons cell m ih =>
    obtain ⟨a, b⟩ := cell
    simp only [Memory.write]
    split
    · simp [Memory.read]
    · split
      · simp [Memory.read]
      · rename_i h
        simp [Memory.read, Ne.symm h, ih]

theorem memory_read_write_other (m : List Host.Cell) (j k : Nat) (v : Byte) (h : k ≠ j) :
    Memory.read (Memory.write m j v) k = Memory.read m k := by
  induction m with
  | nil => simp [Memory.write, Memory.read, Ne.symm h]
  | cons cell m ih =>
    obtain ⟨a, b⟩ := cell
    simp only [Memory.write]
    split
    · simp [Memory.read, Ne.symm h]
    · split
      · rename_i e
        subst e
        simp [Memory.read, Ne.symm h]
      · simp [Memory.read, ih]

theorem memory_risingFrom_write (m : List Host.Cell) (k j : Nat) (v : Byte) (hk : k ≤ j)
    (h : Memory.risingFrom k m = true) : Memory.risingFrom k (Memory.write m j v) = true := by
  induction m generalizing k with
  | nil => simp [Memory.write, Memory.risingFrom, hk]
  | cons cell m ih =>
    obtain ⟨a, b⟩ := cell
    simp only [Memory.risingFrom, Bool.and_eq_true, decide_eq_true_eq] at h
    simp only [Memory.write]
    split
    · simp only [Memory.risingFrom, Bool.and_eq_true, decide_eq_true_eq]
      exact ⟨hk, by omega, h.2⟩
    · split
      · rename_i e
        subst e
        simpa [Memory.risingFrom, hk] using h.2
      · simp only [Memory.risingFrom, Bool.and_eq_true, decide_eq_true_eq]
        exact ⟨h.1, ih (a + 1) (by omega) h.2⟩

/-- A write keeps the canonical form. -/
theorem memory_wf_write (m : List Host.Cell) (j : Nat) (v : Byte) (h : Memory.wf m = true) :
    Memory.wf (Memory.write m j v) = true :=
  memory_risingFrom_write m 0 j v (Nat.zero_le j) h

/-- A write lists no address but its own and those listed before. -/
theorem mem_of_mem_memory_write (m : List Host.Cell) (j : Nat) (v : Byte) (cell : Host.Cell)
    (h : cell ∈ Memory.write m j v) : cell = (j, v) ∨ cell ∈ m := by
  induction m with
  | nil => simpa [Memory.write] using h
  | cons head m ih =>
    obtain ⟨a, b⟩ := head
    simp only [Memory.write] at h
    split at h
    · simpa using h
    · split at h
      · simp only [List.mem_cons] at h ⊢
        tauto
      · simp only [List.mem_cons] at h ⊢
        rcases h with h | h
        · exact .inr (.inl h)
        · exact (ih h).imp_right .inr

/-- The storage after reset is in canonical form: nothing is listed. -/
theorem memory_wf_reset : Memory.wf State.reset.rb.mem = true := rfl

/-- Nothing is listed below the first address that the canonical form allows. -/
theorem memory_read_none_below (m : List Host.Cell) (k j : Nat) (h : Memory.risingFrom k m = true) (hj : j < k) :
    Memory.read m j = none := by
  induction m generalizing k with
  | nil => rfl
  | cons cell m ih =>
    obtain ⟨a, b⟩ := cell
    simp only [Memory.risingFrom, Bool.and_eq_true, decide_eq_true_eq] at h
    have ha : a ≠ j := by omega
    simp only [Memory.read, ha, if_false]
    exact ih (a + 1) h.2 (by omega)

end Sys2Proof.Laws
end

