-- ==== Sys2Proof/Laws/Ops.lean ====
section
/-!
SUPPORT. What the shared operations can do, said once for each: the end of a command, the storage, the ring buffer's
pairs and queries, the parametric stores, and the lines.
-/

namespace Sys2Proof.Laws

open Sys2Proof.Machine
open Sys2Proof.Config (Params)

/-! ## The end of a command -/

theorem succeed_next {x : Port} {v : Word} {s t : State} (h : succeed x v s = .next t) : t = complete x .ok v s := by
  simpa [succeed] using h.symm

theorem fail_next {x : Port} {c : StatusCode} {s t : State} (h : fail x c s = .next t) : t = complete x c 0 s := by
  simpa [fail] using h.symm

@[simp] theorem succeed_eq_next (x : Port) (v : Word) (s : State) : succeed x v s = .next (complete x .ok v s) := rfl

@[simp] theorem fail_eq_next (x : Port) (c : StatusCode) (s : State) : fail x c s = .next (complete x c 0 s) := rfl

/-! ## The storage -/

/-- An access to the storage that answers a next state found its byte inside `RB_SIZE`. -/
theorem withStorage_next {s t : State} {j : Nat} {k : Answer} (h : withStorage s j k = .next t) :
    j < s.cfg.rbSize ∧ k = .next t := by
  unfold withStorage at h
  split at h
  · exact ⟨‹_›, h⟩
  · cases h

@[simp] theorem withStorage_inside {s : State} {j : Nat} (k : Answer) (h : j < s.cfg.rbSize) :
    withStorage s j k = k := by
  simp [withStorage, h]

/-! ## The ring buffer -/

@[simp] theorem ringPair_h (s : State) : ringPair s .h = none := rfl
@[simp] theorem ringPair_p (s : State) : ringPair s .p = some (s.rb.wr, viewRdP s) := rfl
@[simp] theorem ringPair_c (s : State) : ringPair s .c = some (viewWrC s, s.rb.rd) := rfl

/-- A query answers in one of three ways, and never anything but a next state. -/
theorem ringQuery_cases (x : Port) (f : Nat → Nat → Nat → Word) (s : State) :
    (ringPair s x = none ∧ ringQuery x f s = .next (complete x .illegal 0 s))
    ∨ ∃ w r, ringPair s x = some (w, r)
        ∧ ((s.rb.ready = false ∧ ringQuery x f s = .next (complete x .notInit 0 s))
          ∨ (s.rb.ready = true
            ∧ ringQuery x f s = .next (complete x .ok (f s.rb.len.toNat w.toNat r.toNat) s))) := by
  unfold ringQuery
  cases hp : ringPair s x with
  | none => exact .inl ⟨rfl, rfl⟩
  | some p =>
    refine .inr ⟨p.1, p.2, rfl, ?_⟩
    cases s.rb.ready <;> simp

theorem ringNext_toNat (len i : Half) (h : 1 ≤ len.toNat) : (ringNext len i).toNat = (i.toNat + 1) % len.toNat := by
  have h1 := Nat.mod_lt (i.toNat + 1) (show 0 < len.toNat by omega)
  have h2 := len.isLt
  simp only [ringNext, BitVec.toNat_ofNat]
  exact Nat.mod_eq_of_lt (by omega)

/-- The counts of a pair lie below the length. -/
theorem popAvail_lt (len w r : Nat) (h : 1 ≤ len) : popAvail len w r < len := by
  have h1 := Int.emod_nonneg ((w : Int) - r) (show (len : Int) ≠ 0 by omega)
  have h2 := Int.emod_lt_of_pos ((w : Int) - r) (show (0 : Int) < len by omega)
  unfold popAvail
  omega

theorem pushAvail_lt (len w r : Nat) (h : 1 ≤ len) : pushAvail len w r < len := by
  have h1 := Int.emod_nonneg ((r : Int) - w - 1) (show (len : Int) ≠ 0 by omega)
  have h2 := Int.emod_lt_of_pos ((r : Int) - w - 1) (show (0 : Int) < len by omega)
  unfold pushAvail
  omega

/-- The bytes to read, without the wrap: a difference of the indices. -/
theorem popAvail_eq (len w r : Nat) (hw : w < len) (hr : r < len) :
    popAvail len w r = if r ≤ w then w - r else w + len - r := by
  unfold popAvail
  split
  · rw [Int.emod_eq_of_lt (by omega) (by omega)]
    omega
  · rw [← Int.add_emod_right, Int.emod_eq_of_lt (by omega) (by omega)]
    omega

/-- The free bytes, without the wrap. -/
theorem pushAvail_eq (len w r : Nat) (hw : w < len) (hr : r < len) :
    pushAvail len w r = if w < r then r - w - 1 else r + len - w - 1 := by
  unfold pushAvail
  split
  · rw [Int.emod_eq_of_lt (by omega) (by omega)]
    omega
  · rw [← Int.add_emod_right, Int.emod_eq_of_lt (by omega) (by omega)]
    omega

/-- The index that follows `i`, without the wrap. -/
theorem next_index_eq (len i : Nat) (h : i < len) : (i + 1) % len = if i + 1 = len then 0 else i + 1 := by
  split
  · simp [*]
  · exact Nat.mod_eq_of_lt (by omega)

/-! ## The parametric stores and the lines -/

theorem psStore_toNat {c : Params} {v : Nat} (hw : c.psW ≤ 32) (hv : v < 2 ^ c.psW) : (psStore c v).toNat = v := by
  have h32 : 2 ^ c.psW ≤ 2 ^ 32 := Nat.pow_le_pow_right (by omega) hw
  simp only [psStore, BitVec.toNat_ofNat, Nat.mod_eq_of_lt hv]
  exact Nat.mod_eq_of_lt (by omega)

theorem setLine_getLsbD (out : Word) (i j : Nat) (b : Bool) (hj : j < 32) :
    (setLine out i b).getLsbD j = if j = i then b else out.getLsbD j := by
  by_cases h : j = i
  · subst h
    cases b <;> simp [setLine, hj]
  · have : j - i = 0 → j < i := by omega
    by_cases hlt : j < i
    · cases b <;> simp [setLine, hj, h, hlt]
    · have h0 : j - i ≠ 0 := by omega
      cases b <;> simp [setLine, hj, h, hlt, h0]

end Sys2Proof.Laws
end

