-- ==== Sys2Proof/Laws/Exec.lean ====
section
/-!
SUPPORT. What each command can do, said once for each: if its meaning answers a next state, that state is one of these.
-/

namespace Sys2Proof.Laws

open Sys2Proof.Machine

theorem execNop_cases (x : Port) (s : State) : execNop x s = .next (complete x .ok 0 s) := rfl

theorem execPsInit_cases (n : Byte) (s : State) :
    execPsInit n s = .next (complete .h .badArg 0 s)
    ∨ ((1 ≤ n.toNat ∧ n.toNat ≤ s.cfg.psNmax ∧ n.toNat * s.cfg.psMax ≤ s.cfg.psPeriod ∧ n.toNat ≤ s.cfg.psPeriod)
      ∧ execPsInit n s
        = .next (complete .h .ok (psStore s.cfg (s.cfg.psPeriod / n.toNat))
            { s with ps := psSettle s.cfg (psStart s.cfg n.toNat) })) := by
  unfold execPsInit
  split
  · exact .inl rfl
  · refine .inr ⟨by omega, ?_⟩
    simp [psStart]

theorem execPsSetChannel_cases (index : Byte) (s : State) :
    (s.ps.armed = false ∧ execPsSetChannel index s = .next (complete .h .notInit 0 s))
    ∨ (s.ps.armed = true ∧ s.ps.n.toNat ≤ index.toNat
        ∧ execPsSetChannel index s = .next (complete .h .indexRange 0 s))
    ∨ (s.ps.armed = true ∧ index.toNat < s.ps.n.toNat
        ∧ execPsSetChannel index s
          = .next (complete .h .ok (BitVec.ofNat 32 (mapPercent s.cfg s.args[0]))
              { s with ps := setDuty s.cfg s.ps index.toNat (mapPercent s.cfg s.args[0]) })) := by
  unfold execPsSetChannel
  cases ha : s.ps.armed
  · exact .inl ⟨rfl, rfl⟩
  · refine .inr ?_
    by_cases hn : s.ps.n.toNat ≤ index.toNat
    · exact .inl ⟨rfl, hn, by simp [hn]⟩
    · exact .inr ⟨rfl, by omega, by simp [hn]⟩

theorem execPsSetAll_cases (s : State) :
    (s.ps.armed = false ∧ execPsSetAll s = .next (complete .h .notInit 0 s))
    ∨ (s.ps.armed = true
        ∧ execPsSetAll s
          = .next (complete .h .ok (BitVec.ofNat 32 (mapPercent s.cfg s.args[0]))
              { s with
                ps := (List.range s.ps.n.toNat).foldl
                  (fun u i => setDuty s.cfg u i (mapPercent s.cfg s.args[0])) s.ps })) := by
  unfold execPsSetAll
  cases ha : s.ps.armed
  · exact .inl ⟨rfl, rfl⟩
  · exact .inr ⟨rfl, rfl⟩

theorem execPsSetChannels_cases (base : Byte) (s : State) :
    (s.ps.armed = false ∧ execPsSetChannels base s = .next (complete .h .notInit 0 s))
    ∨ (s.ps.armed = true ∧ s.cfg.varCount < base.toNat + s.ps.n.toNat
        ∧ execPsSetChannels base s = .next (complete .h .indexRange 0 s))
    ∨ (s.ps.armed = true ∧ base.toNat + s.ps.n.toNat ≤ s.cfg.varCount
        ∧ execPsSetChannels base s
          = .next (complete .h .ok 0
              { s with
                ps := (List.range s.ps.n.toNat).foldl
                  (fun u i => setDuty s.cfg u i (mapPercent s.cfg (varAt s (base.toNat + i)))) s.ps })) := by
  unfold execPsSetChannels
  cases ha : s.ps.armed
  · exact .inl ⟨rfl, rfl⟩
  · refine .inr ?_
    by_cases hn : s.cfg.varCount < base.toNat + s.ps.n.toNat
    · exact .inl ⟨rfl, hn, by simp [hn]⟩
    · exact .inr ⟨rfl, by omega, by simp [hn]⟩

/-- After a run of setters of the duty table, everything but the table is as before. -/
theorem foldl_setDuty_frame (c : Config.Params) (f : Nat → Nat) (is : List Nat) (u : Pulse) :
    is.foldl (fun u i => setDuty c u i (f i)) u
      = { u with duty := (is.foldl (fun u i => setDuty c u i (f i)) u).duty } := by
  induction is generalizing u with
  | nil => rfl
  | cons i is ih => rw [List.foldl_cons, ih (setDuty c u i (f i))]; rfl

theorem execClMake_cases (k : Byte) (s : State) :
    execClMake k s = .next (complete .h .indexRange 0 s)
    ∨ execClMake k s = .next (complete .h .badArg 0 s)
    ∨ execClMake k s
        = .next (complete .h .ok 0
            { s with cl := { s.cl with table := s.cl.table.set k.toNat (madeController s) } }) := by
  unfold execClMake
  split
  · exact .inl rfl
  · split
    · exact .inl rfl
    · split
      · exact .inr (.inl rfl)
      · split
        · exact .inr (.inl rfl)
        · exact .inr (.inr rfl)

theorem execClInit_cases (n : Byte) (s : State) :
    execClInit n s = .next (complete .h .badArg 0 s)
    ∨ execClInit n s = .next (complete .h .notInit 0 s)
    ∨ (n.toNat ≤ s.cfg.clNmax ∧ (∀ k < n.toNat, (ctlAt s.cl k).valid = true)
        ∧ execClInit n s
          = .next (complete .h .ok 0
              { s with cl := { s.cl with n := n.setWidth 6, cnt := 0, ovf := 0, run := true } })) := by
  unfold execClInit
  split
  · exact .inl rfl
  · split
    · exact .inr (.inl rfl)
    · rename_i h1 h2
      refine .inr (.inr ⟨by omega, ?_, rfl⟩)
      simpa using h2

theorem execClIterate_cases (s : State) :
    (s.cl.run = false ∧ execClIterate s = .next (complete .h .notInit 0 s))
    ∨ (s.cl.run = true ∧ elapsedTicks s.cfg s.cl = 0
        ∧ execClIterate s
          = .next (complete .h .skipped 0 { s with cl := { s.cl with cnt := 0, ovf := 0 } }))
    ∨ (s.cl.run = true ∧ elapsedTicks s.cfg s.cl ≠ 0
        ∧ execClIterate s
          = .next (complete .h .ok (BitVec.ofNat 32 (elapsedTicks s.cfg s.cl))
              ((List.range s.cl.n.toNat).foldl
                (pidStep (div64 (to64 (elapsedTicks s.cfg s.cl)) (to64 s.cfg.fClk)))
                { s with cl := { s.cl with cnt := 0, ovf := 0 } }))) := by
  unfold execClIterate
  cases hr : s.cl.run
  · exact .inl ⟨rfl, rfl⟩
  · refine .inr ?_
    by_cases ht : elapsedTicks s.cfg s.cl = 0
    · exact .inl ⟨rfl, ht, by simp [ht]⟩
    · exact .inr ⟨rfl, ht, by simp [ht]⟩

/-- After a run of PID steps, everything but the entries and the variable file is as before. -/
theorem foldl_pidStep_frame (dt : F64) (ks : List Nat) (s : State) :
    ks.foldl (pidStep dt) s
      = { s with
          cl := { s.cl with table := (ks.foldl (pidStep dt) s).cl.table }
          vars := (ks.foldl (pidStep dt) s).vars } := by
  induction ks generalizing s with
  | nil => rfl
  | cons k ks ih => rw [List.foldl_cons, ih (pidStep dt s k)]; rfl

theorem execRbInit_cases (len : Half) (s : State) :
    execRbInit len s = .next (complete .p .badArg 0 s)
    ∨ (2 ≤ len.toNat ∧ len.toNat ≤ s.cfg.rbSize
        ∧ execRbInit len s
          = .next (complete .p .ok (BitVec.ofNat 32 (len.toNat - 1))
              { s with
                rb := { s.rb with
                  ready := true
                  len := len
                  wr := 0
                  rd := 0
                  rdSyncP := if s.cfg.rbCdc then 0 else s.rb.rdSyncP
                  wrSyncC := if s.cfg.rbCdc then 0 else s.rb.wrSyncC } })) := by
  unfold execRbInit
  split
  · exact .inl rfl
  · exact .inr ⟨by omega, by omega, rfl⟩

theorem execRbPush_next {a : Byte} {s t : State} (h : execRbPush a s = .next t) :
    (s.rb.ready = false ∧ t = complete .p .notInit 0 s)
    ∨ (s.rb.ready = true ∧ (s.rb.wr.toNat + 1) % s.rb.len.toNat = (viewRdP s).toNat ∧ t = complete .p .full 0 s)
    ∨ (s.rb.ready = true ∧ (s.rb.wr.toNat + 1) % s.rb.len.toNat ≠ (viewRdP s).toNat
        ∧ s.rb.wr.toNat < s.cfg.rbSize ∧ t = complete .p .ok 0 { s with rb := ringStore a s.rb }) := by
  unfold execRbPush at h
  cases hr : s.rb.ready
  · exact .inl ⟨rfl, fail_next (by simpa [hr] using h)⟩
  · refine .inr ?_
    by_cases hf : ringFull s.rb.len.toNat s.rb.wr.toNat (viewRdP s).toNat = true
    · exact .inl ⟨rfl, by simpa [ringFull] using hf, fail_next (by simpa [hr, hf] using h)⟩
    · rw [if_pos hr, if_neg hf] at h
      obtain ⟨hj, h⟩ := withStorage_next h
      exact .inr ⟨rfl, by simpa [ringFull] using hf, hj, succeed_next h⟩

theorem execRbPushOverwrite_next {a : Byte} {s t : State} (h : execRbPushOverwrite a s = .next t) :
    (s.cfg.rbCdc = true ∧ t = complete .p .illegal 0 s)
    ∨ (s.cfg.rbCdc = false ∧ s.rb.ready = false ∧ t = complete .p .notInit 0 s)
    ∨ (s.cfg.rbCdc = false ∧ s.rb.ready = true ∧ s.rb.wr.toNat < s.cfg.rbSize
        ∧ ((ringNext s.rb.len s.rb.wr = s.rb.rd
            ∧ t = complete .p .ok 1
                { s with rb := { ringStore a s.rb with rd := ringNext s.rb.len s.rb.rd } })
          ∨ (ringNext s.rb.len s.rb.wr ≠ s.rb.rd ∧ t = complete .p .ok 0 { s with rb := ringStore a s.rb }))) := by
  unfold execRbPushOverwrite at h
  cases hc : s.cfg.rbCdc
  · cases hr : s.rb.ready
    · exact .inr (.inl ⟨rfl, rfl, fail_next (by simpa [hc, hr] using h)⟩)
    · simp only [hc, hr, if_true] at h
      obtain ⟨hj, h⟩ := withStorage_next h
      refine .inr (.inr ⟨rfl, rfl, hj, ?_⟩)
      by_cases he : ringNext s.rb.len s.rb.wr = s.rb.rd
      · exact .inl ⟨he, succeed_next (by simpa [he] using h)⟩
      · exact .inr ⟨he, succeed_next (by simpa [he] using h)⟩
  · exact .inl ⟨rfl, fail_next (by simpa [hc] using h)⟩

theorem execRbPop_next {s t : State} (h : execRbPop s = .next t) :
    (s.rb.ready = false ∧ t = complete .c .notInit 0 s)
    ∨ (s.rb.ready = true ∧ viewWrC s = s.rb.rd ∧ t = complete .c .empty 0 s)
    ∨ (s.rb.ready = true ∧ viewWrC s ≠ s.rb.rd ∧ s.rb.rd.toNat < s.cfg.rbSize
        ∧ t = complete .c .ok ((ringByte s s.rb.rd.toNat).setWidth 32)
            { s with rb := { s.rb with rd := ringNext s.rb.len s.rb.rd } }) := by
  unfold execRbPop at h
  cases hr : s.rb.ready
  · exact .inl ⟨rfl, fail_next (by simpa [hr] using h)⟩
  · refine .inr ?_
    by_cases he : ringEmpty (viewWrC s).toNat s.rb.rd.toNat = true
    · exact .inl ⟨rfl, BitVec.eq_of_toNat_eq (by simpa [ringEmpty] using he), fail_next (by simpa [hr, he] using h)⟩
    · rw [if_pos hr, if_neg he] at h
      obtain ⟨hj, h⟩ := withStorage_next h
      exact .inr ⟨rfl, fun e => he (by simp [ringEmpty, e]), hj, succeed_next h⟩

theorem execRbPeek_next {s t : State} (h : execRbPeek s = .next t) :
    (s.rb.ready = false ∧ t = complete .c .notInit 0 s)
    ∨ (s.rb.ready = true ∧ viewWrC s = s.rb.rd ∧ t = complete .c .empty 0 s)
    ∨ (s.rb.ready = true ∧ viewWrC s ≠ s.rb.rd ∧ s.rb.rd.toNat < s.cfg.rbSize
        ∧ t = complete .c .ok ((ringByte s s.rb.rd.toNat).setWidth 32) s) := by
  unfold execRbPeek at h
  cases hr : s.rb.ready
  · exact .inl ⟨rfl, fail_next (by simpa [hr] using h)⟩
  · refine .inr ?_
    by_cases he : ringEmpty (viewWrC s).toNat s.rb.rd.toNat = true
    · exact .inl ⟨rfl, BitVec.eq_of_toNat_eq (by simpa [ringEmpty] using he), fail_next (by simpa [hr, he] using h)⟩
    · rw [if_pos hr, if_neg he] at h
      obtain ⟨hj, h⟩ := withStorage_next h
      exact .inr ⟨rfl, fun e => he (by simp [ringEmpty, e]), hj, succeed_next h⟩

end Sys2Proof.Laws
end

