-- ==== Sys2Proof/Laws/PerInstr.lean ====
section
/-!
SUPPORT. The family `EncodedRow`: the word that the encoder writes for a command carries the opcode and the zero fields of
the command's own row of the opcode map (R125), on a port that the row lists when the command is well formed.
-/

namespace Sys2Proof.Laws.EncodedRow

/-- The mnemonic of a command (R125). -/
def mnemonicOf : Instr → String
  | .nop _ => "NOP"
  | .psInit _ => "PS_INIT"
  | .psSetChannel _ => "PS_SET_CHANNEL"
  | .psSetAll => "PS_SET_ALL"
  | .psSetChannels _ => "PS_SET_CHANNELS"
  | .clMake _ => "CL_MAKE"
  | .clInit _ => "CL_INIT"
  | .clIterate => "CL_ITERATE"
  | .rbInit _ => "RB_INIT"
  | .rbPush _ => "RB_PUSH"
  | .rbPushOverwrite _ => "RB_PUSH_OVERWRITE"
  | .rbIsEmpty _ => "RB_IS_EMPTY"
  | .rbIsFull _ => "RB_IS_FULL"
  | .rbPushAvailable _ => "RB_PUSH_AVAILABLE"
  | .rbPopAvailable _ => "RB_POP_AVAILABLE"
  | .rbPop => "RB_POP"
  | .rbPeek => "RB_PEEK"

/-- The encoded word belongs to the command's row. -/
def Statement (i : Instr) : Prop :=
  ∃ r, rowOf (opField (encode i)) = some r ∧ r.mnemonic = mnemonicOf i ∧ mbzOk r.format (encode i) = true
    ∧ (i.wellFormed = true → r.ports.contains i.port = true)

theorem wordA_opField (op a : Byte) : opField (wordA op a) = op := by
  apply BitVec.eq_of_getLsbD_eq
  intro i hi
  have h : i < 8 := hi
  simp only [opField, wordA, BitVec.getLsbD_extractLsb', BitVec.getLsbD_or, BitVec.getLsbD_shiftLeft,
    BitVec.getLsbD_setWidth]
  simp [h]
  omega

theorem wordL_opField (op : Byte) (l : Half) : opField (wordL op l) = op := by
  apply BitVec.eq_of_getLsbD_eq
  intro i hi
  have h : i < 8 := hi
  have h16 : i < 16 := by omega
  simp only [opField, wordL, BitVec.getLsbD_extractLsb', BitVec.getLsbD_or, BitVec.getLsbD_shiftLeft,
    BitVec.getLsbD_setWidth]
  simp [h, h16]
  omega

theorem wordA_mbzOk (op a : Byte) : mbzOk .a (wordA op a) = true := by
  simp only [mbzOk, beq_iff_eq]
  apply BitVec.eq_of_getLsbD_eq
  intro i hi
  have ha : a.getLsbD (16 + i - 8) = false := BitVec.getLsbD_of_ge _ _ (by omega)
  have ho : op.getLsbD (16 + i) = false := BitVec.getLsbD_of_ge _ _ (by omega)
  simp [wordA, ha, ho]

theorem wordL_mbzOk (op : Byte) (l : Half) : mbzOk .l (wordL op l) = true := by
  simp only [mbzOk, beq_iff_eq]
  apply BitVec.eq_of_getLsbD_eq
  intro i hi
  have h16 : 8 + i < 16 := by omega
  simp [wordL, h16]

theorem statement_of_wordA (i : Instr) (op a : Byte) (r : OpRow) (he : encode i = wordA op a)
    (hr : rowOf op = some r) (hf : r.format = .a) (hm : r.mnemonic = mnemonicOf i)
    (hp : r.ports.contains i.port = true) : Statement i :=
  ⟨r, by rw [he, wordA_opField, hr], hm, by rw [he, hf]; exact wordA_mbzOk op a, fun _ => hp⟩

theorem wordZ_mbzOk (op : Byte) : mbzOk .z (wordZ op) = true := by
  simp only [mbzOk, beq_iff_eq]
  apply BitVec.eq_of_getLsbD_eq
  intro i hi
  simp [wordZ]

theorem nop (x : Port) : Statement (.nop x) :=
  ⟨opRows[0], rfl, rfl, wordZ_mbzOk 0x00, fun _ => by cases x <;> rfl⟩

theorem psInit (n : Byte) : Statement (.psInit n) := statement_of_wordA _ 0x10 n opRows[1] rfl rfl rfl rfl rfl

theorem psSetChannel (index : Byte) : Statement (.psSetChannel index) :=
  statement_of_wordA _ 0x11 index opRows[2] rfl rfl rfl rfl rfl

theorem psSetAll : Statement .psSetAll := ⟨opRows[3], rfl, rfl, rfl, fun _ => rfl⟩

theorem psSetChannels (base : Byte) : Statement (.psSetChannels base) :=
  statement_of_wordA _ 0x13 base opRows[4] rfl rfl rfl rfl rfl

theorem clMake (k : Byte) : Statement (.clMake k) := statement_of_wordA _ 0x20 k opRows[5] rfl rfl rfl rfl rfl

theorem clInit (n : Byte) : Statement (.clInit n) := statement_of_wordA _ 0x21 n opRows[6] rfl rfl rfl rfl rfl

theorem clIterate : Statement .clIterate := ⟨opRows[7], rfl, rfl, rfl, fun _ => rfl⟩

theorem rbInit (len : Half) : Statement (.rbInit len) :=
  ⟨opRows[8], by rw [encode, wordL_opField]; rfl, rfl, wordL_mbzOk _ _, fun _ => rfl⟩

theorem rbPush (a : Byte) : Statement (.rbPush a) := statement_of_wordA _ 0x31 a opRows[9] rfl rfl rfl rfl rfl

theorem rbPushOverwrite (a : Byte) : Statement (.rbPushOverwrite a) :=
  statement_of_wordA _ 0x32 a opRows[10] rfl rfl rfl rfl rfl

theorem rbIsEmpty (x : Port) : Statement (.rbIsEmpty x) :=
  ⟨opRows[11], rfl, rfl, wordZ_mbzOk 0x34, fun h => by cases x <;> first | rfl | cases h⟩

theorem rbIsFull (x : Port) : Statement (.rbIsFull x) :=
  ⟨opRows[12], rfl, rfl, wordZ_mbzOk 0x35, fun h => by cases x <;> first | rfl | cases h⟩

theorem rbPushAvailable (x : Port) : Statement (.rbPushAvailable x) :=
  ⟨opRows[13], rfl, rfl, wordZ_mbzOk 0x36, fun h => by cases x <;> first | rfl | cases h⟩

theorem rbPopAvailable (x : Port) : Statement (.rbPopAvailable x) :=
  ⟨opRows[14], rfl, rfl, wordZ_mbzOk 0x37, fun h => by cases x <;> first | rfl | cases h⟩

theorem rbPop : Statement .rbPop := ⟨opRows[15], rfl, rfl, rfl, fun _ => rfl⟩

theorem rbPeek : Statement .rbPeek := ⟨opRows[16], rfl, rfl, rfl, fun _ => rfl⟩

end Sys2Proof.Laws.EncodedRow
end

