-- ==== Sys2Proof/Laws/Steps.lean ====
section
/-!
SUPPORT. The engine, the timer and the steps, each said once: what a compare event, a PS clock part, a CL clock part, a
placed step and a run of steps can do.
-/

namespace Sys2Proof.Laws

open Sys2Proof.Machine
open Sys2Proof.Config (Params)

/-! ## The pulse scheduler -/

theorem psService_high {u : Pulse} (c : Params) (h : u.phase = .drivingHigh) :
    psService c u
      = { u with
          out := setLine u.out u.cur.toNat false
          deadline := psStore c (u.slot - dutyAt u u.cur.toNat).toNat
          phase := .waitingLow
          cnt := 0 } := by
  simp [psService, h]

theorem psService_low {u : Pulse} (c : Params) (h : u.phase = .waitingLow) :
    psService c u
      = { u with
          cur := BitVec.ofNat 5 ((u.cur.toNat + 1) % u.n.toNat)
          out := setLine u.out ((u.cur.toNat + 1) % u.n.toNat) true
          deadline := dutyAt u ((u.cur.toNat + 1) % u.n.toNat)
          phase := .drivingHigh
          cnt := 0 } := by
  simp [psService, h]

/-- A deadline that is not 0 is settled (R222). -/
@[simp] theorem psSettle_of_ne {u : Pulse} (c : Params) (h : u.deadline ≠ 0) : psSettle c u = u := by
  have h1 : psSettleOnce c u = u := if_neg h
  rw [psSettle, h1, h1]

@[simp] theorem psClk_unarmed {u : Pulse} (c : Params) (h : u.armed = false) : psClk c u = u := by simp [psClk, h]

/-- An armed scheduler counts its prescaler, or takes a PS tick (R223). -/
theorem psClk_cases {u : Pulse} (c : Params) (h : u.armed = true) :
    (u.pre.toNat + 1 < c.psPrescale ∧ psClk c u = { u with pre := u.pre + 1 })
    ∨ (c.psPrescale ≤ u.pre.toNat + 1 ∧ psClk c u = psTick c { u with pre := 0 }) := by
  by_cases hp : u.pre.toNat + 1 < c.psPrescale
  · exact .inl ⟨hp, by simp [psClk, h, hp]⟩
  · exact .inr ⟨by omega, by simp [psClk, h, hp]⟩

/-! ## The control loop -/

@[simp] theorem clClk_stopped {u : Loop} (c : Params) (h : u.run = false) : clClk c u = u := by simp [clClk, h]

/-- A running timer wraps, or counts (R280). -/
theorem clClk_cases {u : Loop} (c : Params) (h : u.run = true) :
    (u.cnt.toNat = c.clTop - 1
      ∧ clClk c u = { u with cnt := 0, ovf := BitVec.ofNat 16 (min (u.ovf.toNat + 1) Config.clOvfMax) })
    ∨ (u.cnt.toNat ≠ c.clTop - 1 ∧ clClk c u = { u with cnt := u.cnt + 1 }) := by
  by_cases hc : u.cnt.toNat = c.clTop - 1
  · exact .inl ⟨hc, by simp [clClk, h, hc]⟩
  · exact .inr ⟨hc, by simp [clClk, h, hc]⟩

/-! ## Clamps -/

/-- A clamp answers the limit, its negation, or the operand, which then lies between them or is a NaN (R281). -/
theorem clamp64_cases (x lim : F64) :
    (gt64 x lim = true ∧ clamp64 x lim = lim)
    ∨ (gt64 x lim = false ∧ lt64 x (neg64 lim) = true ∧ clamp64 x lim = neg64 lim)
    ∨ (gt64 x lim = false ∧ lt64 x (neg64 lim) = false ∧ clamp64 x lim = x) := by
  unfold clamp64
  cases gt64 x lim
  · cases lt64 x (neg64 lim)
    · exact .inr (.inr ⟨rfl, rfl, rfl⟩)
    · exact .inr (.inl ⟨rfl, rfl, rfl⟩)
  · exact .inl ⟨rfl, rfl⟩

theorem clamp64_of_nan {x : F64} (lim : F64) (h : isNaN x = true) : clamp64 x lim = x := by
  simp [clamp64, gt64, lt64, h]

/-! ## Steps -/

theorem step_placed {s : State} {a : Action} {rest : List Action} (h : s.pending = a :: rest) :
    step s = perform a { s with pending := rest } := by
  simp [step, h]

theorem step_free {s : State} (h : s.pending = []) :
    step s = perform (Config.environment s.turn) { s with turn := s.turn + 1 } := by
  simp [step, h]

@[simp] theorem performAll_nil (s : State) : performAll [] s = .next s := rfl

/-- A run of steps that answers a next state took each of them. -/
theorem performAll_cons_next {a : Action} {as : List Action} {s t : State} :
    performAll (a :: as) s = .next t ↔ ∃ u, perform a s = .next u ∧ performAll as u = .next t := by
  simp only [performAll]
  cases perform a s with
  | next u => simp
  | fault r => simp
  | refused r => simp

theorem performAll_append_next {as bs : List Action} {s t : State} :
    performAll (as ++ bs) s = .next t ↔ ∃ u, performAll as s = .next u ∧ performAll bs u = .next t := by
  induction as generalizing s with
  | nil => simp
  | cons a as ih =>
    simp only [List.cons_append, performAll_cons_next, ih]
    constructor
    · rintro ⟨u, hu, v, hv, ht⟩
      exact ⟨v, ⟨u, hu, hv⟩, ht⟩
    · rintro ⟨v, ⟨u, hu, hv⟩, ht⟩
      exact ⟨u, hu, v, hv, ht⟩

/-- What a step of an agent can be (R20, R390). -/
theorem perform_next {a : Action} {s t : State} (h : perform a s = .next t) :
    (∃ b, a = .bus b ∧ busAccess b s = .next t)
    ∨ (a = .clk ∧ t = clkStep s)
    ∨ (a = .syncP ∧ s.cfg.rbCdc = true ∧ t = { s with rb := { s.rb with rdSyncP := s.rb.rd } })
    ∨ (a = .syncC ∧ s.cfg.rbCdc = true ∧ t = { s with rb := { s.rb with wrSyncC := s.rb.wr } })
    ∨ (a = .reset ∧ t = platformReset s) := by
  cases a with
  | bus b => exact .inl ⟨b, rfl, h⟩
  | clk => exact .inr (.inl ⟨rfl, (Host.Outcome.next.inj h).symm⟩)
  | syncP =>
    simp only [perform, syncP] at h
    split at h
    · exact .inr (.inr (.inl ⟨rfl, ‹_›, (Host.Outcome.next.inj h).symm⟩))
    · cases h
  | syncC =>
    simp only [perform, syncC] at h
    split at h
    · exact .inr (.inr (.inr (.inl ⟨rfl, ‹_›, (Host.Outcome.next.inj h).symm⟩)))
    · cases h
  | reset => exact .inr (.inr (.inr (.inr ⟨rfl, (Host.Outcome.next.inj h).symm⟩)))

end Sys2Proof.Laws
end

