-- ==== Sys2Proof/Machine/AssemblyText.lean ====
section
/-!
DEFINITION. The text of a program (R130, R131): its literals, its register names, its lines, and the reading of a line.
What R130 leaves open about spacing, blank lines and the spelling of literals and names is log 23.
-/

namespace Sys2Proof.Machine

/-! ## Literals -/

/-- The value of a digit, hexadecimal digits in either case (DESIGN CHOICE, log 23). -/
def digitValue (c : Char) : Option Nat :=
  if '0' ≤ c ∧ c ≤ '9' then some (c.toNat - '0'.toNat)
  else if 'a' ≤ c ∧ c ≤ 'f' then some (c.toNat - 'a'.toNat + 10)
  else if 'A' ≤ c ∧ c ≤ 'F' then some (c.toNat - 'A'.toNat + 10)
  else none

/-- The number that the digits spell in a base, read on from `acc`. -/
def digitsFrom (base : Nat) : Nat → List Char → Option Nat
  | acc, [] => some acc
  | acc, c :: cs =>
    match digitValue c with
    | some d => if d < base then digitsFrom base (acc * base + d) cs else none
    | none => none

/-- The number that at least one digit spells in a base. -/
def digits (base : Nat) (cs : List Char) : Option Nat := if cs.isEmpty then none else digitsFrom base 0 cs

/-- An integer literal: "decimal or `0x` hexadecimal" (R130). -/
def integerLiteral : List Char → Option Nat
  | '0' :: 'x' :: cs => digits 16 cs
  | cs => digits 10 cs

/-- An integer literal below a bound. -/
def integerBelow (bound : Nat) (cs : List Char) : Option Nat := (integerLiteral cs).filter (· < bound)

/-- An 8-bit operand (R122). -/
def byteLiteral (cs : List Char) : Option Byte := (integerBelow 256 cs).map (BitVec.ofNat 8)

/-- A sign, and what follows it. -/
def signOf : List Char → Bool × List Char
  | '-' :: cs => (true, cs)
  | '+' :: cs => (false, cs)
  | cs => (false, cs)

/-- The exponent that ends a decimal number: none, or `e` and a signed integer. -/
def exponentOf : List Char → Option Int
  | [] => some 0
  | c :: cs =>
    if c = 'e' ∨ c = 'E' then
      (digits 10 (signOf cs).2).map fun (n : Nat) => if (signOf cs).1 then -(n : Int) else (n : Int)
    else none

/-- The digits after the point, if there is one, and what follows them. -/
def pointDigits : List Char → List Char × List Char
  | '.' :: cs => (cs.takeWhile Char.isDigit, cs.dropWhile Char.isDigit)
  | cs => ([], cs)

/-- A decimal number: a sign, digits with or without a point, and an exponent (DESIGN CHOICE, log 23: R130 does not spell out
which of these parts a decimal number may have). -/
def decimalLiteral (cs : List Char) : Option Literal :=
  let (neg, cs) := signOf cs
  let whole := cs.takeWhile Char.isDigit
  let (part, rest) := pointDigits (cs.dropWhile Char.isDigit)
  match digits 10 (whole ++ part), exponentOf rest with
  | some n, some e => some (.decimal neg n (e - part.length))
  | _, _ => none

/-- An `f64` literal: a decimal number, or `f64:0x` and 16 hexadecimal digits (R130). -/
def floatLiteral : List Char → Option F64
  | 'f' :: '6' :: '4' :: ':' :: '0' :: 'x' :: cs =>
    if cs.length = 16 then (digits 16 cs).map fun n => literalValue (.raw (BitVec.ofNat 64 n)) else none
  | cs => (decimalLiteral cs).map literalValue

/-! ## Register names -/

/-- The pieces of a word between the characters that `sep` names, empty pieces left out. -/
def splitOn (sep : Char → Bool) : List Char → List Char → List (List Char)
  | acc, [] => if acc.isEmpty then [] else [acc.reverse]
  | acc, c :: cs =>
    if sep c then (if acc.isEmpty then splitOn sep [] cs else acc.reverse :: splitOn sep [] cs)
    else splitOn sep (c :: acc) cs

/-- The name of a port (R2). -/
def portName (cs : List Char) : Option Port :=
  if cs = ['H'] then some .h else if cs = ['P'] then some .p else if cs = ['C'] then some .c else none

/-- The names without an index of port H (R82). -/
def plainNamesH : List (String × Register) :=
  [ ("CMD", .cmd), ("STATUS", .status), ("RES", .res), ("IARG", .iarg), ("PS_STAT", .psStat), ("PS_OUT", .psOut),
    ("PS_CNT", .psCnt), ("PS_DEADLINE", .psDeadline), ("PS_SLOT", .psSlot), ("PS_PRE", .psPre), ("CL_STAT", .clStat),
    ("CL_CNT", .clCnt), ("CL_OVF", .clOvf),
    ("ARG0_LO", .argLo 0), ("ARG1_LO", .argLo 1), ("ARG2_LO", .argLo 2), ("ARG3_LO", .argLo 3), ("ARG4_LO", .argLo 4),
    ("ARG5_LO", .argLo 5), ("ARG0_HI", .argHi 0), ("ARG1_HI", .argHi 1), ("ARG2_HI", .argHi 2), ("ARG3_HI", .argHi 3),
    ("ARG4_HI", .argHi 4), ("ARG5_HI", .argHi 5) ]

/-- The names of ports P and C (R85). -/
def plainNamesPC : List (String × Register) :=
  [("CMD", .cmd), ("STATUS", .status), ("RES", .res), ("RB_CFG", .rbCfg), ("RB_OWN", .rbOwn), ("RB_VIEW", .rbView)]

/-- The names with one index of port H, with the number of places that the map has for them (R82, R83). -/
def indexedNamesH : List (String × Nat × (Nat → Register)) :=
  [("PS_DUTY", 32, .psDuty), ("VAR_LO", 256, .varLo), ("VAR_HI", 256, .varHi), ("CTL_REF", 32, .ctlRef)]

/-- The names with two indices of port H (R83). -/
def doubleNamesH : List (String × (Nat → Nat → Register)) := [("CTL_LO", .ctlLo), ("CTL_HI", .ctlHi)]

/-- The entry of a table of names. -/
def named {α : Type} (table : List (String × α)) (cs : List Char) : Option α :=
  (table.find? fun e => e.1.toList == cs).map Prod.snd

/-- The indices of a register name, each in its own pair of brackets, with nothing before, between or after them (R83).
The first argument is the index being read, if the last bracket was an opening one. -/
def bracketed : Option (List Char) → List Char → Option (List (List Char))
  | none, [] => some []
  | none, c :: cs => if c = '[' then bracketed (some []) cs else none
  | some _, [] => none
  | some i, c :: cs => if c = ']' then (bracketed none cs).map (i.reverse :: ·) else bracketed (some (c :: i)) cs

/-- A register name of a port: `NAME`, `NAME[i]` or `NAME[k][f]`, as the maps write it (R82, R83, R85). DESIGN CHOICE,
log 23: a name with brackets in another place, or with an index that has no place in the map, is refused. -/
def registerName (x : Port) (cs : List Char) : Option Register :=
  let name := cs.takeWhile (· != '[')
  match bracketed none (cs.dropWhile (· != '[')) with
  | some [] => named (if x = .h then plainNamesH else plainNamesPC) name
  | some [i] =>
    if x = .h then
      match named indexedNamesH name with
      | some (bound, f) => (integerBelow bound i).map f
      | none => none
    else none
  | some [k, f] =>
    if x = .h then
      match named doubleNamesH name, integerBelow 32 k, integerBelow 8 f with
      | some r, some k, some f => some (r k f)
      | _, _, _ => none
    else none
  | _ => none

/-- `X.NAME` (R130). -/
def qualifiedName : List Char → Option (Port × Register)
  | x :: '.' :: cs =>
    match portName [x] with
    | some port => (registerName port cs).map fun r => (port, r)
    | none => none
  | _ => none

/-! ## Lines -/

/-- The words of a line: what stands before a comment (R130), cut at spaces, tabs, carriage returns and commas in any number
(DESIGN CHOICE, log 23). -/
def lineWords (cs : List Char) : List (List Char) :=
  splitOn (fun c => c == ' ' || c == '\t' || c == '\r' || c == ',') [] (cs.takeWhile (· != ';'))

/-- The operand registers' numbers (R33). -/
def argNumber (cs : List Char) : Option (Fin 6) :=
  match integerLiteral cs with
  | some k => if h : k < 6 then some ⟨k, h⟩ else none
  | none => none

/-- A command line of R130: its operand, and the suffix `@X`. -/
def commandWords (mnemonic : String) : List (List Char) → Option Line
  | [] => (commandLine mnemonic none none).map .command
  | ['@' :: p] =>
    match portName p with
    | some x => (commandLine mnemonic none (some x)).map .command
    | none => none
  | [a] =>
    match integerLiteral a with
    | some n => (commandLine mnemonic (some n) none).map .command
    | none => none
  | _ => none

/-- `WR X.NAME, value` and `RD X.NAME` (R130). -/
def busWords : String → List (List Char) → Option Line
  | "WR", [r, v] =>
    match qualifiedName r, integerBelow (2 ^ 32) v with
    | some (x, r), some v => some (.wr x r (BitVec.ofNat 32 v))
    | _, _ => none
  | "RD", [r] => (qualifiedName r).map fun (x, r) => .rd x r
  | _, _ => none

/-- `CLK k`, `SYNC_P` and `SYNC_C` (R130). -/
def environmentWords : String → List (List Char) → Option Line
  | "CLK", [k] => (integerLiteral k).map .clk
  | "SYNC_P", [] => some .syncP
  | "SYNC_C", [] => some .syncC
  | _, _ => none

/-- The pseudo-instructions, "told apart ... by its operand count" (R131). -/
def pseudoWords : String → List (List Char) → Option Line
  | "LDARG", [k, x] =>
    match argNumber k, floatLiteral x with
    | some k, some x => some (.ldarg k x)
    | _, _ => none
  | "LDVAR", [i, x] =>
    match integerBelow 256 i, floatLiteral x with
    | some i, some x => some (.ldvar i x)
    | _, _ => none
  | "RDVAR", [i] => (integerBelow 256 i).map .rdvar
  | "LDIARG", [sp, meas, out] =>
    match byteLiteral sp, byteLiteral meas, byteLiteral out with
    | some sp, some meas, some out => some (.ldiarg sp meas out)
    | _, _, _ => none
  | "PS_SET_CHANNEL", [i, x] =>
    match byteLiteral i, floatLiteral x with
    | some i, some x => some (.psSetChannel i x)
    | _, _ => none
  | "PS_SET_ALL", [x] => (floatLiteral x).map .psSetAll
  | "CL_MAKE", k :: sp :: meas :: out :: gains =>
    match byteLiteral k, byteLiteral sp, byteLiteral meas, byteLiteral out, gains.mapM floatLiteral with
    | some k, some sp, some meas, some out, some [kp, ki, kd, imax, dmax, outmax] =>
      some (.clMake k sp meas out kp ki kd imax dmax outmax)
    | _, _, _, _, _ => none
  | _, _ => none

/-- A line of a program: none when R130 and R131 give it no meaning. A line without a word, which is none of R130's three kinds
(blank, or nothing but separators or a comment), is accepted and stands for nothing: `some none` (DESIGN CHOICE, log 23). -/
def readLine (cs : List Char) : Option (Option Line) :=
  match lineWords cs with
  | [] => some none
  | m :: args =>
    let name := String.ofList m
    ((((busWords name args).or (environmentWords name args)).or (pseudoWords name args)).or
      (commandWords name args)).map some

/-- The lines of a program's text, none when one of them is refused (R130). A line ends at a line feed, and an empty line is
skipped (DESIGN CHOICE, log 23). -/
def readProgram (text : String) : Option (List Line) :=
  match (splitOn (· == '\n') [] text.toList).mapM readLine with
  | some ls => some (ls.filterMap id)
  | none => none

end Sys2Proof.Machine
end

