-- ==== Sys2Proof/Tests/Slice0.lean ====
section
/-!
SUPPORT. The tests: the checks of WellFormed, a word of every command written out from its encoding, one step of every
command on the vectors of 95_test_vectors.md, and, for every statement with hypotheses, a state and operands that meet
them all.
-/

namespace Sys2Proof.Tests

open Sys2Proof.Machine Sys2Proof.Safety
open Sys2Proof.Config (Params testCfg)

/-! ## WellFormed: each check refuses an ill-formed term -/

theorem test_wf_query_on_port_h :
    (Instr.rbIsEmpty .h).wellFormed = false ∧ (Instr.rbIsFull .h).wellFormed = false
      ∧ (Instr.rbPushAvailable .h).wellFormed = false ∧ (Instr.rbPopAvailable .h).wellFormed = false := by decide

theorem test_wf_test_cfg : testCfg.wellFormed = true := by decide

theorem test_wf_clock : { testCfg with fClk := 0 }.clockOk = false
    ∧ { testCfg with fClk := 2 ^ 53 + 1 }.clockOk = false := by decide

theorem test_wf_ps : { testCfg with psPrescale := 0 }.psOk = false ∧ { testCfg with psPrescale := 2 ^ 32 }.psOk = false
    ∧ { testCfg with psPeriod := 65536 }.psOk = false ∧ { testCfg with psW := 33 }.psOk = false
    ∧ { testCfg with psMin := 2001 }.psOk = false ∧ { testCfg with psMax := 20000 }.psOk = false
    ∧ { testCfg with psNmax := 0 }.psOk = false ∧ { testCfg with psNmax := 33 }.psOk = false := by decide

theorem test_wf_cl : { testCfg with clTop := 1 }.clOk = false ∧ { testCfg with clTop := 65537 }.clOk = false
    ∧ { testCfg with clNmax := 0 }.clOk = false ∧ { testCfg with clNmax := 33 }.clOk = false
    ∧ { testCfg with varCount := 0 }.clOk = false ∧ { testCfg with varCount := 257 }.clOk = false := by decide

theorem test_wf_rb : { testCfg with rbSize := 1 }.rbOk = false ∧ { testCfg with rbSize := 65536 }.rbOk = false := by decide

theorem test_wf_bases : { testCfg with baseH := 2 }.basesOk = false ∧ { testCfg with baseP := 0x1FE0 }.basesOk = false
    ∧ { testCfg with baseC := 0x2010 }.basesOk = false := by decide

/-! ## Decoding: one word of every command, from the encoding of its rule, and the rejects of section 2.1 -/

/-- R155: opcode 00, every port. -/
theorem test_decode_nop : decode .h 0x00000000 = .ok (.nop .h) ∧ decode .p 0x00000000 = .ok (.nop .p)
    ∧ decode .c 0x00000000 = .ok (.nop .c) := by decide
/-- R224: opcode 10, `A` in [15:8]. -/
theorem test_decode_psInit : decode .h 0x00000410 = .ok (.psInit 4) := by decide
/-- R225: opcode 11. -/
theorem test_decode_psSetChannel : decode .h 0x00000211 = .ok (.psSetChannel 2) := by decide
/-- R226: opcode 12, no operand. -/
theorem test_decode_psSetAll : decode .h 0x00000012 = .ok .psSetAll := by decide
/-- R227: opcode 13. -/
theorem test_decode_psSetChannels : decode .h 0x00000413 = .ok (.psSetChannels 4) := by decide
/-- R283: opcode 20. -/
theorem test_decode_clMake : decode .h 0x00000320 = .ok (.clMake 3) := by decide
/-- R284: opcode 21. -/
theorem test_decode_clInit : decode .h 0x00000121 = .ok (.clInit 1) := by decide
/-- R285: opcode 22. -/
theorem test_decode_clIterate : decode .h 0x00000022 = .ok .clIterate := by decide
/-- R171: opcode 30, `L` in [31:16]. -/
theorem test_decode_rbInit : decode .p 0x00080030 = .ok (.rbInit 8) ∧ decode .p 0xFFFF0030 = .ok (.rbInit 65535) := by decide
/-- R172: opcode 31. -/
theorem test_decode_rbPush : decode .p 0x00004131 = .ok (.rbPush 0x41) ∧ decode .p 0x0000FF31 = .ok (.rbPush 0xFF) := by decide
/-- R173: opcode 32. -/
theorem test_decode_rbPushOverwrite : decode .p 0x00004932 = .ok (.rbPushOverwrite 0x49) := by decide
/-- R174: opcode 34, ports P and C. -/
theorem test_decode_rbIsEmpty : decode .c 0x00000034 = .ok (.rbIsEmpty .c) ∧ decode .p 0x00000034 = .ok (.rbIsEmpty .p) := by decide
/-- R175: opcode 35. -/
theorem test_decode_rbIsFull : decode .p 0x00000035 = .ok (.rbIsFull .p) := by decide
/-- R176: opcode 36. -/
theorem test_decode_rbPushAvailable : decode .p 0x00000036 = .ok (.rbPushAvailable .p) := by decide
/-- R177: opcode 37. -/
theorem test_decode_rbPopAvailable : decode .c 0x00000037 = .ok (.rbPopAvailable .c) := by decide
/-- R178: opcode 38, port C only. -/
theorem test_decode_rbPop : decode .c 0x00000038 = .ok .rbPop := by decide
/-- R179: opcode 39, port C only. -/
theorem test_decode_rbPeek : decode .c 0x00000039 = .ok .rbPeek := by decide

/-- Section 2.1: must-be-zero bits. -/
theorem test_decode_rejects_mbz : decode .h 0x00000100 = .error .nonzeroMbz ∧ decode .h 0x00010410 = .error .nonzeroMbz
    ∧ decode .p 0x00080130 = .error .nonzeroMbz ∧ decode .h 0x00000122 = .error .nonzeroMbz := by decide
/-- Section 2.1: the wrong port. -/
theorem test_decode_rejects_port : decode .p 0x00000410 = .error .wrongPort ∧ decode .c 0x00080030 = .error .wrongPort
    ∧ decode .h 0x00000034 = .error .wrongPort ∧ decode .p 0x00000038 = .error .wrongPort := by decide
/-- Section 2.1: reserved opcodes. -/
theorem test_decode_rejects_opcode : decode .p 0x00000033 = .error (.reservedOpcode 0x33)
    ∧ decode .h 0x000000FF = .error (.reservedOpcode 0xFF) ∧ decode .h 0x0000000F = .error (.reservedOpcode 0x0F) := by decide
/-- Too few bytes are no command word (R120). -/
theorem test_decode_bytes : decodeBytes .h [0x10, 0x04, 0x00] = .error .notOneWord
    ∧ decodeBytes .h [0x10, 0x04, 0x00, 0x00] = .ok (.psInit 4) := by decide
/-- The table's numbering: bit 0 is the least significant bit of the one command word. -/
theorem test_decode_table_word : decodeTableWord 32 0x00080030 = some (.rbInit 8) ∧ decodeTableWord 32 0x33 = none
    ∧ decodeTableWord 40 0x10 = none := by decide

/-! ## Helpers: states that a few commands build -/

/-- The state of an answer, `s` where there is none. -/
def stateOr (s : State) : Answer → State
  | .next t => t
  | .fault _ => s
  | .refused _ => s

/-- The next state of an answer, where there is one. -/
def nextOf : Answer → Option State
  | .next t => some t
  | .fault _ => none
  | .refused _ => none

theorem eq_of_nextOf {a : Answer} {t : State} (h : nextOf a = some t) : a = .next t := by
  cases a with
  | next u => exact congrArg _ (Option.some.inj h)
  | fault _ => cases h
  | refused _ => cases h

/-- The state after the commands, one after the other. -/
def after (is : List Instr) (s : State) : State := is.foldl (fun s i => stateOr s (exec i s)) s

/-- The status and the result that a command leaves on a port. -/
def report (x : Port) (i : Instr) (s : State) : Option (Word × Word) :=
  match exec i s with
  | .next t => some ((t.port x).status, (t.port x).res)
  | .fault _ => none
  | .refused _ => none

/-- The reference configuration with the ring buffer across two clock domains. -/
def cdcCfg : Params := { testCfg with rbCdc := true }

/-- The reference configuration with `PS_MIN = 0` (PS-E2). -/
def zeroMinCfg : Params := { testCfg with psMin := 0 }

/-- After `PS_INIT 4`. -/
def armed : State := after [.psInit 4] State.reset

/-- `armed` in the LOW phase of channel 0, as after 1000 `CLK` steps (M9). -/
def low : State := { armed with ps := { armed.ps with out := 0, phase := .waitingLow, deadline := 4000 } }

/-- With `VAR[4 .. 7] = 0.0, 0.25, 0.5, 1.0` (PS-10). -/
def armedVars : State :=
  { armed with
    vars := [0, 0, 0, 0, 0, 0x3FD0000000000000, 0x3FE0000000000000, 0x3FF0000000000000, 0, 0, 0, 0, 0, 0, 0, 0] }

/-- The operands of R283's example: `IARG = 0x00020100`, `ARG0..5 = 2.0, 0.5, 0.25, 10.0, 1000.0, 100.0`. -/
def operands : State :=
  { State.reset with
    iarg := 0x00020100
    args := #v[0x4000000000000000, 0x3FE0000000000000, 0x3FD0000000000000, 0x4024000000000000, 0x408F400000000000,
      0x4059000000000000] }

/-- The entry that `CL_MAKE 0` writes from `operands` (R283's example). -/
def made : Controller :=
  ⟨true, 0, 1, 2, 0x4000000000000000, 0x3FE0000000000000, 0x3FD0000000000000, 0x4024000000000000, 0x408F400000000000,
    0x4059000000000000, 0, 0⟩

/-- `operands` with entry 0 made and nothing registered yet. -/
def madeState : State :=
  { operands with cl := { operands.cl with table := [made, .reset, .reset, .reset] } }

/-- Entry 0 registered, `VAR[0] = 1.0`, `VAR[1] = 0.25`, and 1000 ticks counted (Program 3 step 11). -/
def running : State :=
  { madeState with
    cl := { madeState.cl with run := true, n := 1, cnt := 1000 }
    vars := [0x3FF0000000000000, 0x3FD0000000000000, 0, 0, 0, 0, 0, 0, 0, 0, 0, 0, 0, 0, 0, 0] }

/-- A ring buffer of length `len` with the indices given and one byte `b` at each place of `js`. -/
def ring (len wr rd : Half) (js : List Nat) (b : Byte) : State :=
  { State.reset with rb := ⟨true, len, wr, rd, js.map fun j => (j, b), 0, 0⟩ }

/-- Two bytes, 0x41 and 0x42, in a buffer of length 8. -/
def two : State := after [.rbInit 8, .rbPush 0x41, .rbPush 0x42] State.reset

/-! ## One step of every command, on the vectors of 95_test_vectors.md -/

/-- Section 2.3: `NOP @P` writes `OK` over `FULL`. -/
theorem test_nop_clears_status :
    nextOf (exec (.nop .p) { State.reset with portP := ⟨1, 0, 0⟩ }) = some State.reset := by decide
/-- Section 2.3: `NOP @C` leaves port H's result. -/
theorem test_nop_own_port : (after [.nop .c] armed).portH = ⟨0, 5000, 0⟩ := by decide

/-- Vectors PS-3 to PS-6. -/
theorem test_psInit_results : [report .h (.psInit 0) State.reset, report .h (.psInit 11) State.reset,
    report .h (.psInit 10) State.reset, report .h (.psInit 3) State.reset]
      = [some (5, 0), some (5, 0), some (0, 2000), some (0, 6666)] := by decide
/-- Vector M8: PS_STAT, PS_SLOT, PS_OUT, PS_DEADLINE after `PS_INIT 4`. -/
theorem test_psInit_state : [psStatWord armed.ps, armed.ps.slot, armed.ps.out, armed.ps.deadline]
    = [0x00040003, 5000, 1, 1000] := by decide
/-- Vectors PS-1 and PS-7. -/
theorem test_psSetChannel_errors : report .h (.psSetChannel 0) State.reset = some (4, 0)
    ∧ report .h (.psSetChannel 4) armed = some (3, 0) := by decide
/-- Section 2.5 and Program 2: 0.3 maps to 1300; the duty of channel 2 alone. -/
theorem test_psSetChannel_duty : (after [.psSetChannel 2] { armed with args := armed.args.set 0 0x3FD3333333333333 }).ps.duty
    = [1000, 1000, 1300, 1000, 1000, 1000, 1000, 1000, 1000, 1000] := by decide +kernel
/-- Vector PS-9. -/
theorem test_psSetAll_duties : (after [.psSetAll] { armed with args := armed.args.set 0 0x3FF0000000000000 }).ps.duty
    = [2000, 2000, 2000, 2000, 1000, 1000, 1000, 1000, 1000, 1000] := by decide +kernel
/-- Vector PS-2. -/
theorem test_psSetAll_not_init : report .h .psSetAll State.reset = some (4, 0) := by decide
/-- Vector PS-10. -/
theorem test_psSetChannels_duties : (after [.psSetChannels 4] armedVars).ps.duty
    = [1000, 1250, 1500, 2000, 1000, 1000, 1000, 1000, 1000, 1000] := by decide +kernel
/-- Vectors PS-11 and PS-12: the last base that fits. -/
theorem test_psSetChannels_range : report .h (.psSetChannels 13) armed = some (3, 0)
    ∧ report .h (.psSetChannels 12) armed = some (0, 0) := by decide +kernel

/-- Vectors M12 and CL-20. -/
theorem test_clMake_entry : (after [.clMake 0] operands).cl.table = [made, .reset, .reset, .reset]
    ∧ ctlRefWord made = 0x01020100 := by decide
/-- Vectors CL-14 to CL-17 and CL-20, in the order of the checks. -/
theorem test_clMake_errors : [report .h (.clMake 0) { operands with iarg := 0x00100100 }, report .h (.clMake 4) operands,
    report .h (.clMake 0) { operands with args := operands.args.set 0 0x7FF0000000000000 },
    report .h (.clMake 0) { operands with args := operands.args.set 3 0xBFF0000000000000 },
    report .h (.clMake 5) { operands with args := operands.args.set 0 0x7FF8000000000000 }]
      = [some (3, 0), some (3, 0), some (5, 0), some (5, 0), some (3, 0)] := by decide
/-- Vectors CL-2 to CL-4. -/
theorem test_clInit_results : report .h (.clInit 1) State.reset = some (4, 0)
    ∧ report .h (.clInit 5) State.reset = some (5, 0) ∧ report .h (.clInit 0) State.reset = some (0, 0) := by decide
/-- Vector M12: CL_STAT; the timer restarts from 0. -/
theorem test_clInit_starts : clStatWord (after [.clInit 1] madeState).cl = 0x00000101
    ∧ (after [.clInit 1] running).cl.cnt = 0 := by decide
/-- Program 3 step 11: the sum, the last error, the clamped output and the result. -/
theorem test_clIterate_values : (ctlAt (after [.clIterate] running).cl 0).sum = 0x3F489374BC6A7EFA
    ∧ (ctlAt (after [.clIterate] running).cl 0).last = 0x3FE8000000000000
    ∧ varAt (after [.clIterate] running) 2 = 0x4059000000000000
    ∧ (after [.clIterate] running).portH.res = 1000 := by decide +kernel
/-- Program 3 step 14: 65541 ticks, the output rounded by its operations. -/
theorem test_clIterate_second : report .h .clIterate
      { running with cl := { running.cl with cnt := 5, ovf := 1 } } = some (0, 65541)
    ∧ varAt (after [.clIterate]
        { running with
          cl := { running.cl with cnt := 5, ovf := 1, table :=
            [{ made with sum := 0x3F489374BC6A7EFA, last := 0x3FE8000000000000 }] } }) 2
      = 0x3FF86634FC610F0F := by decide +kernel

/-- Vectors RB-3 to RB-5. -/
theorem test_rbInit_results : report .p (.rbInit 1) State.reset = some (5, 0)
    ∧ report .p (.rbInit 9) State.reset = some (5, 0) ∧ report .p (.rbInit 2) State.reset = some (0, 1) := by decide
/-- Vector M11: RB_CFG. -/
theorem test_rbInit_cfg : rbCfgWord false (after [.rbInit 8] State.reset).rb = 0x00010008 := by decide
/-- Vector RB-7: the index wraps. -/
theorem test_rbPush_wraps : (after [.rbPush 0x41] (ring 8 7 3 [3, 4, 5, 6] 0)).rb.wr = 0
    ∧ Memory.read (after [.rbPush 0x41] (ring 8 7 3 [3, 4, 5, 6] 0)).rb.mem 7 = some 0x41 := by decide
/-- Vectors RB-1 and RB-5. -/
theorem test_rbPush_errors : report .p (.rbPush 1) State.reset = some (4, 0)
    ∧ report .p (.rbPush 0x11) (ring 2 1 0 [0] 0x10) = some (1, 0) := by decide
/-- Vectors RB-6 and RB-10: the oldest byte is dropped. -/
theorem test_rbPushOverwrite_drops : report .p (.rbPushOverwrite 0x5A) (ring 4 0 1 [1, 2, 3] 0) = some (0, 1)
    ∧ (after [.rbPushOverwrite 0x5A] (ring 4 0 1 [1, 2, 3] 0)).rb
      = ⟨true, 4, 1, 2, [(0, 0x5A), (1, 0), (2, 0), (3, 0)], 0, 0⟩ := by decide
/-- Vectors RB-11 and RB-18. -/
theorem test_rbPushOverwrite_room : report .p (.rbPushOverwrite 0x5B) (ring 4 2 1 [1] 0) = some (0, 0)
    ∧ report .p (.rbPushOverwrite 5) (after [.rbInit 4] (State.resetOf cdcCfg)) = some (6, 0) := by decide
/-- Program 1 step 3, vector RB-2. -/
theorem test_rbIsEmpty : report .c (.rbIsEmpty .c) (ring 8 0 0 [] 0) = some (0, 1)
    ∧ report .c (.rbIsEmpty .c) State.reset = some (4, 0) := by decide
/-- Vector RB-5. -/
theorem test_rbIsFull : report .p (.rbIsFull .p) (ring 2 1 0 [0] 0x10) = some (0, 1)
    ∧ report .p (.rbIsFull .p) (ring 8 6 2 [2, 3, 4, 5] 0) = some (0, 0) := by decide
/-- Vectors RB-8 and RB-9. -/
theorem test_rbPushAvailable : report .p (.rbPushAvailable .p) (ring 8 6 2 [2, 3, 4, 5] 0) = some (0, 3)
    ∧ report .c (.rbPushAvailable .c) (ring 8 1 6 [0, 6, 7] 0) = some (0, 4) := by decide
/-- Vectors RB-8 and RB-9. -/
theorem test_rbPopAvailable : report .c (.rbPopAvailable .c) (ring 8 6 2 [2, 3, 4, 5] 0) = some (0, 4)
    ∧ report .c (.rbPopAvailable .c) (ring 8 1 6 [0, 6, 7] 0) = some (0, 3) := by decide
/-- Vectors RB-12, RB-13 and RB-14. -/
theorem test_rbPop : report .c .rbPop (ring 8 5 3 [3, 4] 0x42) = some (0, 0x42)
    ∧ (after [.rbPop] (ring 8 5 3 [3, 4] 0x42)).rb.rd = 4
    ∧ report .c .rbPop (after [.rbInit 4, .rbPush 0xAA] (State.resetOf cdcCfg)) = some (2, 0) := by decide
/-- Vector RB-12. -/
theorem test_rbPeek : report .c .rbPeek (ring 8 5 3 [3, 4] 0x42) = some (0, 0x42)
    ∧ (after [.rbPeek] (ring 8 5 3 [3, 4] 0x42)).rb.rd = 3 := by decide

/-! ## One step of the other agents -/

/-- Vectors M8 and M9: at the last tick of the pulse, line 0 falls with the deadline 4000. -/
theorem test_clk_falls : (clkStep { armed with ps := { armed.ps with cnt := 999 } }).ps
    = { armed.ps with out := 0, phase := .waitingLow, deadline := 4000 } := by decide
/-- Vector PS-E1, step 5000: channel 1 rises. -/
theorem test_clk_rises : (clkStep { low with ps := { low.ps with cnt := 3999 } }).ps
    = { armed.ps with out := 2, cur := 1 } := by decide
/-- Vector PS-E2: a duty of 0 shows no pulse. -/
theorem test_zero_duty : (after [.psInit 4] (State.resetOf zeroMinCfg)).ps.out = 0
    ∧ (after [.psInit 4] (State.resetOf zeroMinCfg)).ps.deadline = 5000
    ∧ (after [.psInit 4] (State.resetOf zeroMinCfg)).ps.phase = .waitingLow := by decide
/-- Vector CL-13: the overflow counter saturates. -/
theorem test_clk_overflow : clClk { testCfg with clTop := 2 } ⟨true, 0, 1, 65535, []⟩ = ⟨true, 0, 0, 65535, []⟩
    ∧ clClk testCfg ⟨true, 0, 0xFFFF, 0, []⟩ = ⟨true, 0, 0, 1, []⟩ := by decide
/-- Vector RB-15: after `SYNC_C` the consumer sees the byte. -/
theorem test_syncC : report .c .rbPop (stateOr State.reset
    (perform .syncC (after [.rbInit 4, .rbPush 0xAA] (State.resetOf cdcCfg)))) = some (0, 0xAA) := by decide
/-- The reset event keeps the parameters and what stands in the queue. -/
theorem test_reset_event : (platformReset armed).ps = Pulse.reset testCfg ∧ (platformReset armed).resets = 1 := by decide

/-! ## Bus accesses -/

/-- Vectors M5 and M6: the halves and the byte order. -/
theorem test_bus_halves : (writeRegister 0x55667788 (writeRegister 0x11223344 State.reset (.argLo 0)) (.argHi 0)).args[0]
      = 0x5566778811223344
    ∧ [0x10, 0x11, 0x12, 0x13, 0x14, 0x15, 0x16, 0x17].map
        (windowByte { State.reset with args := State.reset.args.set 0 0x5566778811223344 } .h)
      = [0x44, 0x33, 0x22, 0x11, 0x88, 0x77, 0x66, 0x55] := by decide
/-- Vectors M2 to M4 and M7: CMD, a reserved offset, a read-only register, a duty beyond the table. -/
theorem test_bus_reads_zero : [busRead armed .h 0x000, busRead armed .h 0x058, busRead armed .h 0x0A8] = [0, 0, 0]
    ∧ nextOf (busWrite .h 0x044 0xFFFFFFFF armed) = some armed := by decide
/-- M2, M8 and M12: the words that port H shows (R86, R83). -/
theorem test_bus_words : readRegister armed .h .psStat = 0x00040003 ∧ readRegister running .h .clStat = 0x00000101
    ∧ readRegister running .h (.ctlRef 0) = 0x01020100 ∧ readRegister running .h (.ctlHi 0 5) = 0x40590000
    ∧ readRegister armed .h .psOut = 1 := by decide
/-- M13: all 32 bits of `H.IARG` are stored. -/
theorem test_bus_iarg : readRegister (writeRegister 0xAB020100 State.reset .iarg) .h .iarg = 0xAB020100 := by decide
/-- R130: a command line and its port suffix; the refusals of log 27. -/
theorem test_command_line : commandLine "RB_IS_EMPTY" none (some .c) = some (.rbIsEmpty .c)
    ∧ commandLine "RB_IS_EMPTY" none none = none ∧ commandLine "PS_INIT" (some 4) none = some (.psInit 4)
    ∧ commandLine "PS_INIT" (some 256) none = none ∧ commandLine "RB_IS_EMPTY" none (some .h) = none
    ∧ commandLine "RB_POP" none (some .c) = none := by decide
/-- R130 and R131: a bus line with a comment, a pseudo-instruction, a command line, and lines that are refused. -/
theorem test_read_line : readLine "WR H.ARG0_HI, 0x3FE00000 ; kp".toList = some (some (.wr .h (.argHi 0) 0x3FE00000))
    ∧ readLine "PS_SET_CHANNEL 2, 0.5".toList = some (some (.psSetChannel 2 0x3FE0000000000000))
    ∧ readLine "RB_IS_EMPTY @C".toList = some (some (.command (.rbIsEmpty .c)))
    ∧ readLine "RD H.CTL_HI[1][7]".toList = some (some (.rd .h (.ctlHi 1 7)))
    ∧ readLine "RD H.VAR_LO]3".toList = none ∧ readLine "RD H.CMD[".toList = none
    ∧ readLine "RB_IS_EMPTY".toList = none ∧ readLine "PS_INIT 256".toList = none := by decide +kernel
/-- R150: the very next step runs the word that `withFetchWord` places. -/
theorem test_fetch_word : nextOf (step (State.reset.withFetchWord 32 0x00000410)) = some armed
    ∧ nextOf (step (State.reset.withFetchWord 32 0x00000033)) = some (reported State.reset .h 6 0) := by decide

/-! ## Binary64 -/

/-- Section 2.5: the percents at the edges, a NaN, the infinities. -/
theorem test_percent_table : [0x0000000000000000, 0x8000000000000000, 0x0000000000000001, 0x3FD5555555555555,
      0x3FE5555555555555, 0x3FE6666666666666, 0x3FEFF7CED916872B, 0x3FEFFFFFFFFFFFFF, 0x3FF0000000000000,
      0x3FF8000000000000, 0xBFD0000000000000, 0x7FF0000000000000, 0xFFF0000000000000, 0x7FF8000000000001].map
        (mapPercent testCfg)
    = [1000, 1000, 1000, 1333, 1666, 1700, 1999, 1999, 2000, 2000, 1000, 2000, 1000, 1000] := by decide +kernel
/-- R25 and vectors CL-9 and CL-10: signed zeros, an infinity less itself, and the constants of Program 3. -/
theorem test_binary64 : add64 0x8000000000000000 0x8000000000000000 = 0x8000000000000000
    ∧ sub64 0x401E000000000000 0x401E000000000000 = 0 ∧ sub64 0x7FF0000000000000 0x7FF0000000000000 = canonicalNaN
    ∧ sub64 0x3FF0000000000000 0x3FD0000000000000 = 0x3FE8000000000000
    ∧ mul64 0 0x7FF0000000000000 = canonicalNaN ∧ div64 (to64 1000) (to64 1000000) = 0x3F50624DD2F1A9FC
    ∧ div64 (to64 65541) (to64 1000000) = 0x3FB0C74B838C111B := by decide +kernel
/-- Vectors CL-7 and CL-8: a NaN reaches the sum, `last` and the output, and stays in the sum when the error is +0.0. -/
theorem test_pid_nan :
    let s := { running with vars := [canonicalNaN, 0, 0] }
    let t := pidStep (to64 1) s 0
    (ctlAt t.cl 0).sum = canonicalNaN ∧ (ctlAt t.cl 0).last = canonicalNaN ∧ varAt t 2 = canonicalNaN
      ∧ (ctlAt (pidStep (to64 1) { t with vars := [0, 0, 0] } 0).cl 0).sum = canonicalNaN
      ∧ varAt (pidStep (to64 1) { t with vars := [0, 0, 0] } 0) 2 = canonicalNaN := by decide +kernel
/-- R130: decimal literals are rounded to the nearest. -/
theorem test_literals : literalValue (.decimal false 3 (-1)) = 0x3FD3333333333333
    ∧ literalValue (.decimal true 25 (-2)) = 0xBFD0000000000000
    ∧ literalValue (.decimal false 5 (-324)) = 1 := by decide +kernel

/-! ## Witnesses: states that meet the invariants -/

theorem pulseInv_reset : PulseInv testCfg State.reset.ps :=
  ⟨by decide, by decide, fun h => absurd h (by decide), fun h => absurd h (by decide)⟩

theorem pulseInv_armed : PulseInv testCfg armed.ps :=
  ⟨by decide, by decide,
    fun _ => ⟨by decide, by decide, by decide, by decide, by decide, by decide, by decide, by decide, by decide⟩,
    fun _ => ⟨by decide, by decide, by decide, by decide, by decide⟩⟩

theorem pulseInv_low : PulseInv testCfg low.ps :=
  ⟨by decide, by decide,
    fun _ => ⟨by decide, by decide, by decide, by decide, by decide, by decide, by decide, by decide, by decide⟩,
    fun _ => ⟨by decide, by decide, by decide, by decide, by decide⟩⟩

/-- After `PS_INIT 4` with `PS_MIN = 0` (PS-E2). -/
def armedZero : State := after [.psInit 4] (State.resetOf zeroMinCfg)

theorem pulseInv_armedZero : PulseInv zeroMinCfg armedZero.ps :=
  ⟨by decide, by decide,
    fun _ => ⟨by decide, by decide, by decide, by decide, by decide, by decide, by decide, by decide, by decide⟩,
    fun _ => ⟨by decide, by decide, by decide, by decide, by decide⟩⟩

theorem controllerOk_made : ControllerOk testCfg made :=
  ⟨by decide, by decide, by decide, by decide, by decide, by decide, by decide, by decide, by decide⟩

theorem made_of_table (u : Loop) (ht : u.table = [made, .reset, .reset, .reset]) :
    ∀ k < testCfg.clNmax, (ctlAt u k).valid = true → ControllerOk testCfg (ctlAt u k) := by
  intro k hk hv
  unfold ctlAt at hv ⊢
  rw [ht] at hv ⊢
  match k, hk with
  | 0, _ => exact controllerOk_made
  | 1, _ => cases hv
  | 2, _ => cases hv
  | 3, _ => cases hv

theorem loopInv_reset : LoopInv testCfg State.reset.cl := by
  refine ⟨by decide, by decide, by decide, by decide, ?_, by decide⟩
  intro k hk hv
  match k, hk with
  | 0, _ => cases hv
  | 1, _ => cases hv
  | 2, _ => cases hv
  | 3, _ => cases hv

theorem loopInv_running : LoopInv testCfg running.cl :=
  ⟨by decide, by decide, by decide, by decide, made_of_table _ (by decide), by decide⟩

/-- `running` before its first tick. -/
def started : State := { running with cl := { running.cl with cnt := 0 } }

theorem loopInv_started : LoopInv testCfg started.cl :=
  ⟨by decide, by decide, by decide, by decide, made_of_table _ (by decide), by decide⟩

/-- `running` one tick before the overflow. -/
def atTop : State := { running with cl := { running.cl with cnt := 65535 } }

theorem loopInv_atTop : LoopInv testCfg atTop.cl :=
  ⟨by decide, by decide, by decide, by decide, made_of_table _ (by decide), by decide⟩

theorem ringInv_reset : RingInv testCfg State.reset.rb :=
  ⟨by decide, by decide, by decide, fun h => absurd h (by decide), fun h => absurd h (by decide), by decide⟩

theorem ringInv_two : RingInv testCfg two.rb :=
  ⟨by decide, by decide, by decide, fun _ => ⟨by decide, by decide, by decide, by decide, by decide⟩,
    fun _ h => absurd h (by decide), by decide⟩

/-- A full buffer of length 2 (RB-5). -/
def full : State := after [.rbInit 2, .rbPush 0x10] State.reset

theorem ringInv_full : RingInv testCfg full.rb :=
  ⟨by decide, by decide, by decide, fun _ => ⟨by decide, by decide, by decide, by decide, by decide⟩,
    fun _ h => absurd h (by decide), by decide⟩

/-- An empty buffer of length 8. -/
def hollow : State := after [.rbInit 8] State.reset

theorem ringInv_hollow : RingInv testCfg hollow.rb :=
  ⟨by decide, by decide, by decide, fun _ => ⟨by decide, by decide, by decide, by decide, by decide⟩,
    fun _ h => absurd h (by decide), by decide⟩

/-- Across two clock domains: one byte pushed that the consumer sees (RB-15). -/
def crossed : State :=
  stateOr State.reset (perform .syncC (after [.rbInit 4, .rbPush 0xAA] (State.resetOf cdcCfg)))

theorem ringInv_crossed : RingInv cdcCfg crossed.rb :=
  ⟨by decide, by decide, by decide, fun _ => ⟨by decide, by decide, by decide, by decide, by decide⟩,
    fun _ _ => ⟨by decide, by decide, by decide, by decide⟩, by decide⟩

theorem stateInv_reset : StateInv State.reset :=
  ⟨by decide, by decide, pulseInv_reset, loopInv_reset, ringInv_reset, ⟨.ok, by decide⟩, ⟨.ok, by decide⟩,
    ⟨.ok, by decide⟩⟩

/-! ## Witnesses: one per statement with hypotheses, one clause after the other -/

theorem witness_DecodeOfEncodeIsTheCommand :
    (Instr.rbIsEmpty .p).wellFormed = true ∧ (Instr.rbInit 0xFFFF).wellFormed = true
      ∧ (Instr.psInit 0xFF).wellFormed = true := by decide

theorem witness_EncodeOfDecodeIsTheWord : decode .p 0xFFFF0030 = .ok (.rbInit 0xFFFF) := by decide

theorem witness_StepRunsThePlacedCommand :
    State.reset.cfg.wellFormed = true
      ∧ { State.reset with pending := [.bus (cmdWrite testCfg .h 0x410), .clk] }.pending
          = .bus (cmdWrite State.reset.cfg .h 0x410) :: [.clk]
      ∧ decode .h 0x410 = .ok (.psInit 4)
      ∧ { State.reset with pending := [.clk, .reset] }.pending = .clk :: [.reset]
      ∧ State.reset.pending = [] := by decide

theorem witness_IllegalWordOnlyReports :
    State.reset.cfg.wellFormed = true ∧ decode .h 0x100 = .error .nonzeroMbz ∧ decode .c 0x30 = .error .wrongPort := by
  decide

theorem witness_RegistersStandAtTheirOffsets :
    testCfg.wellFormed = true ∧ registerExists testCfg .h (.varHi 15) = true
      ∧ registerExists testCfg .h (.varHi 16) = false ∧ registerExists testCfg .c .rbView = true := by decide

theorem witness_ReservedOffsetsReadZeroIgnoreWrites :
    testCfg.wellFormed = true ∧ ∀ r, registerExists testCfg .h r = true → offsetOf r ≠ 0x058 := by
  refine ⟨by decide, ?_⟩
  intro r _
  cases r <;> simp only [offsetOf] <;> omega

theorem witness_AccessesReachTheirRegister :
    ControllerField made 7 0
      ∧ armed.cfg.wellFormed = true ∧ registerExists armed.cfg .h .psSlot = true
      ∧ (Register.psSlot ≠ .cmd ∧ Register.psSlot ≠ .iarg) ∧ (∀ k, Register.psSlot ≠ .argLo k ∧ Register.psSlot ≠ .argHi k)
      ∧ ∀ i, Register.psSlot ≠ .varLo i ∧ Register.psSlot ≠ .varHi i := by
  refine ⟨rfl, by decide, by decide, by decide, ?_, ?_⟩ <;> intro k <;> exact ⟨nofun, nofun⟩

theorem witness_HalvesAreWrittenIndependently :
    State.reset.cfg.wellFormed = true ∧ State.reset.vars.length = State.reset.cfg.varCount
      ∧ 15 < State.reset.cfg.varCount := by decide

theorem witness_ReadsHaveNoSideEffect :
    (registerAccess testCfg .h .psSlot .read).op = .read
      ∧ busAccess (registerAccess testCfg .h .psSlot .read) armed
          = .next { armed with portH := { armed.portH with rdata := 5000 } } :=
  ⟨rfl, eq_of_nextOf (by decide)⟩

theorem witness_UndefinedAccessesAreRefused :
    testCfg.wellFormed = true
      ∧ (⟨.hostH, .byte, 0, .read⟩ : Access).size ≠ .word ∧ (⟨.hostH, .word, 2, .read⟩ : Access).addr % 4 ≠ 0
      ∧ (∀ x, ¬ (baseOf testCfg x ≤ (⟨.hostH, .word, 0x2040, .read⟩ : Access).addr
          ∧ (⟨.hostH, .word, 0x2040, .read⟩ : Access).addr < baseOf testCfg x + windowSize x))
      ∧ (baseOf testCfg .p ≤ (⟨.hostH, .word, 0x2000, .read⟩ : Access).addr
          ∧ (⟨.hostH, .word, 0x2000, .read⟩ : Access).addr < baseOf testCfg .p + windowSize .p
          ∧ masterOf testCfg .p ≠ (⟨.hostH, .word, 0x2000, .read⟩ : Access).master) := by
  refine ⟨by decide, by decide, by decide, ?_, by decide⟩
  intro x
  cases x <;> decide

theorem witness_ProperAccessesAreNeverRefused :
    testCfg.wellFormed = true ∧ (⟨.masterC, .word, 0x203C, .write 0⟩ : Access).size = .word
      ∧ (⟨.masterC, .word, 0x203C, .write 0⟩ : Access).addr % 4 = 0 ∧ baseOf testCfg .c ≤ 0x203C
      ∧ 0x203C < baseOf testCfg .c + windowSize .c
      ∧ masterOf testCfg .c = (⟨.masterC, .word, 0x203C, .write 0⟩ : Access).master := by decide

theorem witness_WindowBytesAreLittleEndian :
    State.reset.cfg.wellFormed = true ∧ registerExists State.reset.cfg .p .rbCfg = true ∧ 3 < 4 ∧ 7 < 8
      ∧ 15 < State.reset.cfg.varCount := by decide

theorem witness_LoadPseudoInstructionsLoad :
    State.reset.cfg.wellFormed = true ∧ State.reset.vars.length = State.reset.cfg.varCount
      ∧ 15 < State.reset.cfg.varCount := by decide

theorem witness_CommandsReportOnTheirOwnPort :
    (Instr.psInit 4).wellFormed = true ∧ exec (.psInit 4) State.reset = .next armed ∧ Port.p ≠ (Instr.psInit 4).port :=
  ⟨rfl, eq_of_nextOf (by decide), by decide⟩

theorem witness_FailingCommandsChangeNothingElse :
    (runCommand .p 0x00000131 State.reset = .next (reported State.reset .p 4 0)
        ∧ ((reported State.reset .p 4 0).port .p).status ≠ 0 ∧ ((reported State.reset .p 4 0).port .p).status ≠ 7)
      ∧ runCommand .h 0x00000022 started = .next (reported started .h 7 0)
      ∧ ((reported started .h 7 0).port .h).status = 7 :=
  ⟨⟨eq_of_nextOf (by decide), by decide, by decide⟩, eq_of_nextOf (by decide), by decide⟩

theorem witness_CommandsLeaveOperandsAndParameters : exec (.psInit 4) State.reset = .next armed :=
  eq_of_nextOf (by decide)

theorem witness_UnitsKeepToTheirOwnState :
    exec (.psInit 4) State.reset = .next armed ∧ unitOf (.psInit 4) ≠ 2 ∧ unitOf (.psInit 4) ≠ 3
      ∧ exec (.rbInit 8) State.reset = .next hollow ∧ unitOf (.rbInit 8) ≠ 1 :=
  ⟨eq_of_nextOf (by decide), by decide, by decide, eq_of_nextOf (by decide), by decide⟩

theorem witness_PsInitArmsOrRejects :
    testCfg.wellFormed = true ∧ (0 : Byte).toNat < 1 ∧ testCfg.psNmax < (11 : Byte).toNat
      ∧ testCfg.psPeriod < (11 : Byte).toNat * testCfg.psMax
      ∧ (1 ≤ (1 : Byte).toNat ∧ (1 : Byte).toNat ≤ testCfg.psNmax)
      ∧ ((10 : Byte).toNat ≤ testCfg.psNmax ∧ (10 : Byte).toNat * testCfg.psMax ≤ testCfg.psPeriod
        ∧ (10 : Byte).toNat ≤ testCfg.psPeriod)
      ∧ 0 < testCfg.psMin ∧ zeroMinCfg.wellFormed = true ∧ zeroMinCfg.psMin = 0 := by decide

theorem witness_PsSetChannelStoresOneDuty :
    testCfg.wellFormed = true ∧ PulseInv testCfg State.reset.ps ∧ State.reset.ps.armed = false
      ∧ PulseInv testCfg armed.ps ∧ armed.ps.armed = true ∧ armed.ps.n.toNat ≤ (4 : Byte).toNat
      ∧ (3 : Byte).toNat < armed.ps.n.toNat :=
  ⟨by decide, pulseInv_reset, rfl, pulseInv_armed, by decide, by decide, by decide⟩

theorem witness_PsSetAllStoresEveryActiveDuty :
    testCfg.wellFormed = true ∧ PulseInv testCfg State.reset.ps ∧ State.reset.ps.armed = false
      ∧ PulseInv testCfg armed.ps ∧ armed.ps.armed = true :=
  ⟨by decide, pulseInv_reset, rfl, pulseInv_armed, by decide⟩

theorem witness_PsSetChannelsStoresDutiesFromVariables :
    testCfg.wellFormed = true ∧ PulseInv testCfg State.reset.ps ∧ State.reset.ps.armed = false
      ∧ PulseInv testCfg armed.ps ∧ armed.ps.armed = true
      ∧ testCfg.varCount < (13 : Byte).toNat + armed.ps.n.toNat
      ∧ (12 : Byte).toNat + armed.ps.n.toNat ≤ testCfg.varCount :=
  ⟨by decide, pulseInv_reset, rfl, pulseInv_armed, by decide, by decide, by decide⟩

theorem witness_MappedPercentStaysInBounds : testCfg.wellFormed = true ∧ zeroMinCfg.wellFormed = true := by decide

theorem witness_PercentIsClamped :
    testCfg.wellFormed = true ∧ isNaN 0x7FF8000000000001 = true
      ∧ (isNaN 0x8000000000000000 = false ∧ gt64 0x8000000000000000 0 = false)
      ∧ (isNaN one64 = false ∧ lt64 one64 one64 = false)
      ∧ (isNaN 0x3FD3333333333333 = false ∧ lt64 0x3FD3333333333333 0 = false ∧ gt64 0x3FD3333333333333 one64 = false)
      ∧ (lt64 0x8000000000000000 0 = false ∧ gt64 0x8000000000000000 one64 = false ∧ gt64 one64 one64 = false) := by
  decide

theorem witness_PercentMappingIsMonotone :
    testCfg.wellFormed = true ∧ isNaN 0xFFF0000000000000 = false ∧ isNaN one64 = false
      ∧ gt64 0xFFF0000000000000 one64 = false := by decide

/-- `armed` with the count at the deadline, where a PS tick runs the compare event. -/
def due : Pulse := { armed.ps with cnt := 1000 }

theorem witness_CompareEventTakesTheTransition :
    testCfg.wellFormed = true
      ∧ (due.cnt = due.deadline ∧ due.cur.toNat < due.n.toNat ∧ due.n.toNat ≤ testCfg.psNmax ∧ ScheduleInv testCfg due
        ∧ due.phase = .drivingHigh)
      ∧ (low.ps.cur.toNat < low.ps.n.toNat ∧ low.ps.n.toNat ≤ testCfg.psNmax ∧ ScheduleInv testCfg low.ps
        ∧ low.ps.phase = .waitingLow)
      ∧ zeroMinCfg.wellFormed = true ∧ (psStart zeroMinCfg 4).deadline = 0
      ∧ (psStart zeroMinCfg 4).cur.toNat < (psStart zeroMinCfg 4).n.toNat
      ∧ (psStart zeroMinCfg 4).n.toNat ≤ zeroMinCfg.psNmax ∧ ScheduleInv zeroMinCfg (psStart zeroMinCfg 4)
      ∧ (psStart zeroMinCfg 4).phase = .drivingHigh :=
  ⟨by decide, ⟨by decide, by decide, by decide, ⟨by decide, by decide, by decide, by decide, by decide⟩, by decide⟩,
    ⟨by decide, by decide, pulseInv_low.schedule (by decide), by decide⟩, by decide, by decide, by decide, by decide,
    ⟨by decide, by decide, by decide, by decide, by decide⟩, by decide⟩

theorem witness_SettledDeadlineIsPositive :
    zeroMinCfg.wellFormed = true ∧ (psStart zeroMinCfg 4).cur.toNat < (psStart zeroMinCfg 4).n.toNat
      ∧ (psStart zeroMinCfg 4).n.toNat ≤ zeroMinCfg.psNmax ∧ ScheduleInv zeroMinCfg (psStart zeroMinCfg 4)
      ∧ (psStart zeroMinCfg 4).deadline = 0 ∧ (psStart zeroMinCfg 4).phase = .drivingHigh
      ∧ dutyAt (psStart zeroMinCfg 4) (psStart zeroMinCfg 4).cur.toNat = 0
      ∧ ScheduleInv testCfg armed.ps ∧ armed.ps.deadline ≠ 0 :=
  ⟨by decide, by decide, by decide, ⟨by decide, by decide, by decide, by decide, by decide⟩, by decide, by decide,
    by decide, pulseInv_armed.schedule (by decide), by decide⟩

/-- `armed` one tick before its deadline, in the middle of the pulse of channel 0. -/
def lastTick : Pulse := { armed.ps with cnt := 999 }

theorem witness_PrescalerDividesTheClock :
    (({ testCfg with psPrescale := 3 } : Params).wellFormed = true ∧ State.reset.ps.armed = false
        ∧ armed.ps.armed = true ∧ armed.ps.pre = 0 ∧ 2 < ({ testCfg with psPrescale := 3 } : Params).psPrescale
        ∧ (1 : Word).toNat + 1 < ({ testCfg with psPrescale := 3 } : Params).psPrescale)
      ∧ testCfg.wellFormed = true ∧ armed.ps.pre.toNat + 1 = testCfg.psPrescale
      ∧ (PulseInv testCfg armed.ps ∧ armed.ps.cnt.toNat + 1 < armed.ps.deadline.toNat)
      ∧ lastTick.armed = true ∧ PulseInv testCfg lastTick ∧ lastTick.cnt.toNat + 1 = lastTick.deadline.toNat :=
  ⟨by decide, by decide, by decide, ⟨pulseInv_armed, by decide⟩, by decide,
    ⟨by decide, by decide,
      fun _ => ⟨by decide, by decide, by decide, by decide, by decide, by decide, by decide, by decide, by decide⟩,
      fun _ => ⟨by decide, by decide, by decide, by decide, by decide⟩⟩, by decide⟩

theorem witness_FrameTimingFollowsSlotsAndDuties :
    (testCfg.wellFormed = true ∧ PulseInv testCfg armed.ps ∧ armed.ps.armed = true ∧ FrameStart armed.ps)
      ∧ zeroMinCfg.wellFormed = true ∧ PulseInv zeroMinCfg armedZero.ps ∧ armedZero.ps.armed = true
      ∧ FrameStart armedZero.ps :=
  ⟨⟨by decide, pulseInv_armed, by decide, ⟨by decide, by decide, by decide, by decide⟩⟩, by decide, pulseInv_armedZero,
    by decide, ⟨by decide, by decide, by decide, by decide⟩⟩

theorem witness_DutyChangeSparesThePulseInFlight :
    testCfg.wellFormed = true
      ∧ (PulseInv testCfg armed.ps ∧ armed.ps.armed = true ∧ armed.ps.phase = .drivingHigh)
      ∧ (PulseInv testCfg low.ps ∧ low.ps.armed = true ∧ low.ps.phase = .waitingLow)
      ∧ (exec (.psSetChannel 3) armed = .next (after [.psSetChannel 3] armed) ∧ (3 : Byte).toNat < armed.ps.n.toNat)
      ∧ exec .psSetAll low = .next (after [.psSetAll] low)
      ∧ exec (.psSetChannels 12) armed = .next (after [.psSetChannels 12] armed)
      ∧ (12 : Byte).toNat + armed.ps.n.toNat ≤ testCfg.varCount :=
  ⟨by decide, ⟨pulseInv_armed, by decide, by decide⟩, ⟨pulseInv_low, by decide, by decide⟩,
    ⟨eq_of_nextOf (by decide +kernel), by decide⟩, eq_of_nextOf (by decide +kernel), eq_of_nextOf (by decide +kernel),
    by decide⟩

theorem witness_ClockStepCountsAndOverflows :
    testCfg.wellFormed = true ∧ LoopInv testCfg State.reset.cl ∧ State.reset.cl.run = false
      ∧ LoopInv testCfg running.cl ∧ running.cl.run = true ∧ running.cl.cnt.toNat + 1 < testCfg.clTop
      ∧ LoopInv testCfg atTop.cl ∧ atTop.cl.run = true ∧ atTop.cl.cnt.toNat + 1 = testCfg.clTop :=
  ⟨by decide, loopInv_reset, rfl, loopInv_running, by decide, by decide, loopInv_atTop, by decide, by decide⟩

theorem witness_ClMakeWritesOneEntry :
    operands.cl.table.length = testCfg.clNmax ∧ testCfg.clNmax ≤ (4 : Byte).toNat ∧ (3 : Byte).toNat < testCfg.clNmax
      ∧ testCfg.varCount ≤ (iargOut { operands with iarg := 0x00100100 }).toNat
      ∧ (iargSp operands).toNat < testCfg.varCount ∧ (iargMeas operands).toNat < testCfg.varCount
      ∧ (iargOut { operands with iarg := 0x000F0100 }).toNat < testCfg.varCount
      ∧ isFinite (operands.args.set 2 0x7FF0000000000000)[2] = false
      ∧ lt64 (operands.args.set 3 0xBFF0000000000000)[3] 0 = true
      ∧ (∀ j : Fin 6, j.val < 3 → isFinite operands.args[j] = true)
      ∧ (∀ j : Fin 6, 3 ≤ j.val → isNaN operands.args[j] = false ∧ lt64 operands.args[j] 0 = false) := by decide

theorem witness_ClInitStartsTheTimer :
    testCfg.wellFormed = true ∧ testCfg.clNmax < (5 : Byte).toNat
      ∧ ((4 : Byte).toNat ≤ testCfg.clNmax ∧ (ctlAt madeState.cl 3).valid = false)
      ∧ ((1 : Byte).toNat ≤ testCfg.clNmax ∧ ∀ k < (1 : Byte).toNat, (ctlAt madeState.cl k).valid = true)
      ∧ ∀ k < (0 : Byte).toNat, (ctlAt madeState.cl k).valid = true := by decide

theorem witness_ClIterateRunsTheControllersInOrder :
    testCfg.wellFormed = true ∧ LoopInv testCfg State.reset.cl ∧ State.reset.cl.run = false
      ∧ LoopInv testCfg started.cl ∧ started.cl.run = true
      ∧ started.cl.ovf.toNat * testCfg.clTop + started.cl.cnt.toNat = 0
      ∧ LoopInv testCfg running.cl ∧ running.vars.length = testCfg.varCount ∧ running.cl.run = true
      ∧ 0 < running.cl.ovf.toNat * testCfg.clTop + running.cl.cnt.toNat :=
  ⟨by decide, loopInv_reset, rfl, loopInv_started, by decide, by decide, loopInv_running, by decide, by decide, by decide⟩

theorem witness_TicksAreReconstructedUpToSaturation :
    started.cfg.wellFormed = true ∧ started.cl.run = true ∧ started.cl.cnt = 0 ∧ started.cl.ovf = 0
      ∧ (∀ a ∈ [Action.clk, .clk], KeepsTiming started.cfg a)
      ∧ performAll [.clk, .clk] started = .next { started with cl := { started.cl with cnt := 2 } } := by
  refine ⟨by decide, by decide, by decide, by decide, ?_, eq_of_nextOf (by decide)⟩
  intro a ha
  have h : a = .clk := by simpa using ha
  subst h
  exact ⟨nofun, nofun, fun _ => nofun⟩

theorem witness_ClampedTermsStayWithinTheirLimits :
    (limitOk one64 = true ∧ gt64 0x4000000000000000 one64 = true ∧ lt64 0xC000000000000000 (neg64 one64) = true
        ∧ (gt64 one64 one64 = false ∧ lt64 one64 (neg64 one64) = false) ∧ isNaN canonicalNaN = true)
      ∧ ControllerOk testCfg made ∧ isNaN (pidSum made one64 one64) = false
      ∧ isNaN (pidDerivative made one64 one64) = false ∧ isNaN (pidOutput made one64 one64 one64) = false :=
  ⟨by decide, controllerOk_made, by decide +kernel, by decide +kernel, by decide +kernel⟩

/-- Vector CL-9's variables, with the made entry. -/
def settled : State :=
  { madeState with vars := madeState.vars.set 0 0x401E000000000000 |>.set 1 0x401E000000000000 }

theorem witness_ZeroErrorGivesZeroOutput :
    ControllerOk testCfg (ctlAt settled.cl 0) ∧ 0 < settled.cl.table.length
      ∧ (ctlAt settled.cl 0).out.toNat < settled.vars.length ∧ (ctlAt settled.cl 0).sum = 0
      ∧ (ctlAt settled.cl 0).last = 0
      ∧ varAt settled (ctlAt settled.cl 0).sp.toNat = varAt settled (ctlAt settled.cl 0).meas.toNat
      ∧ isFinite (varAt settled (ctlAt settled.cl 0).sp.toNat) = true ∧ isFinite one64 = true ∧ gt64 one64 0 = true :=
  ⟨controllerOk_made, by decide, by decide, by decide, by decide, by decide, by decide, by decide, by decide⟩

/-- `running` with a NaN in the sum of entry 0. -/
def poisoned : State := { running with cl := { running.cl with table := [{ made with sum := canonicalNaN }] } }

theorem witness_NanSumPersistsUntilRemade :
    (exec (.clInit 0) poisoned = .next (after [.clInit 0] poisoned) ∧ (∀ b, Instr.clInit 0 = .clMake b → b.toNat ≠ 0)
        ∧ isNaN (ctlAt poisoned.cl 0).sum = true)
      ∧ 0 < poisoned.cl.table.length ∧ (ctlAt poisoned.cl 0).out.toNat < poisoned.vars.length
      ∧ isNaN (pidError { poisoned with vars := poisoned.vars.set 0 canonicalNaN } (ctlAt poisoned.cl 0)) = true :=
  ⟨⟨eq_of_nextOf (by decide), nofun, by decide⟩, by decide, by decide, by decide⟩

theorem witness_RbInitEmptiesTheBuffer :
    testCfg.wellFormed = true ∧ (1 : Half).toNat < 2 ∧ testCfg.rbSize < (9 : Half).toNat
      ∧ (2 ≤ (2 : Half).toNat ∧ (8 : Half).toNat ≤ testCfg.rbSize)
      ∧ testCfg.rbCdc = false ∧ cdcCfg.wellFormed = true ∧ cdcCfg.rbCdc = true := by decide

theorem witness_RbPushStoresOneByte :
    testCfg.wellFormed = true ∧ RingInv testCfg State.reset.rb ∧ State.reset.rb.ready = false
      ∧ RingInv testCfg full.rb ∧ full.rb.ready = true
      ∧ (full.rb.wr.toNat + 1) % full.rb.len.toNat = (viewRdP full).toNat
      ∧ RingInv testCfg two.rb ∧ two.rb.ready = true
      ∧ (two.rb.wr.toNat + 1) % two.rb.len.toNat ≠ (viewRdP two).toNat :=
  ⟨by decide, ringInv_reset, rfl, ringInv_full, by decide, by decide, ringInv_two, by decide, by decide⟩

theorem witness_RbPushOverwriteDropsTheOldest :
    (cdcCfg.wellFormed = true ∧ RingInv cdcCfg crossed.rb ∧ cdcCfg.rbCdc = true)
      ∧ RingInv testCfg State.reset.rb ∧ testCfg.rbCdc = false ∧ State.reset.rb.ready = false
      ∧ (RingInv testCfg full.rb ∧ full.rb.ready = true ∧ ringNext full.rb.len full.rb.wr = full.rb.rd)
      ∧ RingInv testCfg two.rb ∧ two.rb.ready = true ∧ ringNext two.rb.len two.rb.wr ≠ two.rb.rd :=
  ⟨⟨by decide, ringInv_crossed, rfl⟩, ringInv_reset, rfl, rfl, ⟨ringInv_full, by decide, by decide⟩, ringInv_two,
    by decide, by decide⟩

theorem witness_RbQueriesAnswerFromTheirPort :
    (Port.p = .p ∧ two.rb.wr = two.rb.wr ∧ viewRdP two = viewRdP two) ∧ two.rb.ready = true ∧ 2 ≤ two.rb.len.toNat
      ∧ two.rb.wr.toNat < two.rb.len.toNat ∧ (viewRdP two).toNat < two.rb.len.toNat
      ∧ (viewWrC full).toNat < full.rb.len.toNat ∧ full.rb.rd.toNat < full.rb.len.toNat
      ∧ State.reset.rb.ready = false := by decide

theorem witness_RbPopTakesTheOldestByte :
    testCfg.wellFormed = true ∧ RingInv testCfg State.reset.rb ∧ State.reset.rb.ready = false
      ∧ RingInv testCfg hollow.rb ∧ hollow.rb.ready = true ∧ viewWrC hollow = hollow.rb.rd
      ∧ RingInv testCfg two.rb ∧ two.rb.ready = true ∧ viewWrC two ≠ two.rb.rd
      ∧ cdcCfg.wellFormed = true ∧ RingInv cdcCfg crossed.rb ∧ crossed.rb.ready = true ∧ viewWrC crossed ≠ crossed.rb.rd :=
  ⟨by decide, ringInv_reset, rfl, ringInv_hollow, by decide, by decide, ringInv_two, by decide, by decide, by decide,
    ringInv_crossed, by decide, by decide⟩

theorem witness_RbPeekReadsTheOldestByte :
    testCfg.wellFormed = true ∧ RingInv testCfg State.reset.rb ∧ State.reset.rb.ready = false
      ∧ RingInv testCfg hollow.rb ∧ hollow.rb.ready = true ∧ viewWrC hollow = hollow.rb.rd
      ∧ RingInv testCfg two.rb ∧ two.rb.ready = true ∧ viewWrC two ≠ two.rb.rd :=
  ⟨by decide, ringInv_reset, rfl, ringInv_hollow, by decide, by decide, ringInv_two, by decide, by decide⟩

theorem witness_CountsSumToTheCapacity : 1 ≤ 8 ∧ 7 < 8 ∧ 0 < 8 ∧ (1 ≤ 1 ∧ 0 < 1) := by decide

theorem witness_ContentsFollowTheQueue :
    testCfg.wellFormed = true ∧ RingInv testCfg two.rb
      ∧ (exec (.rbPush 0x43) two = .next (after [.rbPush 0x43] two) ∧ (after [.rbPush 0x43] two).portP.status = 0)
      ∧ (exec (.rbPushOverwrite 0x43) two = .next (after [.rbPushOverwrite 0x43] two)
        ∧ (after [.rbPushOverwrite 0x43] two).portP.status = 0)
      ∧ (exec .rbPop two = .next (after [.rbPop] two) ∧ (after [.rbPop] two).portC.status = 0)
      ∧ (exec .rbPeek two = .next (after [.rbPeek] two) ∧ (after [.rbPeek] two).portC.status = 0)
      ∧ exec (.rbInit 8) two = .next (after [.rbInit 8] two) ∧ (after [.rbInit 8] two).portP.status = 0
      ∧ RingInv testCfg full.rb ∧ (ringContents full).length + 1 = full.rb.len.toNat
      ∧ exec (.rbPushOverwrite 0x11) full = .next (after [.rbPushOverwrite 0x11] full)
      ∧ (after [.rbPushOverwrite 0x11] full).portP.status = 0 :=
  ⟨by decide, ringInv_two, ⟨eq_of_nextOf (by decide), by decide⟩, ⟨eq_of_nextOf (by decide), by decide⟩,
    ⟨eq_of_nextOf (by decide), by decide⟩, ⟨eq_of_nextOf (by decide), by decide⟩, eq_of_nextOf (by decide), by decide,
    ringInv_full, by decide, eq_of_nextOf (by decide), by decide⟩

theorem witness_BytesComeOutInTheOrderPushed :
    hollow.cfg.wellFormed = true ∧ RingInv hollow.cfg hollow.rb ∧ hollow.cfg.rbCdc = false ∧ hollow.rb.ready = true
      ∧ hollow.rb.wr = hollow.rb.rd ∧ [(0x41 : Byte), 0x42, 0x43].length < hollow.rb.len.toNat
      ∧ [(0x41 : Byte), 1, 2, 3, 4, 5, 6].length + 1 = hollow.rb.len.toNat :=
  ⟨by decide, ringInv_hollow, by decide, by decide, by decide, by decide, by decide⟩

theorem witness_SyncStepsCopyOneIndex :
    crossed.cfg.rbCdc = true ∧ State.reset.cfg.rbCdc = false := by decide

theorem witness_ResetMeetsTheInvariant : testCfg.wellFormed = true ∧ cdcCfg.wellFormed = true := by decide

theorem witness_EveryStepKeepsTheInvariant :
    StateInv (State.reset.withFetchWord 32 0x00000410) ∧ step (State.reset.withFetchWord 32 0x00000410) = .next armed :=
  ⟨⟨by decide, by decide, pulseInv_reset, loopInv_reset, ringInv_reset, ⟨.ok, by decide⟩, ⟨.ok, by decide⟩,
    ⟨.ok, by decide⟩⟩, eq_of_nextOf (by decide)⟩

theorem witness_NoStepFaults : StateInv State.reset := stateInv_reset

theorem witness_NanResultsAreCanonical :
    sub64 0x7FF0000000000000 0x7FF0000000000000
        ∈ [add64 0x7FF0000000000000 0x7FF0000000000000, sub64 0x7FF0000000000000 0x7FF0000000000000,
          mul64 0x7FF0000000000000 0x7FF0000000000000, div64 0x7FF0000000000000 0x7FF0000000000000]
      ∧ isNaN (sub64 0x7FF0000000000000 0x7FF0000000000000) = true := by decide

/-- A tie (`1 + 2^-53`), an overflow, a zero difference, and an infinite operand. -/
theorem witness_AdditionRoundsToNearestEven :
    (isFinite one64 = true ∧ isFinite 0x3CA0000000000000 = true ∧ isFinite (add64 one64 0x3CA0000000000000) = true
        ∧ isFinite 0x3FF0000000000001 = true)
      ∧ (isFinite 0x7FEFFFFFFFFFFFFF = true ∧ isFinite (add64 0x7FEFFFFFFFFFFFFF 0x7FEFFFFFFFFFFFFF) = false
        ∧ isFinite (sub64 0x7FEFFFFFFFFFFFFF 0xFFEFFFFFFFFFFFFF) = false)
      ∧ scaled one64 - scaled one64 = 0 ∧ scaled 0x8000000000000000 + scaled 0x8000000000000000 = 0
      ∧ isNaN (add64 0x7FF0000000000000 one64) = false ∧ isInf 0x7FF0000000000000 = true
      ∧ isNaN (sub64 one64 0x7FF0000000000000) = false := by decide +kernel

/-- A tie between zero and the smallest subnormal, an overflow, and an infinite operand. -/
theorem witness_MultiplicationRoundsToNearestEven :
    (isFinite 0x3FE0000000000000 = true ∧ isFinite 1 = true ∧ isFinite (mul64 0x3FE0000000000000 1) = true)
      ∧ (isFinite 0x7FEFFFFFFFFFFFFF = true ∧ isFinite (mul64 0x7FEFFFFFFFFFFFFF 0x4000000000000000) = false)
      ∧ isNaN (mul64 0x7FF0000000000000 one64) = false ∧ isInf 0x7FF0000000000000 = true := by decide +kernel

/-- A third, an overflow, a division by zero, and an infinite divisor. -/
theorem witness_DivisionRoundsToNearestEven :
    (isFinite one64 = true ∧ isFinite 0x4008000000000000 = true ∧ scaled 0x4008000000000000 ≠ 0
        ∧ isFinite (div64 one64 0x4008000000000000) = true)
      ∧ (isFinite 1 = true ∧ scaled 1 ≠ 0 ∧ isFinite (div64 one64 1) = false)
      ∧ (isNaN (div64 one64 0) = false ∧ isFinite 0 = true ∧ scaled 0 = 0)
      ∧ isNaN (div64 one64 0x7FF0000000000000) = false ∧ isInf 0x7FF0000000000000 = true := by decide +kernel

theorem witness_ComparisonsAndConversionAreExact :
    isFinite one64 = true ∧ isFinite 0x8000000000000000 = true ∧ isNaN canonicalNaN = true
      ∧ (isNaN 0x7FF0000000000000 = false ∧ isInf 0x7FF0000000000000 = true)
      ∧ (isNaN 0xFFF0000000000000 = false ∧ isInf 0xFFF0000000000000 = true)
      ∧ 9007199254740991 < 2 ^ 53 := by decide

end Sys2Proof.Tests
end

/-!
PROOFS. The statements of the family 00_scope: a step and its command, the refused accesses, the units' own state, and
binary64.
-/

/-! ## The step -/

namespace Sys2Proof.Proofs

open Sys2Proof.Machine Sys2Proof.Safety Sys2Proof.Laws

/-- The write of a word that decodes runs the decoded command (R150, R151). -/
theorem busAccess_cmdWrite_of_decode {s : State} (h : s.cfg.wellFormed = true) {x : Port} {w : Word} {i : Instr}
    (hd : decode x w = .ok i) : busAccess (cmdWrite s.cfg x w) s = exec i s := by
  rw [busAccess_cmdWrite h, runCommand, hd]

/-- Settles O5: the queue and the free step by the two cases of `step`, the command by the write of its word. -/
theorem stepRunsThePlacedCommand : Obligations.StepRunsThePlacedCommand := by
  refine ⟨fun s a rest h => step_placed h, fun s b rest h => step_placed h, ?_, fun s h => step_free h⟩
  intro s x w i rest hc h hd
  rw [step_placed h]
  exact busAccess_cmdWrite_of_decode (s := { s with pending := rest }) hc hd

/-! ## Refused accesses -/

theorem busAccess_refused_of_size {a : Access} (s : State) (h : a.size ≠ .word) :
    busAccess a s = .refused (.accessWidth a.size) := by
  simp [busAccess, h]

theorem busAccess_refused_of_misaligned {a : Access} (s : State) (hs : a.size = .word) (h : a.addr % 4 ≠ 0) :
    busAccess a s = .refused (.misaligned a.addr) := by
  simp [busAccess, hs, h]

theorem busAccess_refused_of_portAt_none {a : Access} {s : State} (hs : a.size = .word) (h4 : a.addr % 4 = 0)
    (h : portAt s.cfg a.addr = none) : busAccess a s = .refused (.outsideWindows a.addr) := by
  simp [busAccess, hs, h4, h]

theorem busAccess_refused_of_master {a : Access} {s : State} {x : Port} (hs : a.size = .word) (h4 : a.addr % 4 = 0)
    (h : portAt s.cfg a.addr = some x) (hm : masterOf s.cfg x ≠ a.master) :
    busAccess a s = .refused (.secondMaster x) := by
  simp [busAccess, hs, h4, h, hm]

/-- Settles O12: the checks of an access in their order, each refusing by its own reason. -/
theorem undefinedAccessesAreRefused : Obligations.UndefinedAccessesAreRefused := by
  intro a s hc h
  by_cases hs : a.size = .word
  · by_cases h4 : a.addr % 4 = 0
    · rcases h with h | h | h | ⟨x, h1, h2, hm⟩
      · exact absurd hs h
      · exact absurd h4 h
      · exact ⟨_, busAccess_refused_of_portAt_none hs h4 (portAt_none h)⟩
      · exact ⟨_, busAccess_refused_of_master hs h4 (portAt_of_mem hc h1 h2) hm⟩
    · exact ⟨_, busAccess_refused_of_misaligned s hs h4⟩
  · exact ⟨_, busAccess_refused_of_size s hs⟩

/-! ## The units' own state -/

/-- The unit whose commands the constructor belongs to: 1 for PS, 2 for CL, 3 for RB, 0 for `NOP`. -/
def unitNumber : Instr → Nat
  | .nop _ => 0
  | .psInit _ => 1
  | .psSetChannel _ => 1
  | .psSetAll => 1
  | .psSetChannels _ => 1
  | .clMake _ => 2
  | .clInit _ => 2
  | .clIterate => 2
  | .rbInit _ => 3
  | .rbPush _ => 3
  | .rbPushOverwrite _ => 3
  | .rbIsEmpty _ => 3
  | .rbIsFull _ => 3
  | .rbPushAvailable _ => 3
  | .rbPopAvailable _ => 3
  | .rbPop => 3
  | .rbPeek => 3

/-- The opcode's upper digit is the number of the command's unit (R125). -/
theorem unitOf_eq_unitNumber (i : Instr) : unitOf i = unitNumber i := by
  cases i <;> simp only [unitOf, encode, EncodedRow.wordA_opField, EncodedRow.wordL_opField] <;> rfl

/-- From `s` to `t` only the state of unit `u` and the ports' registers may change (R3, R352). -/
structure OnlyUnit (u : Nat) (s t : State) : Prop where
  ps : u ≠ 1 → t.ps = s.ps
  cl : u ≠ 2 → t.cl = s.cl ∧ t.vars = s.vars
  rb : u ≠ 3 → t.rb = s.rb
  resets : t.resets = s.resets

section
variable (u : Nat) (s : State) (x : Port) (c : StatusCode) (v : Word)

/-- A command that only reports changes no unit. -/
theorem onlyUnit_complete : OnlyUnit u s (complete x c v s) := by constructor <;> simp

theorem onlyUnit_ps (p : Pulse) : OnlyUnit 1 s (complete x c v { s with ps := p }) := by constructor <;> simp

theorem onlyUnit_cl (l : Loop) (vs : List F64) : OnlyUnit 2 s (complete x c v { s with cl := l, vars := vs }) := by
  constructor <;> simp

theorem onlyUnit_rb (r : Ring) : OnlyUnit 3 s (complete x c v { s with rb := r }) := by constructor <;> simp

end

/-- The storage bytes are the ring buffer's listed ones and the free values of the reset count. -/
theorem OnlyUnit.ringByte_eq {u : Nat} {s t : State} (h : OnlyUnit u s t) (hu : u ≠ 3) (j : Nat) :
    ringByte t j = ringByte s j := by
  rw [ringByte, ringByte, h.rb hu, h.resets]

theorem ringQuery_onlyUnit {u : Nat} {x : Port} {f : Nat → Nat → Nat → Word} {s t : State}
    (h : ringQuery x f s = .next t) : OnlyUnit u s t := by
  rcases ringQuery_cases x f s with ⟨-, e⟩ | ⟨w, r, -, ⟨-, e⟩ | ⟨-, e⟩⟩ <;>
    · cases e.symm.trans h
      exact onlyUnit_complete ..

section
variable {s t : State}

theorem execPsInit_onlyUnit {n : Byte} (h : execPsInit n s = .next t) : OnlyUnit 1 s t := by
  rcases execPsInit_cases n s with e | ⟨-, e⟩ <;> cases e.symm.trans h
  · exact onlyUnit_complete ..
  · exact onlyUnit_ps ..

theorem execPsSetChannel_onlyUnit {index : Byte} (h : execPsSetChannel index s = .next t) : OnlyUnit 1 s t := by
  rcases execPsSetChannel_cases index s with ⟨-, e⟩ | ⟨-, -, e⟩ | ⟨-, -, e⟩ <;> cases e.symm.trans h
  · exact onlyUnit_complete ..
  · exact onlyUnit_complete ..
  · exact onlyUnit_ps ..

theorem execPsSetAll_onlyUnit (h : execPsSetAll s = .next t) : OnlyUnit 1 s t := by
  rcases execPsSetAll_cases s with ⟨-, e⟩ | ⟨-, e⟩ <;> cases e.symm.trans h
  · exact onlyUnit_complete ..
  · exact onlyUnit_ps ..

theorem execPsSetChannels_onlyUnit {base : Byte} (h : execPsSetChannels base s = .next t) : OnlyUnit 1 s t := by
  rcases execPsSetChannels_cases base s with ⟨-, e⟩ | ⟨-, -, e⟩ | ⟨-, -, e⟩ <;> cases e.symm.trans h
  · exact onlyUnit_complete ..
  · exact onlyUnit_complete ..
  · exact onlyUnit_ps ..

theorem execClMake_onlyUnit {k : Byte} (h : execClMake k s = .next t) : OnlyUnit 2 s t := by
  rcases execClMake_cases k s with e | e | e <;> cases e.symm.trans h
  · exact onlyUnit_complete ..
  · exact onlyUnit_complete ..
  · exact onlyUnit_cl ..

theorem execClInit_onlyUnit {n : Byte} (h : execClInit n s = .next t) : OnlyUnit 2 s t := by
  rcases execClInit_cases n s with e | e | ⟨-, -, e⟩ <;> cases e.symm.trans h
  · exact onlyUnit_complete ..
  · exact onlyUnit_complete ..
  · exact onlyUnit_cl ..

theorem execClIterate_onlyUnit (h : execClIterate s = .next t) : OnlyUnit 2 s t := by
  rcases execClIterate_cases s with ⟨-, e⟩ | ⟨-, -, e⟩ | ⟨-, -, e⟩ <;> cases e.symm.trans h
  · exact onlyUnit_complete ..
  · exact onlyUnit_cl ..
  · rw [foldl_pidStep_frame]
    exact onlyUnit_cl ..

theorem execRbInit_onlyUnit {len : Half} (h : execRbInit len s = .next t) : OnlyUnit 3 s t := by
  rcases execRbInit_cases len s with e | ⟨-, -, e⟩ <;> cases e.symm.trans h
  · exact onlyUnit_complete ..
  · exact onlyUnit_rb ..

theorem execRbPush_onlyUnit {a : Byte} (h : execRbPush a s = .next t) : OnlyUnit 3 s t := by
  obtain ⟨-, rfl⟩ | ⟨-, -, rfl⟩ | ⟨-, -, -, rfl⟩ := execRbPush_next h
  · exact onlyUnit_complete ..
  · exact onlyUnit_complete ..
  · exact onlyUnit_rb ..

theorem execRbPushOverwrite_onlyUnit {a : Byte} (h : execRbPushOverwrite a s = .next t) : OnlyUnit 3 s t := by
  obtain ⟨-, rfl⟩ | ⟨-, -, rfl⟩ | ⟨-, -, -, ⟨-, rfl⟩ | ⟨-, rfl⟩⟩ := execRbPushOverwrite_next h
  · exact onlyUnit_complete ..
  · exact onlyUnit_complete ..
  · exact onlyUnit_rb ..
  · exact onlyUnit_rb ..

theorem execRbPop_onlyUnit (h : execRbPop s = .next t) : OnlyUnit 3 s t := by
  obtain ⟨-, rfl⟩ | ⟨-, -, rfl⟩ | ⟨-, -, -, rfl⟩ := execRbPop_next h
  · exact onlyUnit_complete ..
  · exact onlyUnit_complete ..
  · exact onlyUnit_rb ..

theorem execRbPeek_onlyUnit (h : execRbPeek s = .next t) : OnlyUnit 3 s t := by
  obtain ⟨-, rfl⟩ | ⟨-, -, rfl⟩ | ⟨-, -, -, rfl⟩ := execRbPeek_next h <;> exact onlyUnit_complete ..

/-- A command changes no unit but its own. -/
theorem exec_onlyUnit {i : Instr} (h : exec i s = .next t) : OnlyUnit (unitOf i) s t := by
  rw [unitOf_eq_unitNumber]
  cases i with
  | nop x => cases (execNop_cases x s).symm.trans h; exact onlyUnit_complete ..
  | psInit n => exact execPsInit_onlyUnit h
  | psSetChannel index => exact execPsSetChannel_onlyUnit h
  | psSetAll => exact execPsSetAll_onlyUnit h
  | psSetChannels base => exact execPsSetChannels_onlyUnit h
  | clMake k => exact execClMake_onlyUnit h
  | clInit n => exact execClInit_onlyUnit h
  | clIterate => exact execClIterate_onlyUnit h
  | rbInit len => exact execRbInit_onlyUnit h
  | rbPush a => exact execRbPush_onlyUnit h
  | rbPushOverwrite a => exact execRbPushOverwrite_onlyUnit h
  | rbIsEmpty x => unfold exec execRbIsEmpty at h; exact ringQuery_onlyUnit h
  | rbIsFull x => unfold exec execRbIsFull at h; exact ringQuery_onlyUnit h
  | rbPushAvailable x => unfold exec execRbPushAvailable at h; exact ringQuery_onlyUnit h
  | rbPopAvailable x => unfold exec execRbPopAvailable at h; exact ringQuery_onlyUnit h
  | rbPop => exact execRbPop_onlyUnit h
  | rbPeek => exact execRbPeek_onlyUnit h

end

/-- Settles O19, by `exec_onlyUnit`. -/
theorem unitsKeepToTheirOwnState : Obligations.UnitsKeepToTheirOwnState := by
  intro i s t h
  have hu := exec_onlyUnit h
  exact ⟨hu.ps, hu.cl, fun h3 => ⟨hu.rb h3, hu.ringByte_eq h3⟩⟩

end Sys2Proof.Proofs


/-! ## Binary64: the bits of a value -/

namespace Sys2Proof.Proofs

open Sys2Proof.Machine

/-- The bits of `x` but the sign: exponent and fraction. -/
def bitsOf (x : F64) : Nat := x.toNat % 2 ^ 63

/-- The magnitude that exponent and fraction bits `m` stand for, in units of `2^-1074`, with no largest exponent. -/
def bitsValue (m : Nat) : Nat :=
  if m / 2 ^ 52 = 0 then m % 2 ^ 52 else (2 ^ 52 + m % 2 ^ 52) * 2 ^ (m / 2 ^ 52 - 1)

theorem bitsOf_lt (x : F64) : bitsOf x < 2 ^ 63 := Nat.mod_lt _ (by decide)

theorem signBit_iff (x : F64) : signBit x = true ↔ 2 ^ 63 ≤ x.toNat := by
  have h := x.isLt
  rw [signBit, BitVec.getLsbD, Nat.testBit_eq_decide_div_mod_eq, decide_eq_true_iff]
  omega

theorem biasedExp_eq (x : F64) : biasedExp x = bitsOf x / 2 ^ 52 := by
  unfold biasedExp bitsOf
  omega

theorem fraction_eq (x : F64) : fraction x = bitsOf x % 2 ^ 52 := by
  unfold fraction bitsOf
  omega

theorem magnitude_eq (x : F64) : magnitude x = bitsValue (bitsOf x) := by
  rw [magnitude, bitsValue, biasedExp_eq, fraction_eq]

/-- Finite values lie below the infinity, NaNs above it. -/
theorem isFinite_iff (x : F64) : isFinite x = true ↔ bitsOf x < infBits := by
  have h := bitsOf_lt x
  rw [isFinite, biasedExp_eq, bne_iff_ne, infBits]
  omega

theorem isInf_iff (x : F64) : isInf x = true ↔ bitsOf x = infBits := by
  have h := bitsOf_lt x
  rw [isInf, biasedExp_eq, fraction_eq, Bool.and_eq_true, beq_iff_eq, beq_iff_eq, infBits]
  omega

theorem isNaN_iff (x : F64) : isNaN x = true ↔ infBits < bitsOf x := by
  have h := bitsOf_lt x
  rw [isNaN, biasedExp_eq, fraction_eq, Bool.and_eq_true, beq_iff_eq, bne_iff_ne, infBits]
  omega

theorem isFinite_eq_not (x : F64) : isFinite x = (!isNaN x && !isInf x) := by
  rw [Bool.eq_iff_iff, Bool.and_eq_true, Bool.not_eq_true', Bool.not_eq_true', ← Bool.not_eq_true, ← Bool.not_eq_true,
    isFinite_iff, isNaN_iff, isInf_iff]
  omega

/-- A pattern is a finite value, an infinity or a NaN. -/
theorem classify (x : F64) :
    (isFinite x = true ∧ isInf x = false ∧ isNaN x = false)
    ∨ (isFinite x = false ∧ isInf x = true ∧ isNaN x = false)
    ∨ (isFinite x = false ∧ isInf x = false ∧ isNaN x = true) := by
  simp only [← Bool.not_eq_true, isFinite_iff, isInf_iff, isNaN_iff]
  omega

/-! ## Binary64: a pattern from its sign and its bits -/

section
variable (neg : Bool) {m : Nat} (h : m < 2 ^ 63)
include h

theorem withSign_toNat : (withSign neg m).toNat = m + if neg then 2 ^ 63 else 0 := by
  rw [withSign, BitVec.toNat_ofNat]
  split <;> omega

theorem bitsOf_withSign : bitsOf (withSign neg m) = m := by
  rw [bitsOf, withSign_toNat neg h]
  split <;> omega

theorem signBit_withSign : signBit (withSign neg m) = neg := by
  rw [Bool.eq_iff_iff, signBit_iff, withSign_toNat neg h]
  cases neg
  · simpa using h
  · simp

theorem getLsbD_zero_withSign : (withSign neg m).getLsbD 0 = decide (m % 2 = 1) := by
  rw [BitVec.getLsbD, Nat.testBit_eq_decide_div_mod_eq, withSign_toNat neg h]
  split <;> simp only [decide_eq_decide] <;> omega

end

/-- A pattern is its sign and its bits. -/
theorem withSign_bitsOf (x : F64) : withSign (signBit x) (bitsOf x) = x := by
  apply BitVec.eq_of_toNat_eq
  have h := x.isLt
  rw [withSign_toNat _ (bitsOf_lt x)]
  simp only [signBit_iff, bitsOf]
  split <;> omega

theorem infBits_lt : infBits < 2 ^ 63 := by decide

/-- An infinite pattern is the infinity of its sign. -/
theorem eq_infinity_of_isInf {x : F64} (h : isInf x = true) : x = infinity (signBit x) := by
  rw [infinity, ← (isInf_iff x).mp h, withSign_bitsOf]

@[simp] theorem isInf_infinity (neg : Bool) : isInf (infinity neg) = true := by cases neg <;> decide
@[simp] theorem isNaN_infinity (neg : Bool) : isNaN (infinity neg) = false := by cases neg <;> decide
@[simp] theorem isFinite_infinity (neg : Bool) : isFinite (infinity neg) = false := by cases neg <;> decide
@[simp] theorem signBit_infinity (neg : Bool) : signBit (infinity neg) = neg := by cases neg <;> decide
@[simp] theorem isNaN_zero64 (neg : Bool) : isNaN (zero64 neg) = false := by cases neg <;> decide
@[simp] theorem isFinite_zero64 (neg : Bool) : isFinite (zero64 neg) = true := by cases neg <;> decide
@[simp] theorem signBit_zero64 (neg : Bool) : signBit (zero64 neg) = neg := by cases neg <;> decide
@[simp] theorem scaled_zero64 (neg : Bool) : scaled (zero64 neg) = 0 := by cases neg <;> decide
@[simp] theorem isNaN_canonicalNaN : isNaN canonicalNaN = true := by decide

/-! ## Binary64: the negation -/

theorem signBit_neg64 (x : F64) : signBit (neg64 x) = !signBit x := by
  simp [signBit, neg64]

theorem bitsOf_neg64 (x : F64) : bitsOf (neg64 x) = bitsOf x := by
  have hs : (1#64 <<< 63).toNat = 2 ^ 63 := by decide
  rw [bitsOf, neg64, BitVec.toNat_xor, hs, Nat.xor_mod_two_pow, Nat.mod_self, Nat.xor_zero, bitsOf]

@[simp] theorem isNaN_neg64 (x : F64) : isNaN (neg64 x) = isNaN x := by
  rw [Bool.eq_iff_iff, isNaN_iff, isNaN_iff, bitsOf_neg64]

@[simp] theorem isInf_neg64 (x : F64) : isInf (neg64 x) = isInf x := by
  rw [Bool.eq_iff_iff, isInf_iff, isInf_iff, bitsOf_neg64]

@[simp] theorem isFinite_neg64 (x : F64) : isFinite (neg64 x) = isFinite x := by
  rw [Bool.eq_iff_iff, isFinite_iff, isFinite_iff, bitsOf_neg64]

theorem scaled_eq (x : F64) : scaled x = if signBit x then -(bitsValue (bitsOf x) : Int) else bitsValue (bitsOf x) := by
  rw [scaled, magnitude_eq]

@[simp] theorem scaled_neg64 (x : F64) : scaled (neg64 x) = -scaled x := by
  rw [scaled_eq, scaled_eq, bitsOf_neg64, signBit_neg64]
  cases signBit x <;> simp

theorem scaled_natAbs (x : F64) : (scaled x).natAbs = magnitude x := by
  unfold scaled
  split <;> simp

theorem scaled_eq_zero_iff (x : F64) : scaled x = 0 ↔ magnitude x = 0 := by
  rw [← Int.natAbs_eq_zero, scaled_natAbs]

end Sys2Proof.Proofs


/-! ## Binary64: the spacing of the values -/

namespace Sys2Proof.Proofs

open Sys2Proof.Machine

/-- The bits of `q` multiples of `2^k` units: `q` with its leading bit in place, or `k` exponent steps of 0. The carry
`q = 2^53` is the first value of the next exponent. -/
theorem bitsValue_steps {k q : Nat} (hq : q ≤ 2 ^ 53) (hk : k = 0 ∨ 2 ^ 52 ≤ q) :
    bitsValue (k * 2 ^ 52 + q) = q * 2 ^ k := by
  unfold bitsValue
  by_cases hs : q < 2 ^ 52
  · obtain rfl : k = 0 := by omega
    rw [if_pos (by omega)]
    omega
  · rw [if_neg (by omega)]
    by_cases hc : q = 2 ^ 53
    · have he : (k * 2 ^ 52 + q) / 2 ^ 52 - 1 = k + 1 := by omega
      have hf : (k * 2 ^ 52 + q) % 2 ^ 52 = 0 := by omega
      rw [he, hf, hc, pow_succ]
      omega
    · have he : (k * 2 ^ 52 + q) / 2 ^ 52 - 1 = k := by omega
      have hf : 2 ^ 52 + (k * 2 ^ 52 + q) % 2 ^ 52 = q := by omega
      rw [he, hf]

/-- Every pattern of magnitude bits has that form. -/
theorem exists_steps (m : Nat) : ∃ k q, m = k * 2 ^ 52 + q ∧ q < 2 ^ 53 ∧ (k = 0 ∨ 2 ^ 52 ≤ q) :=
  ⟨m / 2 ^ 52 - 1, m - (m / 2 ^ 52 - 1) * 2 ^ 52, by omega, by omega, by omega⟩

/-- More bits, more magnitude. -/
theorem bitsValue_strictMono : StrictMono bitsValue := by
  refine strictMono_nat_of_lt_succ fun m => ?_
  obtain ⟨k, q, rfl, hq, hk⟩ := exists_steps m
  rw [bitsValue_steps (by omega) hk, add_assoc, bitsValue_steps (by omega) (by omega)]
  exact Nat.mul_lt_mul_of_pos_right (by omega) (by positivity)

@[simp] theorem bitsValue_zero : bitsValue 0 = 0 := rfl

/-! ## Binary64: rounding -/

/-- The magnitude bits of the rounded fraction with no largest exponent: what `roundBits` cuts at the infinity. -/
def unboundedBits (num den : Nat) : Nat :=
  (Nat.log2 (num / den) - 52) * 2 ^ 52 + roundQuotient num (den * 2 ^ (Nat.log2 (num / den) - 52))

theorem roundBits_eq_min (num den : Nat) : roundBits num den = min (unboundedBits num den) infBits := rfl

/-- The integer quotient, or the next integer where that one is nearer, or on a tie the even one of the two. -/
theorem roundQuotient_cases (num den : Nat) :
    (roundQuotient num den = num / den ∧ 2 * (num % den) < den)
    ∨ (roundQuotient num den = num / den + 1 ∧ den < 2 * (num % den))
    ∨ (2 * (num % den) = den ∧ roundQuotient num den % 2 = 0
        ∧ (roundQuotient num den = num / den ∨ roundQuotient num den = num / den + 1)) := by
  simp only [roundQuotient]
  split
  · omega
  · split <;> omega

/-- The quotient in units of the spacing has 53 bits, or fewer at the smallest spacing. -/
theorem quotient_in_range (n : Nat) :
    n / 2 ^ (Nat.log2 n - 52) < 2 ^ 53 ∧ (Nat.log2 n - 52 = 0 ∨ 2 ^ 52 ≤ n / 2 ^ (Nat.log2 n - 52)) := by
  by_cases h0 : n = 0
  · simp [h0]
  have hlo := Nat.log2_self_le h0
  have hhi := Nat.lt_log2_self (n := n)
  refine ⟨Nat.div_lt_of_lt_mul ?_, ?_⟩
  · rw [← pow_add]
    exact hhi.trans_le (Nat.pow_le_pow_right (by decide) (by omega))
  · by_cases hk : Nat.log2 n - 52 = 0
    · exact .inl hk
    · refine .inr ((Nat.le_div_iff_mul_le (by positivity)).mpr ?_)
      rwa [← pow_add, show 52 + (Nat.log2 n - 52) = Nat.log2 n by omega]

/-- `m` are the bits of a fraction `num / den` that lies from the value of `l` to below the next value, rounded to the
nearer of the two, on a tie to the even bits. -/
structure RoundsBetween (num den l m : Nat) : Prop where
  le : bitsValue l * den ≤ num
  lt : num < bitsValue (l + 1) * den
  choice :
    (m = l ∧ 2 * num < bitsValue l * den + bitsValue (l + 1) * den)
    ∨ (m = l + 1 ∧ bitsValue l * den + bitsValue (l + 1) * den < 2 * num)
    ∨ (2 * num = bitsValue l * den + bitsValue (l + 1) * den ∧ m % 2 = 0 ∧ (m = l ∨ m = l + 1))

/-- The rounding chooses between the two values around the fraction. -/
theorem unboundedBits_roundsBetween (num : Nat) {den : Nat} (hd : 0 < den) :
    ∃ l, RoundsBetween num den l (unboundedBits num den) := by
  obtain ⟨hq, hk⟩ := quotient_in_range (num / den)
  rw [Nat.div_div_eq_div_mul] at hq hk
  unfold unboundedBits
  generalize Nat.log2 (num / den) - 52 = k at *
  have hc := roundQuotient_cases num (den * 2 ^ k)
  have hmod := Nat.mod_lt num (show 0 < den * 2 ^ k by positivity)
  have hsum := Nat.div_add_mod num (den * 2 ^ k)
  generalize num / (den * 2 ^ k) = q at *
  have hlo : bitsValue (k * 2 ^ 52 + q) * den = den * 2 ^ k * q := by
    rw [bitsValue_steps (by omega) hk]; ring
  have hhi : bitsValue (k * 2 ^ 52 + q + 1) * den = den * 2 ^ k * q + den * 2 ^ k := by
    rw [add_assoc, bitsValue_steps (by omega) (by omega)]; ring
  refine ⟨k * 2 ^ 52 + q, by omega, by omega, ?_⟩
  rw [hlo, hhi]
  omega

theorem RoundsBetween.den_pos {num den l m : Nat} (h : RoundsBetween num den l m) : 0 < den :=
  Nat.pos_of_ne_zero fun h0 => by simpa [h0] using h.lt

theorem RoundsBetween.value_lt_value {num den l m : Nat} (h : RoundsBetween num den l m) {i j : Nat} (hij : i < j) :
    bitsValue i * den < bitsValue j * den :=
  Nat.mul_lt_mul_of_pos_right (bitsValue_strictMono hij) h.den_pos

/-- No bits stand for a value nearer to the fraction, and others for one as near only when the chosen ones are even. -/
theorem RoundsBetween.nearest {num den l m : Nat} (h : RoundsBetween num den l m) (n : Nat) :
    |(bitsValue m * den - num : Int)| ≤ |(bitsValue n * den - num : Int)|
      ∧ (|(bitsValue m * den - num : Int)| = |(bitsValue n * den - num : Int)| → n ≠ m → m % 2 = 0) := by
  have hbelow : n < l → bitsValue n * den < bitsValue l * den := h.value_lt_value
  have habove : l + 1 < n → bitsValue (l + 1) * den < bitsValue n * den := h.value_lt_value
  have hplace : n < l ∨ n = l ∨ n = l + 1 ∨ l + 1 < n := by omega
  obtain ⟨hlo, hhi, hc⟩ := h
  simp only [abs_eq_max_neg, ← Nat.cast_mul]
  rcases hplace with hn | rfl | rfl | hn <;> rcases hc with ⟨rfl, hc⟩ | ⟨rfl, hc⟩ | ⟨hc, he, rfl | rfl⟩ <;> omega

/-- The rounded bits lie at or below an odd `n` exactly when the fraction lies below the middle between the values of `n`
and the next bits: in the middle itself the next bits are the even ones. -/
theorem RoundsBetween.le_iff_of_odd {num den l m : Nat} (h : RoundsBetween num den l m) {n : Nat} (hn : n % 2 = 1) :
    m ≤ n ↔ 2 * num < bitsValue n * den + bitsValue (n + 1) * den := by
  have hnext := h.value_lt_value (Nat.lt_add_one n)
  have hbelow : n + 1 < l → bitsValue (n + 1) * den < bitsValue l * den := h.value_lt_value
  have habove : l + 1 < n → bitsValue (l + 1) * den < bitsValue n * den := h.value_lt_value
  have hplace : n + 1 < l ∨ n + 1 = l ∨ n = l ∨ n = l + 1 ∨ l + 1 < n := by omega
  obtain ⟨hlo, hhi, hc⟩ := h
  rcases hplace with hl | rfl | rfl | rfl | hl <;> omega

/-! ## Binary64: the rounded value -/

/-- The least magnitude, in units of `2^-1074`, that rounds to an infinity: the middle between the largest finite value
and `2^1024`. -/
def overflowBound : Nat := (2 ^ 1024 - 2 ^ 970) * 2 ^ 1074

/-- The largest finite value and the next one that the spacing would give, `2^1024`, lie around the bound. -/
theorem bitsValue_add_bitsValue_infBits : bitsValue (infBits - 1) + bitsValue infBits = 2 * overflowBound := by
  have hmax : infBits - 1 = 2045 * 2 ^ 52 + (2 ^ 53 - 1) := rfl
  have hinf : infBits = 2045 * 2 ^ 52 + 2 ^ 53 := rfl
  rw [hmax, hinf, bitsValue_steps (by decide) (by decide), bitsValue_steps (by decide) (by decide), overflowBound,
    ← Nat.add_mul]
  have hbound : 2 ^ 1024 - 2 ^ 970 = (2 ^ 53 - 1 + 2 ^ 53) * 2 ^ 970 := by
    rw [show 2 ^ 53 - 1 + 2 ^ 53 = 2 ^ 54 - 1 by decide, Nat.sub_one_mul, ← pow_add]
  have hpow : 2 ^ 2045 = 2 * (2 ^ 970 * 2 ^ 1074) := by rw [← pow_add, ← pow_succ']
  rw [hbound, hpow, Nat.mul_left_comm, Nat.mul_assoc]

/-- The unbounded rounding stays below the infinity exactly for fractions below the bound. -/
theorem unboundedBits_lt_infBits_iff (num : Nat) {den : Nat} (hd : 0 < den) :
    unboundedBits num den < infBits ↔ num < overflowBound * den := by
  obtain ⟨l, h⟩ := unboundedBits_roundsBetween num hd
  have hodd := h.le_iff_of_odd (n := infBits - 1) (by decide)
  rw [show infBits - 1 + 1 = infBits from rfl, ← Nat.add_mul, bitsValue_add_bitsValue_infBits, Nat.mul_assoc] at hodd
  have hpos : 0 < infBits := by decide
  omega

theorem roundBits_lt (num den : Nat) : roundBits num den < 2 ^ 63 :=
  (Nat.min_le_right ..).trans_lt infBits_lt

@[simp] theorem signBit_roundTo (neg : Bool) (num den : Nat) : signBit (roundTo neg num den) = neg :=
  signBit_withSign neg (roundBits_lt num den)

@[simp] theorem bitsOf_roundTo (neg : Bool) (num den : Nat) : bitsOf (roundTo neg num den) = roundBits num den :=
  bitsOf_withSign neg (roundBits_lt num den)

@[simp] theorem isNaN_roundTo (neg : Bool) (num den : Nat) : isNaN (roundTo neg num den) = false := by
  rw [← Bool.not_eq_true, isNaN_iff, bitsOf_roundTo, Nat.not_lt]
  exact Nat.min_le_right ..

/-- A rounded value is finite exactly when the exact one lies below the bound. -/
theorem isFinite_roundTo_iff (neg : Bool) (num : Nat) {den : Nat} (hd : 0 < den) :
    isFinite (roundTo neg num den) = true ↔ num < overflowBound * den := by
  rw [isFinite_iff, bitsOf_roundTo, roundBits_eq_min, ← unboundedBits_lt_infBits_iff num hd]
  omega

/-- Beyond the bound the rounded value is the infinity of its sign. -/
theorem roundTo_eq_infinity {neg : Bool} {num den : Nat} (h : isFinite (roundTo neg num den) = false) :
    roundTo neg num den = infinity neg := by
  have hb : roundBits num den = infBits := by
    rw [← Bool.not_eq_true, isFinite_iff, bitsOf_roundTo] at h
    exact le_antisymm (Nat.min_le_right ..) (Nat.not_lt.mp h)
  rw [roundTo, hb, infinity]

/-- A finite rounded value has the bits of the unbounded rounding. -/
theorem bitsOf_roundTo_of_isFinite {neg : Bool} {num den : Nat} (h : isFinite (roundTo neg num den) = true) :
    bitsOf (roundTo neg num den) = unboundedBits num den := by
  rw [isFinite_iff, bitsOf_roundTo, roundBits_eq_min] at h
  rw [bitsOf_roundTo, roundBits_eq_min]
  omega

theorem getLsbD_zero_eq (x : F64) : x.getLsbD 0 = decide (bitsOf x % 2 = 1) := by
  conv_lhs => rw [← withSign_bitsOf x]
  exact getLsbD_zero_withSign _ (bitsOf_lt x)

end Sys2Proof.Proofs


/-! ## Binary64: nearest values, with the sign -/

namespace Sys2Proof.Proofs

open Sys2Proof.Machine

/-- No finite value is nearer to `x / den` than `r`, and when another one is as near, the last bit of `r` is 0. -/
def NearestEven (r : F64) (den : Nat) (x : Int) : Prop :=
  ∀ c, isFinite c = true →
    |scaled r * den - x| ≤ |scaled c * den - x|
      ∧ (|scaled r * den - x| = |scaled c * den - x| → scaled c ≠ scaled r → r.getLsbD 0 = false)

/-- A magnitude with a sign. -/
def withSignInt (neg : Bool) (n : Nat) : Int := if neg then -(n : Int) else n

theorem scaled_eq_withSignInt (x : F64) : scaled x = withSignInt (signBit x) (bitsValue (bitsOf x)) := scaled_eq x

theorem withSignInt_natAbs (neg : Bool) (n : Nat) : (withSignInt neg n).natAbs = n := by cases neg <;> simp [withSignInt]

theorem abs_withSignInt (neg : Bool) (n : Nat) : |withSignInt neg n| = n := by
  rw [Int.abs_eq_natAbs, withSignInt_natAbs]

@[simp] theorem withSignInt_zero (neg : Bool) : withSignInt neg 0 = 0 := by cases neg <;> rfl

theorem withSignInt_mul (s t : Bool) (m n : Nat) :
    withSignInt s m * withSignInt t n = withSignInt (s != t) (m * n) := by
  cases s <;> cases t <;> simp [withSignInt]

theorem withSignInt_mul_nat (s : Bool) (m n : Nat) : withSignInt s m * n = withSignInt s (m * n) := by
  cases s <;> simp [withSignInt]

/-- The distance to a number of the same sign is that of the magnitudes; to the other sign it is their sum. -/
theorem abs_withSignInt_sub (s t : Bool) (m n : Nat) :
    |withSignInt s m - withSignInt t n| = if s = t then |(m - n : Int)| else (m + n : Int) := by
  cases s <;> cases t <;> simp only [withSignInt, abs_eq_max_neg] <;> grind

/-- Among the magnitudes the rounded bits are nearest, the fraction's own magnitude being one way to 0. -/
theorem unboundedBits_nearest (num : Nat) {den : Nat} (hd : 0 < den) (n : Nat) :
    |((bitsValue (unboundedBits num den) * den : Nat) - num : Int)| ≤ |((bitsValue n * den : Nat) - num : Int)|
      ∧ (|((bitsValue (unboundedBits num den) * den : Nat) - num : Int)| = |((bitsValue n * den : Nat) - num : Int)| →
          n ≠ unboundedBits num den → unboundedBits num den % 2 = 0) := by
  obtain ⟨l, h⟩ := unboundedBits_roundsBetween num hd
  exact_mod_cast h.nearest n

/-- The rounding of `± num / den`, where it is finite, is the nearest value. A value of the other sign is no nearer than 0,
and as near only when it is 0 itself. -/
theorem roundTo_nearestEven {neg : Bool} {num den : Nat} (hd : 0 < den)
    (hf : isFinite (roundTo neg num den) = true) : NearestEven (roundTo neg num den) den (withSignInt neg num) := by
  intro c _
  rw [getLsbD_zero_eq, scaled_eq_withSignInt, scaled_eq_withSignInt c, signBit_roundTo, bitsOf_roundTo_of_isFinite hf]
  simp only [withSignInt_mul_nat, abs_withSignInt_sub, decide_eq_false_iff_not, if_true]
  by_cases hs : signBit c = neg
  · obtain ⟨hle, heven⟩ := unboundedBits_nearest num hd (bitsOf c)
    rw [if_pos hs, hs]
    refine ⟨hle, fun heq hne => ?_⟩
    have := heven heq fun e => hne (by rw [e])
    omega
  · obtain ⟨hle, heven⟩ := unboundedBits_nearest num hd 0
    have hzero : |((bitsValue 0 * den : Nat) - num : Int)| = num := by simp
    rw [hzero] at hle heven
    rw [if_neg hs]
    refine ⟨by omega, fun heq hne => ?_⟩
    have hc : bitsValue (bitsOf c) = 0 := (Nat.mul_eq_zero.mp (by omega)).resolve_right hd.ne'
    have := heven (by omega) fun e => hne (by rw [← e, hc, bitsValue_zero, withSignInt_zero, withSignInt_zero])
    omega

/-- A fraction that is a value of the format is rounded to it. -/
theorem roundBits_of_eq {num den m : Nat} (hd : 0 < den) (h : bitsValue m * den = num) (hm : m ≤ infBits) :
    roundBits num den = m := by
  have hle := (unboundedBits_nearest num hd m).1
  rw [h, sub_self, abs_zero, abs_nonpos_iff, sub_eq_zero, ← h, Nat.cast_inj, Nat.mul_left_inj hd.ne',
    bitsValue_strictMono.injective.eq_iff] at hle
  rw [roundBits_eq_min, ← h, hle]
  exact Nat.min_eq_left hm

/-- Zero is rounded to the zero of the sign. -/
theorem roundTo_zero (neg : Bool) {den : Nat} (hd : 0 < den) : roundTo neg 0 den = zero64 neg := by
  rw [roundTo, roundBits_of_eq (m := 0) hd (Nat.zero_mul den) (Nat.zero_le _), zero64]

end Sys2Proof.Proofs


/-! ## Binary64: what the operations answer -/

namespace Sys2Proof.Proofs

open Sys2Proof.Machine

theorem intCast_overflowBound : (overflowBound : Int) = (2 ^ 1024 - 2 ^ 970) * 2 ^ 1074 := by
  have h : 2 ^ 970 ≤ 2 ^ 1024 := by gcongr <;> decide
  rw [overflowBound, Nat.cast_mul, Nat.cast_sub h, Nat.cast_pow, Nat.cast_pow, Nat.cast_pow, Nat.cast_ofNat]

theorem isFinite_iff_not (x : F64) : isFinite x = true ↔ isNaN x = false ∧ isInf x = false := by
  simp [isFinite_eq_not]

theorem not_isNaN_of_isFinite {x : F64} (h : isFinite x = true) : isNaN x = false := ((isFinite_iff_not x).mp h).1

theorem not_isInf_of_isFinite {x : F64} (h : isFinite x = true) : isInf x = false := ((isFinite_iff_not x).mp h).2

theorem not_isFinite_of_isInf {x : F64} (h : isInf x = true) : isFinite x = false := by
  simp [isFinite_eq_not, h]

/-- What is no NaN and not finite is an infinity. -/
theorem isInf_of_not_isFinite {r : F64} (hn : isNaN r = false) (hf : isFinite r = false) : isInf r = true := by
  simpa [isFinite_eq_not, hn] using hf

/-- An operation that answers the canonical NaN under a condition, and else no NaN, answers a NaN under the condition. -/
theorem isNaN_ite_canonicalNaN_iff {c : Prop} [Decidable c] {r : F64} (hr : isNaN r = false) :
    isNaN (if c then canonicalNaN else r) = true ↔ c := by
  split_ifs with hc <;> simp [hc, hr]

/-- Where such an operation answers no NaN, it answers the other result. -/
theorem ite_canonicalNaN_eq {c : Prop} [Decidable c] {r : F64}
    (h : isNaN (if c then canonicalNaN else r) = false) : (if c then canonicalNaN else r) = r := by
  refine if_neg fun hc => ?_
  simp [hc] at h

section
variable {a b : F64}

/-! ### Each operation by the classes of its operands -/

theorem add64_of_isNaN (h : isNaN a = true ∨ isNaN b = true) : add64 a b = canonicalNaN := by
  rcases h with h | h <;> simp [add64, h]

theorem add64_of_isInf_left (ha : isInf a = true) (hna : isNaN a = false) (hnb : isNaN b = false) :
    add64 a b = if isInf b = true ∧ signBit a ≠ signBit b then canonicalNaN else a := by
  simp only [add64, hna, hnb, ha, ← eq_infinity_of_isInf ha]
  simp

theorem add64_of_isInf_right (hb : isInf b = true) (ha : isFinite a = true) (hnb : isNaN b = false) :
    add64 a b = b := by
  simp [add64, not_isNaN_of_isFinite ha, hnb, not_isInf_of_isFinite ha, hb, ← eq_infinity_of_isInf hb]

theorem add64_of_isFinite (ha : isFinite a = true) (hb : isFinite b = true) :
    add64 a b = if scaled a + scaled b = 0 then zero64 (signBit a && signBit b)
      else roundTo (decide (scaled a + scaled b < 0)) (scaled a + scaled b).natAbs 1 := by
  simp [add64, not_isNaN_of_isFinite ha, not_isNaN_of_isFinite hb, not_isInf_of_isFinite ha, not_isInf_of_isFinite hb]

/-- The sum of finite values is the exact sum rounded, with its sign. -/
theorem exists_add64_eq_roundTo (ha : isFinite a = true) (hb : isFinite b = true) :
    ∃ neg, add64 a b = roundTo neg (scaled a + scaled b).natAbs 1
      ∧ withSignInt neg (scaled a + scaled b).natAbs = scaled a + scaled b := by
  rw [add64_of_isFinite ha hb]
  by_cases h0 : scaled a + scaled b = 0
  · exact ⟨signBit a && signBit b, by rw [if_pos h0, h0, Int.natAbs_zero, roundTo_zero _ Nat.one_pos],
      by rw [h0, Int.natAbs_zero, withSignInt_zero]⟩
  · refine ⟨decide (scaled a + scaled b < 0), if_neg h0, ?_⟩
    simp only [withSignInt, decide_eq_true_eq]
    split <;> omega

theorem sub64_eq_add64 (h : isNaN b = false) : sub64 a b = add64 a (neg64 b) := by simp [sub64, h]

theorem sub64_of_isNaN (h : isNaN a = true ∨ isNaN b = true) : sub64 a b = canonicalNaN := by
  cases hb : isNaN b
  · rw [sub64_eq_add64 hb]
    exact add64_of_isNaN (by simpa using h)
  · simp [sub64, hb]

theorem mul64_of_isNaN (h : isNaN a = true ∨ isNaN b = true) : mul64 a b = canonicalNaN := by
  rcases h with h | h <;> simp [mul64, h]

theorem mul64_of_isInf (ha : isNaN a = false) (hb : isNaN b = false) (h : isInf a = true ∨ isInf b = true) :
    mul64 a b = if (isFinite a = true ∧ scaled a = 0) ∨ (isFinite b = true ∧ scaled b = 0) then canonicalNaN
      else infinity (signBit a != signBit b) := by
  simp only [scaled_eq_zero_iff]
  simp [mul64, ha, hb, h]

theorem mul64_of_isFinite (ha : isFinite a = true) (hb : isFinite b = true) :
    mul64 a b = roundTo (signBit a != signBit b) (magnitude a * magnitude b) unitsPerOne := by
  simp [mul64, not_isNaN_of_isFinite ha, not_isNaN_of_isFinite hb, not_isInf_of_isFinite ha, not_isInf_of_isFinite hb]

theorem div64_of_isNaN (h : isNaN a = true ∨ isNaN b = true) : div64 a b = canonicalNaN := by
  rcases h with h | h <;> simp [div64, h]

theorem div64_of_isInf_left (ha : isInf a = true) (hna : isNaN a = false) (hnb : isNaN b = false) :
    div64 a b = if isInf b = true then canonicalNaN else infinity (signBit a != signBit b) := by
  simp [div64, ha, hna, hnb]

theorem div64_of_isInf_right (ha : isFinite a = true) (hb : isInf b = true) (hnb : isNaN b = false) :
    div64 a b = zero64 (signBit a != signBit b) := by
  simp [div64, not_isNaN_of_isFinite ha, not_isInf_of_isFinite ha, hb, hnb]

theorem div64_of_zero (ha : isFinite a = true) (hb : isFinite b = true) (h0 : scaled b = 0) :
    div64 a b = if scaled a = 0 then canonicalNaN else infinity (signBit a != signBit b) := by
  rw [scaled_eq_zero_iff] at h0
  simp only [scaled_eq_zero_iff]
  simp [div64, not_isNaN_of_isFinite ha, not_isNaN_of_isFinite hb, not_isInf_of_isFinite ha, not_isInf_of_isFinite hb,
    h0]

theorem div64_of_isFinite (ha : isFinite a = true) (hb : isFinite b = true) (h0 : scaled b ≠ 0) :
    div64 a b = roundTo (signBit a != signBit b) (magnitude a * unitsPerOne) (magnitude b) := by
  rw [ne_eq, scaled_eq_zero_iff] at h0
  simp [div64, not_isNaN_of_isFinite ha, not_isNaN_of_isFinite hb, not_isInf_of_isFinite ha, not_isInf_of_isFinite hb,
    h0]

end

end Sys2Proof.Proofs


/-! ## Binary64: NaN results -/

namespace Sys2Proof.Proofs

open Sys2Proof.Machine

section
variable {a b : F64}

/-- A sum is the canonical NaN or no NaN. -/
theorem add64_canonical (h : isNaN (add64 a b) = true) : add64 a b = canonicalNaN := by
  revert h
  unfold add64
  dsimp only
  split_ifs <;> simp

theorem sub64_canonical (h : isNaN (sub64 a b) = true) : sub64 a b = canonicalNaN := by
  cases hb : isNaN b
  · rw [sub64_eq_add64 hb] at h ⊢
    exact add64_canonical h
  · exact sub64_of_isNaN (.inr hb)

/-- A product is the canonical NaN or no NaN. -/
theorem mul64_canonical (h : isNaN (mul64 a b) = true) : mul64 a b = canonicalNaN := by
  revert h
  unfold mul64
  dsimp only
  split_ifs <;> simp

/-- A quotient is the canonical NaN or no NaN. -/
theorem div64_canonical (h : isNaN (div64 a b) = true) : div64 a b = canonicalNaN := by
  revert h
  unfold div64
  dsimp only
  split_ifs <;> simp

/-- The classes of two operands: a NaN among them, both finite, only the second infinite, or the first infinite. -/
theorem classify_operands (a b : F64) :
    (isNaN a = true ∨ isNaN b = true)
    ∨ (isFinite a = true ∧ isFinite b = true)
    ∨ (isFinite a = true ∧ isInf b = true ∧ isNaN b = false)
    ∨ (isInf a = true ∧ isNaN a = false ∧ isNaN b = false) := by
  rcases classify a with ⟨fa, ia, na⟩ | ⟨fa, ia, na⟩ | ⟨fa, ia, na⟩ <;>
    rcases classify b with ⟨fb, ib, nb⟩ | ⟨fb, ib, nb⟩ | ⟨fb, ib, nb⟩ <;> simp [*]

/-- The sum of finite values is no NaN. -/
theorem isNaN_add64_of_isFinite (ha : isFinite a = true) (hb : isFinite b = true) : isNaN (add64 a b) = false := by
  obtain ⟨neg, h, -⟩ := exists_add64_eq_roundTo ha hb
  rw [h, isNaN_roundTo]

theorem isNaN_add64_iff (a b : F64) :
    isNaN (add64 a b) = true
      ↔ isNaN a = true ∨ isNaN b = true ∨ (isInf a = true ∧ isInf b = true ∧ signBit a ≠ signBit b) := by
  rcases classify_operands a b with hn | ⟨ha, hb⟩ | ⟨ha, hb, nb⟩ | ⟨ha, na, nb⟩
  · rw [add64_of_isNaN hn]
    simp [← or_assoc, hn]
  · simp [isNaN_add64_of_isFinite ha hb, not_isNaN_of_isFinite, not_isInf_of_isFinite, ha, hb]
  · simp [add64_of_isInf_right hb ha nb, not_isNaN_of_isFinite ha, not_isInf_of_isFinite ha]
  · rw [add64_of_isInf_left ha na nb, isNaN_ite_canonicalNaN_iff na]
    simp [ha, na, nb]

theorem isNaN_sub64_iff (a b : F64) :
    isNaN (sub64 a b) = true
      ↔ isNaN a = true ∨ isNaN b = true ∨ (isInf a = true ∧ isInf b = true ∧ signBit a = signBit b) := by
  cases hb : isNaN b
  · rw [sub64_eq_add64 hb, isNaN_add64_iff]
    simp [signBit_neg64, hb]
  · simp [sub64_of_isNaN (.inr hb)]

theorem isNaN_mul64_iff (a b : F64) :
    isNaN (mul64 a b) = true
      ↔ isNaN a = true ∨ isNaN b = true ∨ (isInf a = true ∧ isFinite b = true ∧ scaled b = 0)
        ∨ (isFinite a = true ∧ scaled a = 0 ∧ isInf b = true) := by
  rcases classify_operands a b with hn | ⟨ha, hb⟩ | ⟨ha, hb, nb⟩ | ⟨ha, na, nb⟩
  · rw [mul64_of_isNaN hn]
    simp [← or_assoc, hn]
  · simp [mul64_of_isFinite ha hb, not_isNaN_of_isFinite, not_isInf_of_isFinite, ha, hb]
  · rw [mul64_of_isInf (not_isNaN_of_isFinite ha) nb (.inr hb)]
    rw [isNaN_ite_canonicalNaN_iff (isNaN_infinity _)]
    simp [ha, hb, nb, not_isNaN_of_isFinite ha, not_isInf_of_isFinite ha, not_isFinite_of_isInf hb]
  · rw [mul64_of_isInf na nb (.inl ha), isNaN_ite_canonicalNaN_iff (isNaN_infinity _)]
    simp [ha, na, nb, not_isFinite_of_isInf ha]

theorem isNaN_div64_iff (a b : F64) :
    isNaN (div64 a b) = true
      ↔ isNaN a = true ∨ isNaN b = true ∨ (isInf a = true ∧ isInf b = true)
        ∨ (isFinite a = true ∧ scaled a = 0 ∧ isFinite b = true ∧ scaled b = 0) := by
  rcases classify_operands a b with hn | ⟨ha, hb⟩ | ⟨ha, hb, nb⟩ | ⟨ha, na, nb⟩
  · rw [div64_of_isNaN hn]
    simp [← or_assoc, hn]
  · by_cases h0 : scaled b = 0
    · rw [div64_of_zero ha hb h0, isNaN_ite_canonicalNaN_iff (isNaN_infinity _)]
      simp [not_isNaN_of_isFinite, not_isInf_of_isFinite, ha, hb, h0]
    · simp [div64_of_isFinite ha hb h0, not_isNaN_of_isFinite, not_isInf_of_isFinite, ha, hb, h0]
  · simp [div64_of_isInf_right ha hb nb, not_isNaN_of_isFinite ha, not_isInf_of_isFinite ha, nb,
      not_isFinite_of_isInf hb]
  · rw [div64_of_isInf_left ha na nb, isNaN_ite_canonicalNaN_iff (isNaN_infinity _)]
    simp [ha, na, nb, not_isFinite_of_isInf ha]

end

/-- Settles O56: each operation by the classes of its operands. -/
theorem nanResultsAreCanonical : Obligations.NanResultsAreCanonical := by
  intro a b
  refine ⟨?_, isNaN_add64_iff a b, isNaN_sub64_iff a b, isNaN_mul64_iff a b, isNaN_div64_iff a b⟩
  intro r hr hn
  simp only [List.mem_cons, List.not_mem_nil, or_false] at hr
  rcases hr with rfl | rfl | rfl | rfl
  · exact add64_canonical hn
  · exact sub64_canonical hn
  · exact mul64_canonical hn
  · exact div64_canonical hn

end Sys2Proof.Proofs


/-! ## Binary64: addition and subtraction round to nearest -/

namespace Sys2Proof.Proofs

open Sys2Proof.Machine

/-- `r` is the exact `x`, in units of `2^-1074`, rounded: overflow, and nearest where finite (R25). -/
structure RoundsSum (r : F64) (x : Int) : Prop where
  finite_iff : isFinite r = true ↔ |x| < (2 ^ 1024 - 2 ^ 970) * 2 ^ 1074
  overflow : isFinite r = false → r = if x < 0 then 0xFFF0000000000000 else 0x7FF0000000000000
  nearest : isFinite r = true → NearestEven r 1 x

theorem overflowBound_pos : 0 < overflowBound :=
  Nat.mul_pos (Nat.sub_pos_of_lt (by gcongr <;> decide)) (by positivity)

/-- A rounded integer of units has all three properties. -/
theorem roundsSum_roundTo {neg : Bool} {x : Int} (hx : withSignInt neg x.natAbs = x) :
    RoundsSum (roundTo neg x.natAbs 1) x where
  finite_iff := by
    rw [isFinite_roundTo_iff neg _ Nat.one_pos, ← intCast_overflowBound, Int.abs_eq_natAbs, Nat.mul_one, Nat.cast_lt]
  overflow hf := by
    have hbig : ¬ x.natAbs < overflowBound := by
      simpa [hf] using (isFinite_roundTo_iff neg x.natAbs Nat.one_pos).not
    have hpos := overflowBound_pos
    rw [roundTo_eq_infinity hf]
    unfold withSignInt at hx
    cases neg
    · rw [if_neg Bool.false_ne_true] at hx
      rw [if_neg (by omega)]
      rfl
    · rw [if_pos rfl] at hx
      rw [if_pos (by omega)]
      rfl
  nearest hf := by
    have h := roundTo_nearestEven Nat.one_pos hf
    rwa [hx] at h

section
variable {a b : F64}

theorem roundsSum_add64 (ha : isFinite a = true) (hb : isFinite b = true) :
    RoundsSum (add64 a b) (scaled a + scaled b) := by
  obtain ⟨neg, h, hx⟩ := exists_add64_eq_roundTo ha hb
  rw [h]
  exact roundsSum_roundTo hx

theorem roundsSum_sub64 (ha : isFinite a = true) (hb : isFinite b = true) :
    RoundsSum (sub64 a b) (scaled a - scaled b) := by
  have h := roundsSum_add64 ha (b := neg64 b) (by simpa using hb)
  rwa [scaled_neg64, ← sub_eq_add_neg, ← sub64_eq_add64 (not_isNaN_of_isFinite hb)] at h

theorem add64_of_sum_eq_zero (ha : isFinite a = true) (hb : isFinite b = true) (h0 : scaled a + scaled b = 0) :
    add64 a b = if signBit a ∧ signBit b then 0x8000000000000000 else 0 := by
  rw [add64_of_isFinite ha hb, if_pos h0]
  cases signBit a <;> cases signBit b <;> rfl

theorem sub64_of_difference_eq_zero (ha : isFinite a = true) (hb : isFinite b = true) (h0 : scaled a - scaled b = 0) :
    sub64 a b = if signBit a ∧ ¬ signBit b then 0x8000000000000000 else 0 := by
  rw [sub64_eq_add64 (not_isNaN_of_isFinite hb),
    add64_of_sum_eq_zero ha (by simpa using hb) (by rwa [scaled_neg64, ← sub_eq_add_neg]), signBit_neg64]
  simp

/-- An infinite operand of a sum that is no NaN is the sum. -/
theorem add64_eq_of_isInf (h : isNaN (add64 a b) = false) :
    (isInf a = true → add64 a b = a) ∧ (isInf b = true → add64 a b = b) := by
  rw [← Bool.not_eq_true, isNaN_add64_iff, not_or, not_or] at h
  obtain ⟨na, nb, hinf⟩ := h
  rw [Bool.not_eq_true] at na nb
  have hleft : isInf a = true → add64 a b = a := fun ha => by
    rw [add64_of_isInf_left ha na nb, if_neg fun h => hinf ⟨ha, h⟩]
  refine ⟨hleft, fun hb => ?_⟩
  rcases classify a with ⟨ha, -, -⟩ | ⟨-, ha, -⟩ | ⟨-, -, ha⟩
  · exact add64_of_isInf_right hb ha nb
  · have hs : signBit a = signBit b := not_not.mp fun hs => hinf ⟨ha, hb, hs⟩
    rw [hleft ha, eq_infinity_of_isInf ha, eq_infinity_of_isInf hb, hs]
  · simp [ha] at na

theorem sub64_eq_of_isInf (h : isNaN (sub64 a b) = false) :
    (isInf a = true → sub64 a b = a) ∧ (isInf b = true → sub64 a b = neg64 b) := by
  have hb : isNaN b = false := by
    rw [← Bool.not_eq_true, isNaN_sub64_iff, not_or, not_or] at h
    exact Bool.eq_false_iff.mpr h.2.1
  rw [sub64_eq_add64 hb] at h ⊢
  simpa using add64_eq_of_isInf h

end

/-- Settles O57: one rounding of the exact sum, whose sign at 0 and whose infinite operands are the early cases. -/
theorem additionRoundsToNearestEven : Obligations.AdditionRoundsToNearestEven := by
  refine ⟨?_, fun a b ha hb => ⟨add64_of_sum_eq_zero ha hb, sub64_of_difference_eq_zero ha hb⟩,
    fun a b => ⟨add64_eq_of_isInf, sub64_eq_of_isInf⟩⟩
  intro a b r x ha hb h
  have hr : RoundsSum r x := by
    rcases h with ⟨rfl, rfl⟩ | ⟨rfl, rfl⟩
    · exact roundsSum_add64 ha hb
    · exact roundsSum_sub64 ha hb
  refine ⟨hr.finite_iff, hr.overflow, fun hf c hc => ?_⟩
  simpa only [Nat.cast_one, mul_one] using hr.nearest hf c hc

end Sys2Proof.Proofs


/-! ## Binary64: multiplication and division round to nearest -/

namespace Sys2Proof.Proofs

open Sys2Proof.Machine

theorem unitsPerOne_pos : 0 < unitsPerOne := by unfold unitsPerOne; positivity

theorem intCast_unitsPerOne : (unitsPerOne : Int) = 2 ^ 1074 := by
  rw [unitsPerOne, Nat.cast_pow, Nat.cast_ofNat]

theorem intCast_overflowBound_mul_unitsPerOne :
    ((overflowBound * unitsPerOne : Nat) : Int) = (2 ^ 1024 - 2 ^ 970) * 2 ^ 2148 := by
  rw [Nat.cast_mul, intCast_overflowBound, intCast_unitsPerOne, mul_assoc, ← pow_add]

theorem scaled_eq_withSignInt_magnitude (x : F64) : scaled x = withSignInt (signBit x) (magnitude x) := rfl

theorem abs_scaled (x : F64) : |scaled x| = magnitude x := abs_withSignInt _ _

theorem scaled_mul_scaled (a b : F64) :
    scaled a * scaled b = withSignInt (signBit a != signBit b) (magnitude a * magnitude b) :=
  withSignInt_mul ..

/-- A common sign taken out of a difference. -/
theorem mul_withSignInt_sub (y : Int) (s t : Bool) (m n : Nat) :
    y * withSignInt t n - withSignInt s m = withSignInt t 1 * (y * n - withSignInt (s != t) m) := by
  cases s <;> cases t <;> simp [withSignInt] <;> ring

/-- Multiplied by the divisor, a distance to the quotient keeps its size. -/
theorem abs_mul_scaled_sub (a b : F64) (y : Int) :
    |y * scaled b - scaled a * 2 ^ 1074|
      = |y * magnitude b - withSignInt (signBit a != signBit b) (magnitude a * unitsPerOne)| := by
  rw [← intCast_unitsPerOne, scaled_eq_withSignInt_magnitude a, scaled_eq_withSignInt_magnitude b,
    withSignInt_mul_nat, mul_withSignInt_sub, abs_mul, abs_withSignInt, Nat.cast_one, one_mul]

section
variable {a b : F64}

/-! ### Finite operands -/

theorem isFinite_mul64_iff (ha : isFinite a = true) (hb : isFinite b = true) :
    isFinite (mul64 a b) = true ↔ |scaled a * scaled b| < (2 ^ 1024 - 2 ^ 970) * 2 ^ 2148 := by
  rw [mul64_of_isFinite ha hb, isFinite_roundTo_iff _ _ unitsPerOne_pos, scaled_mul_scaled, abs_withSignInt,
    ← intCast_overflowBound_mul_unitsPerOne, Nat.cast_lt]

theorem mul64_nearestEven (ha : isFinite a = true) (hb : isFinite b = true) (hf : isFinite (mul64 a b) = true) :
    NearestEven (mul64 a b) unitsPerOne (scaled a * scaled b) := by
  rw [mul64_of_isFinite ha hb] at hf ⊢
  rw [scaled_mul_scaled]
  exact roundTo_nearestEven unitsPerOne_pos hf

theorem magnitude_pos (h : scaled b ≠ 0) : 0 < magnitude b :=
  Nat.pos_of_ne_zero fun h0 => h ((scaled_eq_zero_iff b).mpr h0)

theorem isFinite_div64_iff (ha : isFinite a = true) (hb : isFinite b = true) (h0 : scaled b ≠ 0) :
    isFinite (div64 a b) = true ↔ |scaled a| < (2 ^ 1024 - 2 ^ 970) * |scaled b| := by
  have hu : (0 : Int) < unitsPerOne := Nat.cast_pos.mpr unitsPerOne_pos
  rw [div64_of_isFinite ha hb h0, isFinite_roundTo_iff _ _ (magnitude_pos h0), abs_scaled, abs_scaled,
    ← Nat.cast_lt (α := Int), Nat.cast_mul, Nat.cast_mul, intCast_overflowBound, ← intCast_unitsPerOne, mul_right_comm,
    mul_lt_mul_iff_left₀ hu]

theorem div64_nearestEven (ha : isFinite a = true) (hb : isFinite b = true) (h0 : scaled b ≠ 0)
    (hf : isFinite (div64 a b) = true) :
    NearestEven (div64 a b) (magnitude b)
      (withSignInt (signBit a != signBit b) (magnitude a * unitsPerOne)) := by
  rw [div64_of_isFinite ha hb h0] at hf ⊢
  exact roundTo_nearestEven (magnitude_pos h0) hf

/-! ### Signs and infinities -/

theorem not_isNaN_of_mul64 (h : isNaN (mul64 a b) = false) : isNaN a = false ∧ isNaN b = false := by
  have hn : ¬ (isNaN a = true ∨ isNaN b = true) := fun hn => by simp [mul64_of_isNaN hn] at h
  simpa using hn

/-- A product with an infinite operand that is no NaN is the infinity of the operands' signs. -/
theorem mul64_eq_infinity (h : isNaN (mul64 a b) = false) (hi : isInf a = true ∨ isInf b = true) :
    mul64 a b = infinity (signBit a != signBit b) := by
  obtain ⟨na, nb⟩ := not_isNaN_of_mul64 h
  rw [mul64_of_isInf na nb hi] at h ⊢
  exact ite_canonicalNaN_eq h

theorem signBit_mul64 (h : isNaN (mul64 a b) = false) : signBit (mul64 a b) = (signBit a != signBit b) := by
  rcases classify_operands a b with hn | ⟨ha, hb⟩ | ⟨-, hb, -⟩ | ⟨ha, -, -⟩
  · simp [mul64_of_isNaN hn] at h
  · rw [mul64_of_isFinite ha hb, signBit_roundTo]
  · rw [mul64_eq_infinity h (.inr hb), signBit_infinity]
  · rw [mul64_eq_infinity h (.inl ha), signBit_infinity]

/-- An infinity by anything, and anything by a zero, is the infinity of the operands' signs where it is no NaN. -/
theorem div64_eq_infinity (h : isNaN (div64 a b) = false)
    (hi : isInf a = true ∨ (isFinite b = true ∧ scaled b = 0)) :
    div64 a b = infinity (signBit a != signBit b) := by
  rcases classify_operands a b with hn | ⟨ha, hb⟩ | ⟨ha, hb, nb⟩ | ⟨ha, na, nb⟩
  · simp [div64_of_isNaN hn] at h
  · have h0 : scaled b = 0 := by simpa [not_isInf_of_isFinite ha, hb] using hi
    rw [div64_of_zero ha hb h0] at h ⊢
    exact ite_canonicalNaN_eq h
  · simp [not_isInf_of_isFinite ha, not_isFinite_of_isInf hb] at hi
  · rw [div64_of_isInf_left ha na nb] at h ⊢
    exact ite_canonicalNaN_eq h

theorem signBit_div64 (h : isNaN (div64 a b) = false) : signBit (div64 a b) = (signBit a != signBit b) := by
  rcases classify_operands a b with hn | ⟨ha, hb⟩ | ⟨ha, hb, nb⟩ | ⟨ha, -, -⟩
  · simp [div64_of_isNaN hn] at h
  · by_cases h0 : scaled b = 0
    · rw [div64_eq_infinity h (.inr ⟨hb, h0⟩), signBit_infinity]
    · rw [div64_of_isFinite ha hb h0, signBit_roundTo]
  · rw [div64_of_isInf_right ha hb nb, signBit_zero64]
  · rw [div64_eq_infinity h (.inl ha), signBit_infinity]

/-- A quotient by an infinity that is no NaN is a zero. -/
theorem div64_eq_zero64_of_isInf (h : isNaN (div64 a b) = false) (hb : isInf b = true) :
    div64 a b = zero64 (signBit a != signBit b) := by
  rcases classify_operands a b with hn | ⟨ha, hb'⟩ | ⟨ha, -, nb⟩ | ⟨ha, na, nb⟩
  · simp [div64_of_isNaN hn] at h
  · simp [not_isInf_of_isFinite hb'] at hb
  · exact div64_of_isInf_right ha hb nb
  · simp [div64_of_isInf_left ha na nb, hb] at h

end

/-- Settles O58: one rounding of the exact product. -/
theorem multiplicationRoundsToNearestEven : Obligations.MultiplicationRoundsToNearestEven := by
  refine ⟨fun a b ha hb => ⟨isFinite_mul64_iff ha hb, fun hf => ?_, fun hf c hc => ?_⟩,
    fun a b hn => ⟨signBit_mul64 hn, fun hi => by rw [mul64_eq_infinity hn hi, isInf_infinity]⟩⟩
  · have hn : isNaN (mul64 a b) = false := by rw [mul64_of_isFinite ha hb, isNaN_roundTo]
    exact isInf_of_not_isFinite hn hf
  · rw [← intCast_unitsPerOne]
    exact mul64_nearestEven ha hb hf c hc

/-- Settles O59: one rounding of the exact quotient, its distances multiplied out by the divisor. -/
theorem divisionRoundsToNearestEven : Obligations.DivisionRoundsToNearestEven := by
  refine ⟨fun a b ha hb h0 => ⟨isFinite_div64_iff ha hb h0, fun hf => ?_, fun hf c hc => ?_⟩,
    fun a b hn => ⟨signBit_div64 hn, fun hi => ?_, fun hb => ?_⟩⟩
  · have hn : isNaN (div64 a b) = false := by rw [div64_of_isFinite ha hb h0, isNaN_roundTo]
    exact isInf_of_not_isFinite hn hf
  · rw [abs_mul_scaled_sub, abs_mul_scaled_sub]
    exact div64_nearestEven ha hb h0 hf c hc
  · rw [div64_eq_infinity hn hi, isInf_infinity]
  · rw [div64_eq_zero64_of_isInf hn hb]
    exact ⟨isFinite_zero64 _, scaled_zero64 _⟩

end Sys2Proof.Proofs


/-! ## Binary64: comparisons and the conversion of integers -/

namespace Sys2Proof.Proofs

open Sys2Proof.Machine

theorem orderKey_eq (x : F64) : orderKey x = withSignInt (signBit x) (bitsOf x) := rfl

/-- A strictly monotone function that keeps 0 keeps the order of signed numbers. -/
theorem withSignInt_lt_withSignInt_iff {f : Nat → Nat} (hf : StrictMono f) (h0 : f 0 = 0) (s t : Bool) (m n : Nat) :
    withSignInt s (f m) < withSignInt t (f n) ↔ withSignInt s m < withSignInt t n := by
  have hmn : f m < f n ↔ m < n := hf.lt_iff_lt
  have hnm : f n < f m ↔ n < m := hf.lt_iff_lt
  have hm : f m = 0 ↔ m = 0 := hf.injective.eq_iff' h0
  have hn : f n = 0 ↔ n = 0 := hf.injective.eq_iff' h0
  cases s <;> cases t <;> simp only [withSignInt, if_true, Bool.false_eq_true, if_false] <;> omega

/-- The keys order all patterns by the values that the magnitude bits stand for. -/
theorem scaled_lt_scaled_iff (a b : F64) : scaled a < scaled b ↔ orderKey a < orderKey b := by
  rw [scaled_eq_withSignInt, scaled_eq_withSignInt, orderKey_eq, orderKey_eq,
    withSignInt_lt_withSignInt_iff bitsValue_strictMono bitsValue_zero]

theorem gt64_iff {a b : F64} (ha : isNaN a = false) (hb : isNaN b = false) :
    gt64 a b = true ↔ orderKey b < orderKey a := by
  simp [gt64, ha, hb]

theorem lt64_iff {a b : F64} (ha : isNaN a = false) (hb : isNaN b = false) :
    lt64 a b = true ↔ orderKey a < orderKey b := by
  simp [lt64, ha, hb]

/-- A pattern with the key of an infinity is that infinity. -/
theorem orderKey_eq_iff (x : F64) (neg : Bool) : orderKey x = withSignInt neg infBits ↔ x = infinity neg := by
  constructor
  · intro h
    have hs : signBit x = neg ∧ bitsOf x = infBits := by
      have hpos : 0 < infBits := by decide
      rw [orderKey_eq] at h
      cases hx : signBit x <;> cases neg <;> simp [withSignInt, hx] at h ⊢ <;> omega
    rw [infinity, ← hs.1, ← hs.2, withSign_bitsOf]
  · rintro rfl
    rw [orderKey_eq, signBit_infinity, infinity, bitsOf_withSign _ infBits_lt]

theorem orderKey_eq_infBits_iff (x : F64) : orderKey x = infBits ↔ x = 0x7FF0000000000000 := orderKey_eq_iff x false

theorem orderKey_eq_neg_infBits_iff (x : F64) : orderKey x = -infBits ↔ x = 0xFFF0000000000000 := orderKey_eq_iff x true

/-- The keys of what is no NaN lie between those of the infinities. -/
theorem abs_orderKey_le {x : F64} (h : isNaN x = false) : |orderKey x| ≤ infBits := by
  rw [← Bool.not_eq_true, isNaN_iff] at h
  rw [orderKey_eq, abs_withSignInt]
  omega

theorem abs_orderKey_of_isInf {x : F64} (h : isInf x = true) : |orderKey x| = infBits := by
  rw [orderKey_eq, abs_withSignInt, (isInf_iff x).mp h]

/-- With an infinity among them, one operand lies below the other exactly when it is `-inf`, or the other `+inf`, and the
two are not the same. -/
theorem orderKey_lt_iff_of_isInf {a b : F64} (ha : isNaN a = false) (hb : isNaN b = false)
    (hi : isInf a = true ∨ isInf b = true) :
    orderKey a < orderKey b
      ↔ (a = 0xFFF0000000000000 ∧ b ≠ 0xFFF0000000000000) ∨ (b = 0x7FF0000000000000 ∧ a ≠ 0x7FF0000000000000) := by
  have hla := abs_orderKey_le ha
  have hlb := abs_orderKey_le hb
  have hinf : |orderKey a| = infBits ∨ |orderKey b| = infBits := hi.imp abs_orderKey_of_isInf abs_orderKey_of_isInf
  simp only [ne_eq, ← orderKey_eq_infBits_iff, ← orderKey_eq_neg_infBits_iff]
  simp only [abs_eq_max_neg] at hla hlb hinf
  omega

/-! ### Integers -/

/-- An integer of at most 53 bits is a finite value of the format. -/
theorem exists_bitsValue_eq {k : Nat} (hk : k < 2 ^ 53) : ∃ m < infBits, bitsValue m = k * 2 ^ 1074 := by
  by_cases h0 : k = 0
  · exact ⟨0, by decide, by rw [h0, bitsValue_zero, Nat.zero_mul]⟩
  have hlo := Nat.log2_self_le h0
  have hhi := Nat.lt_log2_self (n := k)
  have hj : Nat.log2 k ≤ 52 := Nat.lt_succ_iff.mp ((Nat.log2_lt h0).mpr hk)
  generalize Nat.log2 k = j at *
  have hpow : 2 ^ j * 2 ^ (52 - j) = 2 ^ 52 := by rw [← pow_add, Nat.add_sub_cancel' hj]
  have hge : 2 ^ 52 ≤ k * 2 ^ (52 - j) := hpow ▸ Nat.mul_le_mul_right _ hlo
  have hlt : k * 2 ^ (52 - j) < 2 ^ 53 := by
    have h := Nat.mul_lt_mul_of_pos_right hhi (show 0 < 2 ^ (52 - j) by positivity)
    rw [pow_succ, Nat.mul_right_comm, hpow] at h
    omega
  refine ⟨(1022 + j) * 2 ^ 52 + k * 2 ^ (52 - j), ?_, ?_⟩
  · unfold infBits
    omega
  · rw [bitsValue_steps hlt.le (.inr hge), Nat.mul_assoc, ← pow_add, show 52 - j + (1022 + j) = 1074 by omega]

/-- The conversion of such an integer has its value and no sign. -/
theorem to64_exact {k : Nat} (hk : k < 2 ^ 53) :
    isFinite (to64 k) = true ∧ signBit (to64 k) = false ∧ scaled (to64 k) = k * 2 ^ 1074 := by
  obtain ⟨m, hm, hv⟩ := exists_bitsValue_eq hk
  have hbits : bitsOf (to64 k) = m := by
    rw [to64, bitsOf_roundTo]
    exact roundBits_of_eq Nat.one_pos (by rw [hv, Nat.mul_one, unitsPerOne]) hm.le
  have hsign : signBit (to64 k) = false := signBit_roundTo ..
  refine ⟨by rwa [isFinite_iff, hbits], hsign, ?_⟩
  rw [scaled_eq_withSignInt, hsign, hbits, hv, withSignInt, if_neg Bool.false_ne_true, Nat.cast_mul, Nat.cast_pow,
    Nat.cast_ofNat]

/-- Settles O60: the comparisons by the order of the keys, the conversion by the exact value. -/
theorem comparisonsAndConversionAreExact : Obligations.ComparisonsAndConversionAreExact := by
  refine ⟨fun a b ha hb => ?_, fun a b na nb hi => ?_, fun a b h => ?_, fun k hk => to64_exact hk⟩
  · have na := not_isNaN_of_isFinite ha
    have nb := not_isNaN_of_isFinite hb
    rw [gt64_iff na nb, lt64_iff na nb, scaled_lt_scaled_iff, scaled_lt_scaled_iff]
    exact ⟨Iff.rfl, Iff.rfl⟩
  · rw [gt64_iff na nb, lt64_iff na nb, orderKey_lt_iff_of_isInf nb na hi.symm, orderKey_lt_iff_of_isInf na nb hi]
    exact ⟨or_comm, Iff.rfl⟩
  · rcases h with h | h <;> simp [gt64, lt64, h]

end Sys2Proof.Proofs

/-!
PROOFS. The statements of the family 10_state: what a command leaves unchanged.
-/

/-! ## Operands, parameters and the model's own fields -/

namespace Sys2Proof.Proofs

open Sys2Proof.Machine Sys2Proof.Laws

/-- From `s` to `t` a command has written state of the units and then completed on port `x` (R153). -/
inductive CompletesOn (x : Port) (s : State) : State → Prop
  | intro (c : StatusCode) (v : Word) (p : Pulse) (vs : List F64) (l : Loop) (r : Ring) :
    CompletesOn x s (complete x c v { s with ps := p, vars := vs, cl := l, rb := r })

theorem ringQuery_completesOn {x : Port} {f : Nat → Nat → Nat → Word} {s t : State} (h : ringQuery x f s = .next t) :
    CompletesOn x s t := by
  rcases ringQuery_cases x f s with ⟨-, e⟩ | ⟨w, r, -, ⟨-, e⟩ | ⟨-, e⟩⟩ <;>
    · cases e.symm.trans h
      exact .intro ..

/-- PID steps write the table and the variable file only, so a command that ends with them completes as any other. -/
theorem foldl_pidStep_completesOn (x : Port) (c : StatusCode) (v : Word) (l : Loop) (dt : F64) (ks : List Nat)
    (s : State) : CompletesOn x s (complete x c v (ks.foldl (pidStep dt) { s with cl := l })) := by
  rw [foldl_pidStep_frame]
  exact .intro ..

/-- Every command that answers a next state completes on its own port, and beside that writes the units' state only. -/
theorem exec_completesOn {i : Instr} {s t : State} (h : exec i s = .next t) : CompletesOn i.port s t := by
  cases i with
  | nop x =>
    cases (execNop_cases x s).symm.trans h
    exact .intro ..
  | psInit n => rcases execPsInit_cases n s with e | ⟨-, e⟩ <;> cases e.symm.trans h <;> exact .intro ..
  | psSetChannel index =>
    rcases execPsSetChannel_cases index s with ⟨-, e⟩ | ⟨-, -, e⟩ | ⟨-, -, e⟩ <;> cases e.symm.trans h <;> exact .intro ..
  | psSetAll => rcases execPsSetAll_cases s with ⟨-, e⟩ | ⟨-, e⟩ <;> cases e.symm.trans h <;> exact .intro ..
  | psSetChannels base =>
    rcases execPsSetChannels_cases base s with ⟨-, e⟩ | ⟨-, -, e⟩ | ⟨-, -, e⟩ <;> cases e.symm.trans h <;> exact .intro ..
  | clMake k => rcases execClMake_cases k s with e | e | e <;> cases e.symm.trans h <;> exact .intro ..
  | clInit n => rcases execClInit_cases n s with e | e | ⟨-, -, e⟩ <;> cases e.symm.trans h <;> exact .intro ..
  | clIterate =>
    rcases execClIterate_cases s with ⟨-, e⟩ | ⟨-, -, e⟩ | ⟨-, -, e⟩ <;> cases e.symm.trans h
    · exact .intro ..
    · exact .intro ..
    · exact foldl_pidStep_completesOn ..
  | rbInit len => rcases execRbInit_cases len s with e | ⟨-, -, e⟩ <;> cases e.symm.trans h <;> exact .intro ..
  | rbPush a => obtain ⟨-, rfl⟩ | ⟨-, -, rfl⟩ | ⟨-, -, -, rfl⟩ := execRbPush_next h <;> exact .intro ..
  | rbPushOverwrite a =>
    obtain ⟨-, rfl⟩ | ⟨-, -, rfl⟩ | ⟨-, -, -, ⟨-, rfl⟩ | ⟨-, rfl⟩⟩ := execRbPushOverwrite_next h <;> exact .intro ..
  | rbIsEmpty x => unfold exec execRbIsEmpty at h; exact ringQuery_completesOn h
  | rbIsFull x => unfold exec execRbIsFull at h; exact ringQuery_completesOn h
  | rbPushAvailable x => unfold exec execRbPushAvailable at h; exact ringQuery_completesOn h
  | rbPopAvailable x => unfold exec execRbPopAvailable at h; exact ringQuery_completesOn h
  | rbPop => obtain ⟨-, rfl⟩ | ⟨-, -, rfl⟩ | ⟨-, -, -, rfl⟩ := execRbPop_next h <;> exact .intro ..
  | rbPeek => obtain ⟨-, rfl⟩ | ⟨-, -, rfl⟩ | ⟨-, -, -, rfl⟩ := execRbPeek_next h <;> exact .intro ..

/-- Settles O18: none of the fields it names belongs to a unit or is a port's register, and `exec_completesOn` says that
a command writes nothing else. -/
theorem commandsLeaveOperandsAndParameters : Obligations.CommandsLeaveOperandsAndParameters := by
  intro i s t h
  cases exec_completesOn h with
  | intro c v p vs l r =>
    exact ⟨complete_args .., complete_iarg .., complete_cfg .., complete_pending .., complete_turn .., complete_resets ..⟩

end Sys2Proof.Proofs

/-!
PROOFS. The statements of the family 20_memory: the register maps, what the accesses read and write, and the bytes of
the windows.
-/

/-! ## The register maps -/

namespace Sys2Proof.Proofs

open Sys2Proof.Machine Sys2Proof.Safety Sys2Proof.Laws
open Sys2Proof.Config (Params)

/-- A half of a 64-bit value that follows others stands at a multiple of 4, the low half first (R82, R83). -/
theorem halfAt_eq_some_iff {o : Nat} {lo hi : Nat → Option Register} {r : Register} :
    halfAt o lo hi = some r ↔ (o % 8 = 0 ∧ lo (o / 8) = some r) ∨ (o % 8 = 4 ∧ hi (o / 8) = some r) := by
  by_cases h0 : o % 8 = 0
  · simp [halfAt, h0]
  · by_cases h4 : o % 8 = 4 <;> simp [halfAt, h0, h4]

theorem argRegister_eq_some_iff {f : Fin 6 → Register} {k : Nat} {r : Register} :
    argRegister f k = some r ↔ ∃ i : Fin 6, i.val = k ∧ f i = r := by
  by_cases h : k < 6
  · rw [argRegister, dif_pos h]
    constructor
    · rintro ⟨⟩
      exact ⟨⟨k, h⟩, rfl, rfl⟩
    · rintro ⟨i, rfl, rfl⟩
      rfl
  · rw [argRegister, dif_neg h]
    exact ⟨nofun, fun ⟨i, hi, _⟩ => absurd i.isLt (hi ▸ h)⟩

section
variable {c : Params} {off : Nat} {r : Register}

/-! ### The blocks of port H -/

/-- The operand registers (R82). -/
theorem registerH_args (h : 0x010 ≤ off ∧ off < 0x040) :
    registerH c off = some r ↔
      ∃ k : Fin 6, (off = offsetOf (.argLo k) ∧ r = .argLo k) ∨ (off = offsetOf (.argHi k) ∧ r = .argHi k) := by
  rw [registerH, if_pos h, halfAt_eq_some_iff, argRegister_eq_some_iff, argRegister_eq_some_iff]
  constructor
  · rintro (⟨ho, k, hk, rfl⟩ | ⟨ho, k, hk, rfl⟩)
    · exact ⟨k, .inl ⟨by simp only [offsetOf]; omega, rfl⟩⟩
    · exact ⟨k, .inr ⟨by simp only [offsetOf]; omega, rfl⟩⟩
  · rintro ⟨k, ⟨ho, rfl⟩ | ⟨ho, rfl⟩⟩ <;> simp only [offsetOf] at ho
    · exact .inl ⟨by omega, k, by omega, rfl⟩
    · exact .inr ⟨by omega, k, by omega, rfl⟩

/-- The duty table (R82). -/
theorem registerH_duties (h : 0x080 ≤ off ∧ off < 0x100) :
    registerH c off = some r ↔ ∃ i < c.psNmax, off = offsetOf (.psDuty i) ∧ r = .psDuty i := by
  rw [registerH, if_neg (by omega), if_pos h]
  simp only [offsetOf]
  constructor
  · intro e
    split at e
    · cases e
      exact ⟨_, by omega, by omega, rfl⟩
    · cases e
  · rintro ⟨i, hi, ho, rfl⟩
    obtain rfl : (off - 0x080) / 4 = i := by omega
    exact if_pos ⟨by omega, hi⟩

/-- The variable file (R82). -/
theorem registerH_vars (h : 0x100 ≤ off ∧ off < 0x900) :
    registerH c off = some r ↔
      ∃ i < c.varCount, (off = offsetOf (.varLo i) ∧ r = .varLo i) ∨ (off = offsetOf (.varHi i) ∧ r = .varHi i) := by
  rw [registerH, if_neg (by omega), if_neg (by omega), if_pos h]
  simp only [Option.ite_none_right_eq_some, halfAt_eq_some_iff, offsetOf, Option.some.injEq]
  constructor
  · rintro ⟨hi, ⟨ho, rfl⟩ | ⟨ho, rfl⟩⟩
    · exact ⟨_, hi, .inl ⟨by omega, rfl⟩⟩
    · exact ⟨_, hi, .inr ⟨by omega, rfl⟩⟩
  · rintro ⟨i, hi, ho⟩
    obtain rfl : (off - 0x100) / 8 = i := by omega
    refine ⟨hi, ho.imp ?_ ?_⟩ <;> rintro ⟨ho, rfl⟩ <;> exact ⟨by omega, rfl⟩

/-- The word at the relative offset `o` of controller record `k` (R83). -/
theorem ctlRegister_eq_some_iff {k o : Nat} :
    ctlRegister k o = some r ↔
      (o = 0 ∧ r = .ctlRef k)
        ∨ ∃ f < 8, (o = 0x08 + 8 * f ∧ r = .ctlLo k f) ∨ (o = 0x0C + 8 * f ∧ r = .ctlHi k f) := by
  unfold ctlRegister
  by_cases h0 : o = 0
  · rw [if_pos h0]
    constructor
    · rintro ⟨⟩
      exact .inl ⟨h0, rfl⟩
    · rintro (⟨-, rfl⟩ | ⟨f, -, ⟨h, -⟩ | ⟨h, -⟩⟩)
      · rfl
      all_goals omega
  · rw [if_neg h0]
    simp only [Option.ite_none_right_eq_some, halfAt_eq_some_iff, Option.some.injEq]
    constructor
    · rintro ⟨hr, ⟨ho, rfl⟩ | ⟨ho, rfl⟩⟩
      · exact .inr ⟨_, by omega, .inl ⟨by omega, rfl⟩⟩
      · exact .inr ⟨_, by omega, .inr ⟨by omega, rfl⟩⟩
    · rintro (⟨h, -⟩ | ⟨f, hf, ho⟩)
      · exact absurd h h0
      · obtain rfl : (o - 0x08) / 8 = f := by omega
        refine ⟨by omega, ho.imp ?_ ?_⟩ <;> rintro ⟨ho, rfl⟩ <;> exact ⟨by omega, rfl⟩

/-- The controller records (R83). -/
theorem registerH_ctl (h : 0x1000 ≤ off ∧ off < 0x2000) :
    registerH c off = some r ↔
      ∃ k < c.clNmax, (off = offsetOf (.ctlRef k) ∧ r = .ctlRef k)
        ∨ ∃ f < 8, (off = offsetOf (.ctlLo k f) ∧ r = .ctlLo k f) ∨ (off = offsetOf (.ctlHi k f) ∧ r = .ctlHi k f) := by
  rw [registerH, if_neg (by omega), if_neg (by omega), if_neg (by omega), if_pos h]
  simp only [Option.ite_none_right_eq_some, ctlRegister_eq_some_iff, offsetOf]
  constructor
  · rintro ⟨hk, ⟨ho, rfl⟩ | ⟨f, hf, ⟨ho, rfl⟩ | ⟨ho, rfl⟩⟩⟩
    · exact ⟨_, hk, .inl ⟨by omega, rfl⟩⟩
    · exact ⟨_, hk, .inr ⟨f, hf, .inl ⟨by omega, rfl⟩⟩⟩
    · exact ⟨_, hk, .inr ⟨f, hf, .inr ⟨by omega, rfl⟩⟩⟩
  · rintro ⟨k, hk, ⟨ho, rfl⟩ | ⟨f, hf, ⟨ho, rfl⟩ | ⟨ho, rfl⟩⟩⟩ <;>
      obtain rfl : (off - 0x1000) / 0x80 = k := by omega
    · exact ⟨hk, .inl ⟨by omega, rfl⟩⟩
    · exact ⟨hk, .inr ⟨f, hf, .inl ⟨by omega, rfl⟩⟩⟩
    · exact ⟨hk, .inr ⟨f, hf, .inr ⟨by omega, rfl⟩⟩⟩

/-- The registers without an index stand outside the blocks (R82). -/
theorem registerH_plain (h1 : ¬ (0x010 ≤ off ∧ off < 0x040)) (h2 : ¬ (0x080 ≤ off ∧ off < 0x100))
    (h3 : ¬ (0x100 ≤ off ∧ off < 0x900)) (h4 : ¬ (0x1000 ≤ off ∧ off < 0x2000)) :
    registerH c off = plainRegisterH off := by
  rw [registerH, if_neg h1, if_neg h2, if_neg h3, if_neg h4]

/-! ### Offsets and registers -/

theorem plainRegisterH_sound (h : plainRegisterH off = some r) : registerExists c .h r = true ∧ offsetOf r = off := by
  unfold plainRegisterH at h
  split at h <;> cases h <;> exact ⟨rfl, rfl⟩

theorem registerPC_sound {x : Port} (hx : x.isRing = true) (h : registerPC off = some r) :
    registerExists c x r = true ∧ offsetOf r = off := by
  unfold registerPC at h
  split at h <;> cases h <;> cases x <;> cases hx <;> exact ⟨rfl, rfl⟩

theorem registerH_sound (h : registerH c off = some r) : registerExists c .h r = true ∧ offsetOf r = off := by
  by_cases h1 : 0x010 ≤ off ∧ off < 0x040
  · obtain ⟨k, ⟨rfl, rfl⟩ | ⟨rfl, rfl⟩⟩ := (registerH_args h1).mp h <;> exact ⟨rfl, rfl⟩
  by_cases h2 : 0x080 ≤ off ∧ off < 0x100
  · obtain ⟨i, hi, rfl, rfl⟩ := (registerH_duties h2).mp h
    exact ⟨decide_eq_true hi, rfl⟩
  by_cases h3 : 0x100 ≤ off ∧ off < 0x900
  · obtain ⟨i, hi, ⟨rfl, rfl⟩ | ⟨rfl, rfl⟩⟩ := (registerH_vars h3).mp h <;>
      exact ⟨decide_eq_true hi, rfl⟩
  by_cases h4 : 0x1000 ≤ off ∧ off < 0x2000
  · obtain ⟨k, hk, ⟨rfl, rfl⟩ | ⟨f, hf, ⟨rfl, rfl⟩ | ⟨rfl, rfl⟩⟩⟩ := (registerH_ctl h4).mp h
    · exact ⟨decide_eq_true hk, rfl⟩
    · exact ⟨by simpa [registerExists] using ⟨hk, hf⟩, rfl⟩
    · exact ⟨by simpa [registerExists] using ⟨hk, hf⟩, rfl⟩
  exact plainRegisterH_sound (registerH_plain h1 h2 h3 h4 ▸ h)

/-- An offset names only a register that exists on the port, and that stands there (R82, R83, R85). -/
theorem registerAt_sound {x : Port} (h : registerAt c x off = some r) :
    registerExists c x r = true ∧ offsetOf r = off := by
  cases x with
  | h => exact registerH_sound h
  | p => exact registerPC_sound rfl h
  | c => exact registerPC_sound rfl h

/-- The bounds of R10, R14 and R15 keep every block below the next one, so its offset names the register. -/
theorem registerH_offsetOf (h : c.wellFormed = true) (hr : registerExists c .h r = true) :
    registerH c (offsetOf r) = some r := by
  obtain ⟨hps, hcl, hvar⟩ := wellFormed_bounds h
  cases r with
  | argLo k => exact (registerH_args (by simp only [offsetOf]; omega)).mpr ⟨k, .inl ⟨rfl, rfl⟩⟩
  | argHi k => exact (registerH_args (by simp only [offsetOf]; omega)).mpr ⟨k, .inr ⟨rfl, rfl⟩⟩
  | psDuty i =>
    have hi : i < c.psNmax := of_decide_eq_true hr
    exact (registerH_duties (by simp only [offsetOf]; omega)).mpr ⟨i, hi, rfl, rfl⟩
  | varLo i =>
    have hi : i < c.varCount := of_decide_eq_true hr
    exact (registerH_vars (by simp only [offsetOf]; omega)).mpr ⟨i, hi, .inl ⟨rfl, rfl⟩⟩
  | varHi i =>
    have hi : i < c.varCount := of_decide_eq_true hr
    exact (registerH_vars (by simp only [offsetOf]; omega)).mpr ⟨i, hi, .inr ⟨rfl, rfl⟩⟩
  | ctlRef k =>
    have hk : k < c.clNmax := of_decide_eq_true hr
    exact (registerH_ctl (by simp only [offsetOf]; omega)).mpr ⟨k, hk, .inl ⟨rfl, rfl⟩⟩
  | ctlLo k f =>
    obtain ⟨hk, hf⟩ : k < c.clNmax ∧ f < 8 := by simpa [registerExists] using hr
    exact (registerH_ctl (by simp only [offsetOf]; omega)).mpr ⟨k, hk, .inr ⟨f, hf, .inl ⟨rfl, rfl⟩⟩⟩
  | ctlHi k f =>
    obtain ⟨hk, hf⟩ : k < c.clNmax ∧ f < 8 := by simpa [registerExists] using hr
    exact (registerH_ctl (by simp only [offsetOf]; omega)).mpr ⟨k, hk, .inr ⟨f, hf, .inr ⟨rfl, rfl⟩⟩⟩
  | rbCfg | rbOwn | rbView => cases hr
  | _ => rfl

theorem registerPC_offsetOf {x : Port} (hx : x.isRing = true) (hr : registerExists c x r = true) :
    registerPC (offsetOf r) = some r := by
  cases x <;> cases hx <;> cases r <;> cases hr <;> rfl

/-- A register that exists on the port is the one at its offset (R82, R83, R85). -/
theorem registerAt_offsetOf {x : Port} (h : c.wellFormed = true) (hr : registerExists c x r = true) :
    registerAt c x (offsetOf r) = some r := by
  cases x with
  | h => exact registerH_offsetOf h hr
  | p => exact registerPC_offsetOf rfl hr
  | c => exact registerPC_offsetOf rfl hr

theorem registerAt_eq_none {x : Port} (h : ∀ r, registerExists c x r = true → offsetOf r ≠ off) :
    registerAt c x off = none :=
  Option.eq_none_iff_forall_ne_some.mpr fun r hr =>
    have ⟨hex, hoff⟩ := registerAt_sound hr
    h r hex hoff

end

/-- Settles O7: a name at an offset is sound, and complete by the bounds of the parameters. -/
theorem registersStandAtTheirOffsets : Obligations.RegistersStandAtTheirOffsets := by
  intro c x off r hc
  constructor
  · exact registerAt_sound
  · rintro ⟨hr, rfl⟩
    exact registerAt_offsetOf hc hr

/-- Settles O8: an offset without a register has no entry in the map of its port. -/
theorem reservedOffsetsReadZeroIgnoreWrites : Obligations.ReservedOffsetsReadZeroIgnoreWrites := by
  intro s x off v _ h
  have hnone : registerAt s.cfg x off = none := registerAt_eq_none h
  exact ⟨by rw [busRead, hnone], by rw [busWrite, hnone]⟩

end Sys2Proof.Proofs

/-! ## Accesses to a register -/

namespace Sys2Proof.Proofs

open Sys2Proof.Machine Sys2Proof.Safety Sys2Proof.Laws

section
variable {s : State} {x : Port} {r : Register}

/-- The master's access to a register that exists is proper, and it acts at the register's offset (R84). -/
theorem busAccess_registerAccess (h : s.cfg.wellFormed = true) (hr : registerExists s.cfg x r = true) (op : BusOp) :
    busAccess (registerAccess s.cfg x r op) s = match op with
      | .read => .next (s.setPort x { s.port x with rdata := busRead s x (offsetOf r) })
      | .write v => busWrite x (offsetOf r) v s := by
  have hbase := baseOf_aligned h x
  obtain ⟨h4, hin⟩ := offsetOf_inside h hr
  rw [busAccess_proper (x := x) h rfl (by simp only [registerAccess]; omega) (Nat.le_add_right ..)
    (Nat.add_lt_add_left hin _) rfl]
  cases op <;> simp only [registerAccess, Nat.add_sub_cancel_left]

theorem busRead_offsetOf (h : s.cfg.wellFormed = true) (hr : registerExists s.cfg x r = true) :
    busRead s x (offsetOf r) = readRegister s x r := by
  rw [busRead, registerAt_offsetOf h hr]

theorem busWrite_offsetOf (h : s.cfg.wellFormed = true) (hr : registerExists s.cfg x r = true) (hc : r ≠ .cmd)
    (v : Word) : busWrite x (offsetOf r) v s = .next (writeRegister v s r) := by
  obtain ⟨hat, -⟩ | ⟨r', -, hat, e⟩ | ⟨hat, -⟩ := busWrite_cases x (offsetOf r) v s
  · exact absurd (Option.some.inj ((registerAt_offsetOf h hr).symm.trans hat)) hc
  · cases (registerAt_offsetOf h hr).symm.trans hat
    exact e
  · cases (registerAt_offsetOf h hr).symm.trans hat

/-- A read of a register gives its master the register's value (R84). -/
theorem busAccess_readRegister (h : s.cfg.wellFormed = true) (hr : registerExists s.cfg x r = true) :
    busAccess (registerAccess s.cfg x r .read) s
      = .next (s.setPort x { s.port x with rdata := readRegister s x r }) := by
  rw [busAccess_registerAccess h hr, busRead_offsetOf h hr]

/-- A write of a register other than CMD stores as `writeRegister` says (R84). -/
theorem busAccess_writeRegister (h : s.cfg.wellFormed = true) (hr : registerExists s.cfg x r = true) (hc : r ≠ .cmd)
    (v : Word) : busAccess (registerAccess s.cfg x r (.write v)) s = .next (writeRegister v s r) := by
  rw [busAccess_registerAccess h hr]
  exact busWrite_offsetOf h hr hc v

/-- The RW registers are `H.IARG` and the halves of ARG and VAR; every other one ignores writes (R82, R83, R85). -/
theorem writeRegister_readOnly (v : Word) (hi : r ≠ .iarg) (ha : ∀ k, r ≠ .argLo k ∧ r ≠ .argHi k)
    (hv : ∀ i, r ≠ .varLo i ∧ r ≠ .varHi i) : writeRegister v s r = s := by
  cases r with
  | iarg => exact absurd rfl hi
  | argLo k => exact absurd rfl (ha k).1
  | argHi k => exact absurd rfl (ha k).2
  | varLo i => exact absurd rfl (hv i).1
  | varHi i => exact absurd rfl (hv i).2
  | _ => rfl

end

/-! ## The words of several fields -/

/-- A field above the bits that a word uses adds its value at its place, and every other bit stays as it is. -/
theorem toNat_or_shiftLeft {a b : Word} {m n k : Nat} (ha : a.toNat = m) (hb : b.toNat = n) (hm : m < 2 ^ k)
    (hn : 2 ^ k * n < 2 ^ 32) : (a ||| b <<< k).toNat = m + 2 ^ k * n := by
  subst ha hb
  rw [BitVec.toNat_or, BitVec.toNat_shiftLeft, Nat.shiftLeft_eq, Nat.mul_comm, Nat.mod_eq_of_lt hn, Nat.or_comm,
    ← Nat.two_pow_add_eq_or_of_lt hm, Nat.add_comm]

@[simp] theorem boolWord_toNat (b : Bool) : (boolWord b).toNat = b.toNat := by cases b <;> rfl

/-- `H.PS_STAT` (R86). -/
theorem psStatWord_toNat (u : Pulse) : (psStatWord u).toNat
    = u.armed.toNat + 2 ^ 1 * (u.phase == .drivingHigh).toNat + 2 ^ 8 * u.cur.toNat + 2 ^ 16 * u.n.toNat := by
  have ha := u.armed.toNat_le
  have hp := (u.phase == .drivingHigh).toNat_le
  have hc := u.cur.isLt
  have hn := u.n.isLt
  have hphase := toNat_or_shiftLeft (k := 1) (boolWord_toNat u.armed) (boolWord_toNat (u.phase == .drivingHigh))
    (by omega) (by omega)
  have hcur := toNat_or_shiftLeft (k := 8) hphase (BitVec.toNat_setWidth_of_le (b := u.cur) (by decide : 5 ≤ 32))
    (by omega) (by omega)
  exact toNat_or_shiftLeft hcur (BitVec.toNat_setWidth_of_le (by decide)) (by omega) (by omega)

/-- `H.CL_STAT` (R86). -/
theorem clStatWord_toNat (u : Loop) : (clStatWord u).toNat = u.run.toNat + 2 ^ 8 * u.n.toNat := by
  have hr := u.run.toNat_le
  have hn := u.n.isLt
  exact toNat_or_shiftLeft (boolWord_toNat u.run) (BitVec.toNat_setWidth_of_le (by decide)) (by omega) (by omega)

/-- `P.RB_CFG` and `C.RB_CFG` (R85). -/
theorem rbCfgWord_toNat (cdc : Bool) (u : Ring) :
    (rbCfgWord cdc u).toNat = u.len.toNat + 2 ^ 16 * u.ready.toNat + 2 ^ 17 * cdc.toNat := by
  have hl := u.len.isLt
  have hr := u.ready.toNat_le
  have hc := cdc.toNat_le
  have hready := toNat_or_shiftLeft (k := 16) (BitVec.toNat_setWidth_of_le (b := u.len) (by decide : 16 ≤ 32))
    (boolWord_toNat u.ready) (by omega) (by omega)
  exact toNat_or_shiftLeft hready (boolWord_toNat cdc) (by omega) (by omega)

/-- `H.CTL_REF[k]` (R83). -/
theorem ctlRefWord_toNat (c : Controller) : (ctlRefWord c).toNat
    = c.sp.toNat + 2 ^ 8 * c.meas.toNat + 2 ^ 16 * c.out.toNat + 2 ^ 24 * c.valid.toNat := by
  have hs := c.sp.isLt
  have hm := c.meas.isLt
  have ho := c.out.isLt
  have hv := c.valid.toNat_le
  have hmeas := toNat_or_shiftLeft (k := 8) (BitVec.toNat_setWidth_of_le (b := c.sp) (by decide : 8 ≤ 32))
    (BitVec.toNat_setWidth_of_le (b := c.meas) (by decide : 8 ≤ 32)) (by omega) (by omega)
  have hout := toNat_or_shiftLeft (k := 16) hmeas (BitVec.toNat_setWidth_of_le (b := c.out) (by decide : 8 ≤ 32))
    (by omega) (by omega)
  exact toNat_or_shiftLeft hout (boolWord_toNat c.valid) (by omega) (by omega)

/-- `H.PS_OUT` shows the lines that exist (R82). -/
theorem psOutWord_getLsbD (c : Config.Params) (u : Pulse) {i : Nat} (hi : i < 32) :
    (psOutWord c u).getLsbD i = (u.out.getLsbD i && decide (i < c.psNmax)) := by
  rw [psOutWord, BitVec.getLsbD_and, BitVec.getLsbD_ofNat, Nat.testBit_two_pow_sub_one, decide_eq_true hi,
    Bool.true_and]

theorem ctlField_of_controllerField {c : Controller} {f : Nat} {v : F64} (h : ControllerField c f v) :
    ctlField c f = v := by
  have hf : f < 8 := (List.getElem?_eq_some_iff.mp h).1
  interval_cases f <;> exact Option.some.inj h

/-- The maps of R82, R83 and R85 for every state. -/
theorem registersShow (s : State) : RegistersShow s where
  cmd _ := rfl
  status _ := rfl
  res _ := rfl
  iarg := rfl
  argLo _ := rfl
  argHi _ := rfl
  psStat := psStatWord_toNat s.ps
  psOut _ hi := psOutWord_getLsbD s.cfg s.ps hi
  psCnt := rfl
  psDeadline := rfl
  psSlot := rfl
  psPre := rfl
  psDuty _ := rfl
  clStat := clStatWord_toNat s.cl
  clCnt := BitVec.toNat_setWidth_of_le (by decide)
  clOvf := BitVec.toNat_setWidth_of_le (by decide)
  varLo _ := rfl
  varHi _ := rfl
  ctlRef k := ctlRefWord_toNat (ctlAt s.cl k)
  ctlFields k f v h := by
    rw [readRegister, readRegister, ctlField_of_controllerField h]
    exact ⟨rfl, rfl⟩
  rbCfg x _ := rbCfgWord_toNat s.cfg.rbCdc s.rb
  rbOwnP := BitVec.toNat_setWidth_of_le (by decide)
  rbOwnC := BitVec.toNat_setWidth_of_le (by decide)
  rbViewP := by
    rw [← apply_ite BitVec.toNat]
    exact BitVec.toNat_setWidth_of_le (by decide)
  rbViewC := by
    rw [← apply_ite BitVec.toNat]
    exact BitVec.toNat_setWidth_of_le (by decide)

/-- Settles O9: the values by `registersShow`, the accesses by what a read and a write of a register do. -/
theorem accessesReachTheirRegister : Obligations.AccessesReachTheirRegister := by
  intro s hc
  refine ⟨registersShow s, fun x r hr => ⟨busAccess_readRegister hc hr, fun v hcmd hi ha hv => ?_⟩⟩
  rw [busAccess_writeRegister hc hr hcmd, writeRegister_readOnly v hi ha hv]

/-! ## The halves of a 64-bit value -/

@[simp] theorem loHalf_withLo (x : F64) (v : Word) : loHalf (withLo x v) = v := BitVec.extractLsb'_append_eq_right

@[simp] theorem hiHalf_withLo (x : F64) (v : Word) : hiHalf (withLo x v) = hiHalf x := BitVec.extractLsb'_append_eq_left

@[simp] theorem loHalf_withHi (x : F64) (v : Word) : loHalf (withHi x v) = loHalf x :=
  BitVec.extractLsb'_append_eq_right

@[simp] theorem hiHalf_withHi (x : F64) (v : Word) : hiHalf (withHi x v) = v := BitVec.extractLsb'_append_eq_left

/-- A new low half in one place of several keeps every high half and every other low half (R90). -/
theorem halves_ite_withLo {p : Prop} [Decidable p] {x y : F64} (v : Word) (h : p → y = x) :
    hiHalf (if p then withLo x v else y) = hiHalf y
      ∧ loHalf (if p then withLo x v else y) = if p then v else loHalf y := by
  by_cases hp : p
  · simp [hp, h hp]
  · simp [hp]

/-- A new high half in one place of several keeps every low half and every other high half (R90). -/
theorem halves_ite_withHi {p : Prop} [Decidable p] {x y : F64} (v : Word) (h : p → y = x) :
    loHalf (if p then withHi x v else y) = loHalf y
      ∧ hiHalf (if p then withHi x v else y) = if p then v else hiHalf y := by
  by_cases hp : p
  · simp [hp, h hp]
  · simp [hp]

theorem getElem_args_set (s : State) (k j : Fin 6) (x : F64) :
    (s.args.set k x)[j] = if j = k then x else s.args[j] := by
  simp only [Fin.getElem_fin, Vector.getElem_set, Fin.ext_iff, eq_comm]

theorem varAt_set {s : State} {i : Nat} (h : i < s.vars.length) (j : Nat) (x : F64) :
    varAt { s with vars := s.vars.set i x } j = if j = i then x else varAt s j := by
  simp only [varAt, List.getD_eq_getElem?_getD, List.getElem?_set, h, if_true, eq_comm]
  split <;> rfl

/-- Settles O10: each write is `writeRegister`'s, which sets one place to its value with one half new. -/
theorem halvesAreWrittenIndependently : Obligations.HalvesAreWrittenIndependently := by
  intro s v hc hlen
  have hw : ∀ r, registerExists s.cfg .h r = true → r ≠ .cmd →
      busAccess (registerAccess s.cfg .h r (.write v)) s = .next (writeRegister v s r) :=
    fun r hr hcmd => busAccess_writeRegister hc hr hcmd v
  refine ⟨hw .iarg rfl nofun, fun k => ?_, fun k => ?_, fun i hi => ?_, fun i hi => ?_⟩
  · refine ⟨_, hw (.argLo k) rfl nofun, rfl, fun j => ?_⟩
    simp only [writeRegister, getElem_args_set]
    exact halves_ite_withLo v (congrArg (s.args[·]))
  · refine ⟨_, hw (.argHi k) rfl nofun, rfl, fun j => ?_⟩
    simp only [writeRegister, getElem_args_set]
    exact halves_ite_withHi v (congrArg (s.args[·]))
  · refine ⟨_, hw (.varLo i) (decide_eq_true hi) nofun, rfl, writeRegister_vars_length v s _, fun j => ?_⟩
    simp only [writeRegister, varAt_set (hlen ▸ hi)]
    exact halves_ite_withLo v (congrArg (varAt s))
  · refine ⟨_, hw (.varHi i) (decide_eq_true hi) nofun, rfl, writeRegister_vars_length v s _, fun j => ?_⟩
    simp only [writeRegister, varAt_set (hlen ▸ hi)]
    exact halves_ite_withHi v (congrArg (varAt s))

/-! ## Reads leave the block as it is -/

/-- No register shows what the last read returned, so none shows that it changed (R92; log 7). -/
theorem readRegister_setPort_rdata (s : State) (x y : Port) (v : Word) (r : Register) :
    readRegister (s.setPort x { s.port x with rdata := v }) y r = readRegister s y r := by
  obtain ⟨hstatus, hres⟩ : ((s.setPort x { s.port x with rdata := v }).port y).status = (s.port y).status
      ∧ ((s.setPort x { s.port x with rdata := v }).port y).res = (s.port y).res := by
    by_cases h : y = x
    · subst h
      rw [setPort_port_self]
      exact ⟨rfl, rfl⟩
    · rw [setPort_port_other _ _ _ _ h]
      exact ⟨rfl, rfl⟩
  cases r with
  | status => exact hstatus
  | res => exact hres
  | _ => cases x <;> rfl

theorem busRead_setPort_rdata (s : State) (x y : Port) (v : Word) (off : Nat) :
    busRead (s.setPort x { s.port x with rdata := v }) y off = busRead s y off := by
  simp only [busRead, setPort_cfg, readRegister_setPort_rdata]

/-- Settles O11: a read that answers a next state stores its result, which no register shows. -/
theorem readsHaveNoSideEffect : Obligations.ReadsHaveNoSideEffect := by
  intro a s t hop h
  obtain ⟨-, -, x, -, -, ⟨-, rfl⟩ | ⟨v, hw, -⟩⟩ := busAccess_next h
  · exact ⟨⟨x, _, rfl⟩, fun y off => busRead_setPort_rdata s x y _ off⟩
  · cases hop.symm.trans hw

/-! ## Proper accesses are not refused -/

/-- The answer is a next state, or the one fault of log 6. -/
def NotRefused (a : Answer) : Prop := ∀ r, a ≠ .refused r

theorem notRefused_next (t : State) : NotRefused (.next t) := nofun

theorem notRefused_of_eq_next {a : Answer} {t : State} (h : a = .next t) : NotRefused a := h ▸ notRefused_next t

theorem notRefused_ite {p : Prop} [Decidable p] {a b : Answer} (ha : NotRefused a) (hb : NotRefused b) :
    NotRefused (if p then a else b) := by
  split
  · exact ha
  · exact hb

theorem notRefused_withStorage (s : State) (j : Nat) {k : Answer} (h : NotRefused k) : NotRefused (withStorage s j k) :=
  notRefused_ite h nofun

theorem notRefused_ringQuery (x : Port) (f : Nat → Nat → Nat → Word) (s : State) : NotRefused (ringQuery x f s) := by
  obtain ⟨-, e⟩ | ⟨w, r, -, ⟨-, e⟩ | ⟨-, e⟩⟩ := ringQuery_cases x f s <;> exact notRefused_of_eq_next e

/-- `RB_PUSH`, `RB_POP` and `RB_PEEK` have one shape: two checks, then one access to the storage (R172, R178, R179). -/
theorem notRefused_checkedStorage {p q : Prop} [Decidable p] [Decidable q] (s : State) (j : Nat) (t u v : State) :
    NotRefused (if p then if q then .next t else withStorage s j (.next u) else .next v) :=
  notRefused_ite (notRefused_ite (notRefused_next t) (notRefused_withStorage s j (notRefused_next u)))
    (notRefused_next v)

theorem notRefused_execRbPush (a : Byte) (s : State) : NotRefused (execRbPush a s) :=
  notRefused_checkedStorage s _ _ _ _

theorem notRefused_execRbPop (s : State) : NotRefused (execRbPop s) :=
  notRefused_checkedStorage s _ _ _ _

theorem notRefused_execRbPeek (s : State) : NotRefused (execRbPeek s) :=
  notRefused_checkedStorage s _ _ _ _

theorem notRefused_execRbPushOverwrite (a : Byte) (s : State) : NotRefused (execRbPushOverwrite a s) :=
  notRefused_ite (notRefused_next _)
    (notRefused_ite (notRefused_withStorage _ _ (notRefused_ite (notRefused_next _) (notRefused_next _)))
      (notRefused_next _))

/-- Every command has a meaning, and no meaning refuses (R127). -/
theorem notRefused_exec (i : Instr) (s : State) : NotRefused (exec i s) := by
  cases i with
  | nop x => exact notRefused_of_eq_next (execNop_cases x s)
  | psInit n => obtain e | ⟨-, e⟩ := execPsInit_cases n s <;> exact notRefused_of_eq_next e
  | psSetChannel index =>
    obtain ⟨-, e⟩ | ⟨-, -, e⟩ | ⟨-, -, e⟩ := execPsSetChannel_cases index s <;> exact notRefused_of_eq_next e
  | psSetAll => obtain ⟨-, e⟩ | ⟨-, e⟩ := execPsSetAll_cases s <;> exact notRefused_of_eq_next e
  | psSetChannels base =>
    obtain ⟨-, e⟩ | ⟨-, -, e⟩ | ⟨-, -, e⟩ := execPsSetChannels_cases base s <;> exact notRefused_of_eq_next e
  | clMake k => obtain e | e | e := execClMake_cases k s <;> exact notRefused_of_eq_next e
  | clInit n => obtain e | e | ⟨-, -, e⟩ := execClInit_cases n s <;> exact notRefused_of_eq_next e
  | clIterate =>
    obtain ⟨-, e⟩ | ⟨-, -, e⟩ | ⟨-, -, e⟩ := execClIterate_cases s <;> exact notRefused_of_eq_next e
  | rbInit len => obtain e | ⟨-, -, e⟩ := execRbInit_cases len s <;> exact notRefused_of_eq_next e
  | rbPush a => exact notRefused_execRbPush a s
  | rbPushOverwrite a => exact notRefused_execRbPushOverwrite a s
  | rbIsEmpty x => unfold exec execRbIsEmpty; exact notRefused_ringQuery x _ s
  | rbIsFull x => unfold exec execRbIsFull; exact notRefused_ringQuery x _ s
  | rbPushAvailable x => unfold exec execRbPushAvailable; exact notRefused_ringQuery x _ s
  | rbPopAvailable x => unfold exec execRbPopAvailable; exact notRefused_ringQuery x _ s
  | rbPop => exact notRefused_execRbPop s
  | rbPeek => exact notRefused_execRbPeek s

theorem notRefused_runCommand (x : Port) (w : Word) (s : State) : NotRefused (runCommand x w s) := by
  obtain ⟨i, -, e⟩ | ⟨err, -, e⟩ := runCommand_cases x w s
  · exact e ▸ notRefused_exec i s
  · exact notRefused_of_eq_next e

theorem notRefused_busWrite (x : Port) (off : Nat) (v : Word) (s : State) : NotRefused (busWrite x off v s) := by
  obtain ⟨-, e⟩ | ⟨r, -, -, e⟩ | ⟨-, e⟩ := busWrite_cases x off v s
  · exact e ▸ notRefused_runCommand x v s
  · exact notRefused_of_eq_next e
  · exact notRefused_of_eq_next e

/-- Settles O13: a proper access passes every check, and neither a read nor a write refuses after them. -/
theorem properAccessesAreNeverRefused : Obligations.ProperAccessesAreNeverRefused := by
  intro a s x r hc hs h4 h1 h2 hm
  rw [busAccess_proper hc hs h4 h1 h2 hm]
  cases a.op with
  | read => exact notRefused_next _ r
  | write v => exact notRefused_busWrite x _ v s r

/-! ## The bytes of the windows -/

theorem windowByte_offsetOf {s : State} (h : s.cfg.wellFormed = true) {x : Port} {r : Register}
    (hr : registerExists s.cfg x r = true) {j : Nat} (hj : j < 4) :
    windowByte s x (offsetOf r + j) = (readRegister s x r).extractLsb' (8 * j) 8 := by
  have h4 := (offsetOf_inside h hr).1
  have hoff : (offsetOf r + j) / 4 * 4 = offsetOf r := by omega
  have hbyte : (offsetOf r + j) % 4 = j := by omega
  rw [windowByte, hoff, hbyte, busRead_offsetOf h hr]

theorem extractLsb'_loHalf (x : F64) {j : Nat} (hj : j < 4) :
    (loHalf x).extractLsb' (8 * j) 8 = x.extractLsb' (8 * j) 8 :=
  BitVec.extractLsb'_extractLsb'_of_le (by omega)

theorem extractLsb'_hiHalf (x : F64) {j : Nat} (hj : j < 4) :
    (hiHalf x).extractLsb' (8 * j) 8 = x.extractLsb' (8 * (4 + j)) 8 := by
  apply BitVec.eq_of_getLsbD_eq
  intro i hi
  have hlow : 8 * j + i < 32 := by omega
  simp only [hiHalf, BitVec.getLsbD_extractLsb', hlow, decide_true, Bool.true_and]
  congr 2
  omega

/-- A 64-bit value whose halves follow each other occupies eight byte addresses, the least significant first (R88). -/
theorem windowByte_of_halves {s : State} (h : s.cfg.wellFormed = true) {x : Port} {lo hi : Register} {d : F64}
    (hlo : registerExists s.cfg x lo = true) (hhi : registerExists s.cfg x hi = true)
    (hoff : offsetOf hi = offsetOf lo + 4) (hrlo : readRegister s x lo = loHalf d)
    (hrhi : readRegister s x hi = hiHalf d) {j : Nat} (hj : j < 8) :
    windowByte s x (offsetOf lo + j) = d.extractLsb' (8 * j) 8 := by
  by_cases h4 : j < 4
  · rw [windowByte_offsetOf h hlo h4, hrlo, extractLsb'_loHalf d h4]
  · obtain ⟨i, rfl⟩ : ∃ i, j = 4 + i := ⟨j - 4, by omega⟩
    have hi4 : i < 4 := by omega
    rw [← Nat.add_assoc, ← hoff, windowByte_offsetOf h hhi hi4, hrhi, extractLsb'_hiHalf d hi4]

/-- Settles O14: the bytes of one register, and those of the two halves of an ARG register and of a VAR entry. -/
theorem windowBytesAreLittleEndian : Obligations.WindowBytesAreLittleEndian := by
  intro s hc
  refine ⟨fun x r j hr hj => windowByte_offsetOf hc hr hj, fun k j hj => ?_, fun i hi j hj => ?_⟩
  · exact windowByte_of_halves (x := .h) (lo := .argLo k) (hi := .argHi k) hc rfl rfl
      (by simp only [offsetOf]; omega) rfl rfl hj
  · exact windowByte_of_halves (x := .h) (lo := .varLo i) (hi := .varHi i) hc (decide_eq_true hi) (decide_eq_true hi)
      (by simp only [offsetOf]; omega) rfl rfl hj

end Sys2Proof.Proofs

/-!
PROOFS. The statements of the family 30_encoding: the fields and the mask of a command word, decoding and encoding, and
the pseudo-instructions that load a register.
-/

/-! ## The fields of a command word -/

namespace Sys2Proof.Proofs

open Sys2Proof.Laws

section
variable (w v : Word) (op a : Byte) (l : Half)

theorem opField_toNat : (opField w).toNat = w.toNat % 2 ^ 8 := BitVec.extractLsb'_toNat ..

theorem aField_toNat : (aField w).toNat = w.toNat / 2 ^ 8 % 2 ^ 8 := by
  rw [aField, BitVec.extractLsb'_toNat, Nat.shiftRight_eq_div_pow]

theorem lField_toNat : (lField w).toNat = w.toNat / 2 ^ 16 % 2 ^ 16 := by
  rw [lField, BitVec.extractLsb'_toNat, Nat.shiftRight_eq_div_pow]

/-- A word is its three fields (R120, R124). -/
theorem word_eq_iff {w v : Word} : w = v ↔ opField w = opField v ∧ aField w = aField v ∧ lField w = lField v := by
  simp only [← BitVec.toNat_inj, opField_toNat, aField_toNat, lField_toNat]
  omega

@[simp] theorem opField_and : opField (w &&& v) = opField w &&& opField v := BitVec.extractLsb'_and
@[simp] theorem aField_and : aField (w &&& v) = aField w &&& aField v := BitVec.extractLsb'_and
@[simp] theorem lField_and : lField (w &&& v) = lField w &&& lField v := BitVec.extractLsb'_and

/-! ### The words of R132 -/

theorem wordA_toNat : (wordA op a).toNat = op.toNat + 2 ^ 8 * a.toNat := by
  have hop := op.isLt
  have ha := a.isLt
  rw [wordA, BitVec.or_comm]
  exact toNat_or_shiftLeft (BitVec.toNat_setWidth_of_le (by decide)) (BitVec.toNat_setWidth_of_le (by decide))
    (by omega) (by omega)

theorem wordL_toNat : (wordL op l).toNat = op.toNat + 2 ^ 16 * l.toNat := by
  have hop := op.isLt
  have hl := l.isLt
  rw [wordL, BitVec.or_comm]
  exact toNat_or_shiftLeft (BitVec.toNat_setWidth_of_le (by decide)) (BitVec.toNat_setWidth_of_le (by decide))
    (by omega) (by omega)

/-- A word without operands is one whose operand is 0. -/
theorem wordZ_eq_wordA : wordZ op = wordA op 0#8 := by simp [wordZ, wordA]

@[simp] theorem aField_wordA : aField (wordA op a) = a := by
  have hop := op.isLt
  have ha := a.isLt
  rw [← BitVec.toNat_inj, aField_toNat, wordA_toNat]
  omega

@[simp] theorem lField_wordA : lField (wordA op a) = 0#16 := by
  have hop := op.isLt
  have ha := a.isLt
  rw [← BitVec.toNat_inj, lField_toNat, wordA_toNat, BitVec.toNat_ofNat]
  omega

@[simp] theorem aField_wordL : aField (wordL op l) = 0#8 := by
  have hop := op.isLt
  rw [← BitVec.toNat_inj, aField_toNat, wordL_toNat, BitVec.toNat_ofNat]
  omega

@[simp] theorem lField_wordL : lField (wordL op l) = l := by
  have hop := op.isLt
  have hl := l.isLt
  rw [← BitVec.toNat_inj, lField_toNat, wordL_toNat]
  omega

@[simp] theorem opField_wordZ : opField (wordZ op) = op := by rw [wordZ_eq_wordA, EncodedRow.wordA_opField]
@[simp] theorem aField_wordZ : aField (wordZ op) = 0#8 := by rw [wordZ_eq_wordA, aField_wordA]
@[simp] theorem lField_wordZ : lField (wordZ op) = 0#16 := by rw [wordZ_eq_wordA, lField_wordA]

/-! ### The must-be-zero fields, the word and the mask of a format -/

theorem mbzOk_z : mbzOk .z w = true ↔ aField w = 0#8 ∧ lField w = 0#16 := by
  simp only [mbzOk, beq_iff_eq, ← BitVec.toNat_inj, BitVec.extractLsb'_toNat, Nat.shiftRight_eq_div_pow, aField_toNat,
    lField_toNat, BitVec.toNat_ofNat]
  omega

theorem mbzOk_a : mbzOk .a w = true ↔ lField w = 0#16 := beq_iff_eq

theorem mbzOk_l : mbzOk .l w = true ↔ aField w = 0#8 := beq_iff_eq

/-- The word of R132 for a format; an operand that the format does not carry is ignored. -/
def formatWord : Format → Byte → Byte → Half → Word
  | .z, op, _, _ => wordZ op
  | .a, op, a, _ => wordA op a
  | .l, op, _, l => wordL op l

/-- The mask of a format: all bits but those of its operand (R125). -/
def formatMask : Format → Word
  | .z => 0xFFFFFFFF
  | .a => 0xFFFF00FF
  | .l => 0x0000FFFF

theorem formatWord_fields {f : Format} (h : mbzOk f w = true) : formatWord f (opField w) (aField w) (lField w) = w := by
  cases f with
  | z => simp [word_eq_iff, formatWord, (mbzOk_z w).mp h]
  | a => simp [word_eq_iff, formatWord, (mbzOk_a w).mp h, EncodedRow.wordA_opField]
  | l => simp [word_eq_iff, formatWord, (mbzOk_l w).mp h, EncodedRow.wordL_opField]

/-- A word meets a mask and match of R125 exactly when it has the opcode and the zero bits of its format. -/
theorem and_formatMask_eq_wordZ_iff (f : Format) :
    w &&& formatMask f = wordZ op ↔ opField w = op ∧ mbzOk f w = true := by
  simp only [word_eq_iff, opField_and, aField_and, lField_and, opField_wordZ, aField_wordZ, lField_wordZ]
  cases f with
  | z =>
    have hmask : opField (formatMask .z) = .allOnes 8 ∧ aField (formatMask .z) = .allOnes 8
        ∧ lField (formatMask .z) = .allOnes 16 := by decide
    simp only [hmask, BitVec.and_allOnes, mbzOk_z]
  | a =>
    have hmask : opField (formatMask .a) = .allOnes 8 ∧ aField (formatMask .a) = 0#8
        ∧ lField (formatMask .a) = .allOnes 16 := by decide
    simp only [hmask, BitVec.and_allOnes, BitVec.and_zero, true_and, mbzOk_a]
  | l =>
    have hmask : opField (formatMask .l) = .allOnes 8 ∧ aField (formatMask .l) = .allOnes 8
        ∧ lField (formatMask .l) = 0#16 := by decide
    simp only [hmask, BitVec.and_allOnes, BitVec.and_zero, and_true, mbzOk_l]

end

end Sys2Proof.Proofs

/-! ## Decoding and encoding -/

namespace Sys2Proof.Proofs

open Sys2Proof.Safety Sys2Proof.Laws

/-- Decoding answers a command exactly by the row of the word's opcode, its zero bits and its ports (R127). -/
theorem decode_eq_ok_iff {x : Port} {w : Word} {i : Instr} :
    decode x w = .ok i ↔ ∃ r, rowOf (opField w) = some r ∧ mbzOk r.format w = true ∧ r.ports.contains x = true
      ∧ r.build x (aField w) (lField w) = i := by
  unfold decode
  cases rowOf (opField w) with
  | none => simp
  | some r =>
    by_cases hz : mbzOk r.format w = true
    · by_cases hp : x ∈ r.ports <;> simp [hz, hp]
    · simp [hz]

/-- Each opcode stands in one row of the map (R125). -/
theorem rowOf_eq_some_iff {op : Byte} {r : OpRow} : rowOf op = some r ↔ r ∈ opRows ∧ r.op = op := by
  constructor
  · intro h
    exact ⟨List.mem_of_find?_eq_some h, eq_of_beq (List.find?_some (p := fun q : OpRow => q.op == op) h)⟩
  · rintro ⟨hr, rfl⟩
    have hrows : opRows.Forall fun r => rowOf r.op = some r := by and_intros <;> rfl
    exact List.forall_iff_forall_mem.mp hrows r hr

/-! ### From the command to its word and back -/

section
variable {x : Port} {r : OpRow} (op : Byte)

theorem decode_wordZ (hr : rowOf op = some r) (hf : r.format = .z) (hp : r.ports.contains x = true) :
    decode x (wordZ op) = .ok (r.build x 0 0) :=
  decode_eq_ok_iff.mpr ⟨r, by rwa [opField_wordZ], by simp [hf, mbzOk_z], hp, by simp⟩

theorem decode_wordA (a : Byte) (hr : rowOf op = some r) (hf : r.format = .a) (hp : r.ports.contains x = true) :
    decode x (wordA op a) = .ok (r.build x a 0) :=
  decode_eq_ok_iff.mpr ⟨r, by rwa [EncodedRow.wordA_opField], by simp [hf, mbzOk_a], hp, by simp⟩

theorem decode_wordL (l : Half) (hr : rowOf op = some r) (hf : r.format = .l) (hp : r.ports.contains x = true) :
    decode x (wordL op l) = .ok (r.build x 0 l) :=
  decode_eq_ok_iff.mpr ⟨r, by rwa [EncodedRow.wordL_opField], by simp [hf, mbzOk_l], hp, by simp⟩

end

theorem contains_of_isRing {x : Port} (h : x.isRing = true) : [Port.p, .c].contains x = true := by
  cases x with
  | h => cases h
  | p => rfl
  | c => rfl

/-- Settles O1: the row of the command's opcode has the format of its word and builds the command from the operand. -/
theorem decodeOfEncodeIsTheCommand : Obligations.DecodeOfEncodeIsTheCommand := by
  intro i hi
  cases i with
  | nop x => exact decode_wordZ 0x00 rfl rfl (by cases x <;> rfl)
  | psInit a => exact decode_wordA 0x10 a rfl rfl rfl
  | psSetChannel a => exact decode_wordA 0x11 a rfl rfl rfl
  | psSetAll => exact decode_wordZ 0x12 rfl rfl rfl
  | psSetChannels a => exact decode_wordA 0x13 a rfl rfl rfl
  | clMake a => exact decode_wordA 0x20 a rfl rfl rfl
  | clInit a => exact decode_wordA 0x21 a rfl rfl rfl
  | clIterate => exact decode_wordZ 0x22 rfl rfl rfl
  | rbInit l => exact decode_wordL 0x30 l rfl rfl rfl
  | rbPush a => exact decode_wordA 0x31 a rfl rfl rfl
  | rbPushOverwrite a => exact decode_wordA 0x32 a rfl rfl rfl
  | rbIsEmpty x => exact decode_wordZ 0x34 rfl rfl (contains_of_isRing hi)
  | rbIsFull x => exact decode_wordZ 0x35 rfl rfl (contains_of_isRing hi)
  | rbPushAvailable x => exact decode_wordZ 0x36 rfl rfl (contains_of_isRing hi)
  | rbPopAvailable x => exact decode_wordZ 0x37 rfl rfl (contains_of_isRing hi)
  | rbPop => exact decode_wordZ 0x38 rfl rfl rfl
  | rbPeek => exact decode_wordZ 0x39 rfl rfl rfl

/-- The word of what a row builds has the row's opcode and format (R125, R132). -/
theorem encode_build {r : OpRow} (hr : r ∈ opRows) (x : Port) (a : Byte) (l : Half) :
    encode (r.build x a l) = formatWord r.format r.op a l := by
  have hrows : opRows.Forall fun r => ∀ x a l, encode (r.build x a l) = formatWord r.format r.op a l := by
    and_intros <;> exact fun _ _ _ => rfl
  exact List.forall_iff_forall_mem.mp hrows r hr x a l

/-- What a row builds on a port that it lists is a well-formed command of that port (R125). -/
theorem wellFormed_build {r : OpRow} (hr : r ∈ opRows) {x : Port} (a : Byte) (l : Half)
    (hx : r.ports.contains x = true) : (r.build x a l).wellFormed = true ∧ (r.build x a l).port = x := by
  have hrows : opRows.Forall fun r => ∀ x, r.ports.contains x = true → ∀ a l,
      (r.build x a l).wellFormed = true ∧ (r.build x a l).port = x := by
    and_intros <;> rintro ⟨⟩ ⟨⟩ <;> exact fun _ _ => ⟨rfl, rfl⟩
  exact List.forall_iff_forall_mem.mp hrows r hr x hx a l

/-- Settles O2: the word's row builds the command, and the fields make up the word. -/
theorem encodeOfDecodeIsTheWord : Obligations.EncodeOfDecodeIsTheWord := by
  intro x w i h
  obtain ⟨r, hr, hz, hp, rfl⟩ := decode_eq_ok_iff.mp h
  obtain ⟨hmem, hop⟩ := rowOf_eq_some_iff.mp hr
  obtain ⟨hwf, hport⟩ := wellFormed_build hmem (aField w) (lField w) hp
  refine ⟨hwf, hport, ?_⟩
  rw [encode_build hmem, hop, formatWord_fields w hz]

/-! ### Mask, match and port -/

/-- The masks and matches of R125 are those of the rows' formats and opcodes. -/
theorem opcodeMasks_eq : opcodeMasks = opRows.map fun r => (formatMask r.format, wordZ r.op, r.ports) := rfl

/-- Settles O3: a row's mask and match say the opcode and the zero bits, and the decoder checks just these and the
port. -/
theorem wordSpellsCommandExactlyByMaskAndPort : Obligations.WordSpellsCommandExactlyByMaskAndPort := by
  intro x w
  simp only [opcodeMasks_eq, List.mem_map, exists_exists_and_eq_and, and_formatMask_eq_wordZ_iff, decode_eq_ok_iff,
    rowOf_eq_some_iff]
  constructor
  · rintro ⟨i, r, ⟨hr, hop⟩, hz, hp, -⟩
    exact ⟨r, hr, ⟨hop.symm, hz⟩, List.contains_iff_mem.mp hp⟩
  · rintro ⟨r, hr, ⟨hop, hz⟩, hp⟩
    exact ⟨_, r, ⟨hr, hop.symm⟩, hz, List.contains_iff_mem.mpr hp, rfl⟩

/-- Settles O4: the worked words are the encodings of their commands; each rejected word fails one check of R127. -/
theorem workedWordsDecode : Obligations.WorkedWordsDecode := by
  refine ⟨?_, ?_, ?_, ?_, ?_, ?_, ?_, ?_⟩
  · exact decodeOfEncodeIsTheCommand (.psInit 4) rfl
  · exact decodeOfEncodeIsTheCommand (.rbPush 0x41) rfl
  · exact decodeOfEncodeIsTheCommand (.rbInit 8) rfl
  · exact decodeOfEncodeIsTheCommand .clIterate rfl
  · exact decodeOfEncodeIsTheCommand (.rbPopAvailable .c) rfl
  · decide
  · decide
  · decide

end Sys2Proof.Proofs

/-! ## Pseudo-instructions that load a register -/

namespace Sys2Proof.Proofs

open Sys2Proof.Machine Sys2Proof.Safety Sys2Proof.Laws

/-- A line `WR X.NAME, v` on a register other than CMD stores as `writeRegister` says (R130). -/
theorem perform_wrStep {s : State} {x : Port} {r : Register} (h : s.cfg.wellFormed = true)
    (hr : registerExists s.cfg x r = true) (hc : r ≠ .cmd) (v : Word) :
    perform (wrStep s.cfg x r v) s = .next (writeRegister v s r) := busAccess_writeRegister h hr hc v

/-- Two register writes store one after the other (R130). -/
theorem performAll_wrSteps {s : State} {x : Port} {r r' : Register} (h : s.cfg.wellFormed = true)
    (hr : registerExists s.cfg x r = true) (hc : r ≠ .cmd) (hr' : registerExists s.cfg x r' = true) (hc' : r' ≠ .cmd)
    (v v' : Word) :
    performAll [wrStep s.cfg x r v, wrStep s.cfg x r' v'] s = .next (writeRegister v' (writeRegister v s r) r') := by
  have hcfg : (writeRegister v s r).cfg = s.cfg := by rw [writeRegister_frame]
  have hsecond : perform (wrStep s.cfg x r' v') (writeRegister v s r)
      = .next (writeRegister v' (writeRegister v s r) r') :=
    hcfg ▸ perform_wrStep (s := writeRegister v s r) (hcfg ▸ h) (hcfg ▸ hr') hc' v'
  exact performAll_cons_next.mpr
    ⟨_, perform_wrStep h hr hc v, performAll_cons_next.mpr ⟨_, hsecond, performAll_nil _⟩⟩

/-- A 64-bit value is its two halves (R90). -/
theorem hiHalf_append_loHalf (x : F64) : hiHalf x ++ loHalf x = x :=
  (BitVec.extractLsb'_append_extractLsb'_eq_extractLsb' rfl).trans BitVec.extractLsb'_eq_self

/-- Both halves of a value written over another give the value, whatever stood there (R90). -/
theorem withHi_withLo_halves (y x : F64) : withHi (withLo y (loHalf x)) (hiHalf x) = x := by
  rw [withHi, loHalf_withLo, hiHalf_append_loHalf]

theorem writeRegister_arg_halves (s : State) (k : Fin 6) (x : F64) :
    writeRegister (hiHalf x) (writeRegister (loHalf x) s (.argLo k)) (.argHi k) = { s with args := s.args.set k x } := by
  simp [writeRegister, withHi_withLo_halves]

theorem writeRegister_var_halves {s : State} {i : Nat} (h : i < s.vars.length) (x : F64) :
    writeRegister (hiHalf x) (writeRegister (loHalf x) s (.varLo i)) (.varHi i) = { s with vars := s.vars.set i x } := by
  simp [writeRegister, varAt_set h, withHi_withLo_halves]

/-- The word that `LDIARG` writes (R131). -/
theorem iargWord_toNat (sp meas out : Byte) :
    (iargWord sp meas out).toNat = sp.toNat + 2 ^ 8 * meas.toNat + 2 ^ 16 * out.toNat := by
  have hs := sp.isLt
  have hm := meas.isLt
  have ho := out.isLt
  have hmeas := toNat_or_shiftLeft (k := 8) (BitVec.toNat_setWidth_of_le (b := sp) (by decide : 8 ≤ 32))
    (BitVec.toNat_setWidth_of_le (b := meas) (by decide : 8 ≤ 32)) (by omega) (by omega)
  rw [iargWord, BitVec.or_assoc, BitVec.or_comm, BitVec.or_comm (meas.setWidth 32 <<< 8)]
  exact toNat_or_shiftLeft hmeas (BitVec.toNat_setWidth_of_le (by decide)) (by omega) (by omega)

/-- The fields of `H.IARG` are the bytes of the word (R33, R124). -/
theorem iarg_fields_iargWord {s : State} {sp meas out : Byte} (h : s.iarg = iargWord sp meas out) :
    iargSp s = sp ∧ iargMeas s = meas ∧ iargOut s = out := by
  have hs := sp.isLt
  have hm := meas.isLt
  have ho := out.isLt
  simp only [iargSp, iargMeas, iargOut, h, ← BitVec.toNat_inj, BitVec.extractLsb'_toNat, Nat.shiftRight_eq_div_pow,
    iargWord_toNat]
  omega

/-- Settles O15: the two halves make up the value that the line loads, and `LDIARG` writes the word of its operands. -/
theorem loadPseudoInstructionsLoad : Obligations.LoadPseudoInstructionsLoad := by
  intro s hc hlen
  refine ⟨fun k x => ?_, fun i hi x => ?_, fun sp meas out => ?_⟩
  · rw [← writeRegister_arg_halves]
    exact performAll_wrSteps (x := .h) (r := .argLo k) (r' := .argHi k) hc rfl nofun rfl nofun _ _
  · rw [← writeRegister_var_halves (hlen ▸ hi)]
    exact performAll_wrSteps (x := .h) (r := .varLo i) (r' := .varHi i) hc (decide_eq_true hi) nofun (decide_eq_true hi)
      nofun _ _
  · have hwrite := perform_wrStep hc (x := .h) (r := .iarg) rfl nofun (iargWord sp meas out)
    exact ⟨_, performAll_cons_next.mpr ⟨_, hwrite, performAll_nil _⟩, rfl, iarg_fields_iargWord rfl⟩

end Sys2Proof.Proofs

/-!
PROOFS. The statements of the family 40_common: the command frame, which reports on one port, the ways a command ends,
and `NOP`.
-/

/-! ## The two registers a command reports in -/

namespace Sys2Proof.Proofs

open Sys2Proof.Machine Sys2Proof.Safety Sys2Proof.Laws

/-- The end of a command writes STATUS and RES of its port only (R153). -/
theorem complete_eq_reported (x : Port) (c : StatusCode) (v : Word) (s : State) :
    complete x c v s = reported s x (statusWord c) v := rfl

/-- A status code fits in bits [2:0] (R32, R340). -/
theorem statusWord_toNat_lt (c : StatusCode) : (statusWord c).toNat < 8 := by cases c <;> decide

/-- `SKIPPED` alone has the number 7 (R340). -/
theorem eq_skipped_of_statusWord {c : StatusCode} (h : statusWord c = 7) : c = .skipped := by
  cases c with
  | skipped => rfl
  | _ => exact absurd h (by decide)

theorem runCommand_of_decode_error {x : Port} {w : Word} {e : DecodeError} (h : decode x w = .error e) (s : State) :
    runCommand x w s = .next (complete x .illegal 0 s) := by
  simp only [runCommand, h, fail_eq_next]

/-- Settles O6: the write of the word runs it, and a word that does not decode completes with `ILLEGAL`. -/
theorem illegalWordOnlyReports : Obligations.IllegalWordOnlyReports := by
  intro s x w e hc hd
  rw [busAccess_cmdWrite hc, runCommand_of_decode_error hd, complete_eq_reported]
  rfl

/-- Settles O20, by the meaning of `NOP` and the end of a command. -/
theorem nopReportsOk : Obligations.NopReportsOk := fun x s =>
  (execNop_cases x s).trans (congrArg Host.Outcome.next (complete_eq_reported x .ok 0 s))

/-- Settles O16: a command completes on its own port, and the units' state holds no port's registers. -/
theorem commandsReportOnTheirOwnPort : Obligations.CommandsReportOnTheirOwnPort := by
  intro i s t _ h
  cases exec_completesOn h with
  | intro c v p vs l r =>
    refine ⟨fun y hy => complete_port_other _ _ _ _ _ hy, ?_, complete_rdata ..⟩
    rw [complete_status]
    exact statusWord_toNat_lt c

end Sys2Proof.Proofs

/-! ## The ways a command ends -/

namespace Sys2Proof.Proofs

open Sys2Proof.Machine Sys2Proof.Safety Sys2Proof.Laws

/-- A command on port `x` that started in `s` ends with `OK` after its effects, or fails with a code and leaves all else
as it was, or skips and leaves all but the CL counters, which it zeroes (R154). -/
inductive EndsOn (x : Port) (s : State) : State → Prop
  | succeeded (v : Word) (u : State) : EndsOn x s (complete x .ok v u)
  | failed (c : StatusCode) (hc : c ≠ .skipped) : EndsOn x s (complete x c 0 s)
  | skipped : EndsOn x s (complete x .skipped 0 { s with cl := { s.cl with cnt := 0, ovf := 0 } })

theorem ringQuery_endsOn {x : Port} {f : Nat → Nat → Nat → Word} {s t : State} (h : ringQuery x f s = .next t) :
    EndsOn x s t := by
  rcases ringQuery_cases x f s with ⟨-, e⟩ | ⟨w, r, -, ⟨-, e⟩ | ⟨-, e⟩⟩ <;> cases e.symm.trans h
  · exact .failed _ nofun
  · exact .failed _ nofun
  · exact .succeeded ..

/-- Only `CL_ITERATE` skips; every other command succeeds or fails. -/
theorem exec_endsOn {i : Instr} {s t : State} (h : exec i s = .next t) : EndsOn i.port s t := by
  cases i with
  | nop x =>
    cases (execNop_cases x s).symm.trans h
    exact .succeeded ..
  | psInit n =>
    rcases execPsInit_cases n s with e | ⟨-, e⟩ <;> cases e.symm.trans h
    · exact .failed _ nofun
    · exact .succeeded ..
  | psSetChannel index =>
    rcases execPsSetChannel_cases index s with ⟨-, e⟩ | ⟨-, -, e⟩ | ⟨-, -, e⟩ <;> cases e.symm.trans h
    · exact .failed _ nofun
    · exact .failed _ nofun
    · exact .succeeded ..
  | psSetAll =>
    rcases execPsSetAll_cases s with ⟨-, e⟩ | ⟨-, e⟩ <;> cases e.symm.trans h
    · exact .failed _ nofun
    · exact .succeeded ..
  | psSetChannels base =>
    rcases execPsSetChannels_cases base s with ⟨-, e⟩ | ⟨-, -, e⟩ | ⟨-, -, e⟩ <;> cases e.symm.trans h
    · exact .failed _ nofun
    · exact .failed _ nofun
    · exact .succeeded ..
  | clMake k =>
    rcases execClMake_cases k s with e | e | e <;> cases e.symm.trans h
    · exact .failed _ nofun
    · exact .failed _ nofun
    · exact .succeeded ..
  | clInit n =>
    rcases execClInit_cases n s with e | e | ⟨-, -, e⟩ <;> cases e.symm.trans h
    · exact .failed _ nofun
    · exact .failed _ nofun
    · exact .succeeded ..
  | clIterate =>
    rcases execClIterate_cases s with ⟨-, e⟩ | ⟨-, -, e⟩ | ⟨-, -, e⟩ <;> cases e.symm.trans h
    · exact .failed _ nofun
    · exact .skipped
    · exact .succeeded ..
  | rbInit len =>
    rcases execRbInit_cases len s with e | ⟨-, -, e⟩ <;> cases e.symm.trans h
    · exact .failed _ nofun
    · exact .succeeded ..
  | rbPush a =>
    obtain ⟨-, rfl⟩ | ⟨-, -, rfl⟩ | ⟨-, -, -, rfl⟩ := execRbPush_next h
    · exact .failed _ nofun
    · exact .failed _ nofun
    · exact .succeeded ..
  | rbPushOverwrite a =>
    obtain ⟨-, rfl⟩ | ⟨-, -, rfl⟩ | ⟨-, -, -, ⟨-, rfl⟩ | ⟨-, rfl⟩⟩ := execRbPushOverwrite_next h
    · exact .failed _ nofun
    · exact .failed _ nofun
    · exact .succeeded ..
    · exact .succeeded ..
  | rbIsEmpty x => unfold exec execRbIsEmpty at h; exact ringQuery_endsOn h
  | rbIsFull x => unfold exec execRbIsFull at h; exact ringQuery_endsOn h
  | rbPushAvailable x => unfold exec execRbPushAvailable at h; exact ringQuery_endsOn h
  | rbPopAvailable x => unfold exec execRbPopAvailable at h; exact ringQuery_endsOn h
  | rbPop =>
    obtain ⟨-, rfl⟩ | ⟨-, -, rfl⟩ | ⟨-, -, -, rfl⟩ := execRbPop_next h
    · exact .failed _ nofun
    · exact .failed _ nofun
    · exact .succeeded ..
  | rbPeek =>
    obtain ⟨-, rfl⟩ | ⟨-, -, rfl⟩ | ⟨-, -, -, rfl⟩ := execRbPeek_next h
    · exact .failed _ nofun
    · exact .failed _ nofun
    · exact .succeeded ..

/-- A word runs a command of its own port, so it ends there; an illegal one fails (R151, R152). -/
theorem runCommand_endsOn {x : Port} {w : Word} {s t : State} (h : runCommand x w s = .next t) : EndsOn x s t := by
  rcases runCommand_cases x w s with ⟨i, hd, e⟩ | ⟨_, -, e⟩
  · obtain ⟨-, rfl, -⟩ := encodeOfDecodeIsTheWord x w i hd
    exact exec_endsOn (e.symm.trans h)
  · cases e.symm.trans h
    exact .failed _ nofun

/-- Settles O17: the status tells which of the three ends a command has taken. -/
theorem failingCommandsChangeNothingElse : Obligations.FailingCommandsChangeNothingElse := by
  intro x w s t h
  cases runCommand_endsOn h with
  | succeeded v u =>
    simp only [complete_status]
    exact ⟨fun h0 => absurd rfl h0, fun h7 => absurd h7 (by decide)⟩
  | failed c hc =>
    simp only [complete_status]
    exact ⟨fun _ _ => complete_eq_reported .., fun h7 => absurd (eq_skipped_of_statusWord h7) hc⟩
  | skipped =>
    exact ⟨fun _ h7 => absurd (complete_status ..) h7, fun _ => by simp⟩

end Sys2Proof.Proofs

/-!
PROOFS. The statements of the family 41_ringbuffer: the indices and the counts, what each command answers, the queue of
the bytes between the indices, and the same queue over the bus.
-/

/-! ## The indices and the counts -/

namespace Sys2Proof.Proofs

open Sys2Proof.Machine Sys2Proof.Safety Sys2Proof.Laws

/-- Settles O47, by the two counts without their wrap. -/
theorem countsSumToTheCapacity : Obligations.CountsSumToTheCapacity := by
  intro len w r _ hw hr
  rw [pushAvail_eq len w r hw hr, popAvail_eq len w r hw hr]
  split <;> split <;> omega

section
variable {len w r : Nat}

/-- The bytes between the indices are counted by the way from the read index to the write index. -/
theorem popAvail_eq_iff (hw : w < len) (hr : r < len) (j : Nat) :
    popAvail len w r = j ↔ j < len ∧ (r + j) % len = w := by
  have hlt := popAvail_lt len w r (by omega)
  by_cases hj : j < len
  · rw [popAvail_eq len w r hw hr, Nat.add_mod_eq_ite, Nat.mod_eq_of_lt hr, Nat.mod_eq_of_lt hj]
    split <;> split <;> omega
  · omega

theorem add_popAvail_mod (hw : w < len) (hr : r < len) : (r + popAvail len w r) % len = w :=
  ((popAvail_eq_iff hw hr _).mp rfl).2

/-- Every stored byte lies at another place than the write index. -/
theorem add_mod_ne_of_lt_popAvail (hw : w < len) (hr : r < len) {j : Nat} (hj : j < popAvail len w r) :
    (r + j) % len ≠ w := fun e =>
  Nat.ne_of_gt hj ((popAvail_eq_iff hw hr j).mpr ⟨hj.trans (popAvail_lt len w r (by omega)), e⟩)

/-- `empty(w, r)` (R170) says that there is no byte to read. -/
theorem popAvail_eq_zero_iff (hw : w < len) (hr : r < len) : popAvail len w r = 0 ↔ w = r := by
  rw [popAvail_eq_iff hw hr, Nat.add_zero, Nat.mod_eq_of_lt hr]
  omega

/-- `full(w, r)` (R170) says that all bytes but one are to be read. -/
theorem popAvail_succ_eq_iff (hw : w < len) (hr : r < len) : popAvail len w r + 1 = len ↔ (w + 1) % len = r := by
  rw [popAvail_eq len w r hw hr, next_index_eq len w hw]
  split <;> split <;> omega

theorem popAvail_next_write (hw : w < len) (hr : r < len) (h : (w + 1) % len ≠ r) :
    popAvail len ((w + 1) % len) r = popAvail len w r + 1 := by
  have hlt := popAvail_lt len w r (by omega)
  have hne := (popAvail_succ_eq_iff hw hr).not.mpr h
  refine (popAvail_eq_iff (Nat.mod_lt _ (by omega)) hr _).mpr ⟨by omega, ?_⟩
  rw [← Nat.add_assoc, ← Nat.mod_add_mod, add_popAvail_mod hw hr]

theorem popAvail_next_read (hw : w < len) (hr : r < len) (h : w ≠ r) :
    popAvail len w ((r + 1) % len) + 1 = popAvail len w r := by
  have hlt := popAvail_lt len w r (by omega)
  have hne := (popAvail_eq_zero_iff hw hr).not.mpr h
  have hprev : popAvail len w ((r + 1) % len) = popAvail len w r - 1 := by
    refine (popAvail_eq_iff hw (Nat.mod_lt _ (by omega)) _).mpr ⟨by omega, ?_⟩
    rw [Nat.mod_add_mod, Nat.add_assoc, Nat.add_sub_cancel' (by omega), add_popAvail_mod hw hr]
  omega

theorem succ_mod_ne {i : Nat} (h2 : 2 ≤ len) (h : i < len) : (i + 1) % len ≠ i := by
  rw [next_index_eq len i h]
  split <;> omega

end

end Sys2Proof.Proofs

/-! ## A ready buffer -/

namespace Sys2Proof.Safety.RingReady

open Sys2Proof.Machine Sys2Proof.Laws Sys2Proof.Proofs

variable {c : Config.Params} {u : Ring} (h : RingReady c u)
include h

theorem wr_inside : u.wr.toNat < c.rbSize := h.wr_lt.trans_le h.len_le

theorem rd_inside : u.rd.toNat < c.rbSize := h.rd_lt.trans_le h.len_le

theorem next_toNat (i : Half) : (ringNext u.len i).toNat = (i.toNat + 1) % u.len.toNat :=
  ringNext_toNat _ _ (Nat.le_of_succ_le h.len_ge)

theorem occupancy_eq_zero_iff : occupancy u = 0 ↔ u.wr.toNat = u.rd.toNat := popAvail_eq_zero_iff h.wr_lt h.rd_lt

theorem occupancy_succ_eq_iff : occupancy u + 1 = u.len.toNat ↔ (u.wr.toNat + 1) % u.len.toNat = u.rd.toNat :=
  popAvail_succ_eq_iff h.wr_lt h.rd_lt

/-- The write index is the place after the stored bytes. -/
theorem add_occupancy_mod : (u.rd.toNat + occupancy u) % u.len.toNat = u.wr.toNat := add_popAvail_mod h.wr_lt h.rd_lt

/-- The write index is no place of a stored byte. -/
theorem add_mod_ne_wr {j : Nat} (hj : j < occupancy u) : (u.rd.toNat + j) % u.len.toNat ≠ u.wr.toNat :=
  add_mod_ne_of_lt_popAvail h.wr_lt h.rd_lt hj

/-- The byte at the read index of a buffer that is not empty has been stored by a push. -/
theorem exists_read (hne : u.wr.toNat ≠ u.rd.toNat) : ∃ b, Memory.read u.mem u.rd.toNat = some b := by
  have hocc := h.occupancy_eq_zero_iff.not.mpr hne
  have hfirst := h.stored 0 (by omega)
  rwa [Nat.add_zero, Nat.mod_eq_of_lt h.rd_lt, Option.isSome_iff_exists] at hfirst

/-! ### Storing and dropping a byte -/

theorem occupancy_store (a : Byte) (hroom : (u.wr.toNat + 1) % u.len.toNat ≠ u.rd.toNat) :
    occupancy (ringStore a u) = occupancy u + 1 := by
  simp only [occupancy, ringStore_len, ringStore_wr, ringStore_rd, h.next_toNat]
  exact popAvail_next_write h.wr_lt h.rd_lt hroom

theorem occupancy_drop (hne : u.wr.toNat ≠ u.rd.toNat) :
    occupancy { u with rd := ringNext u.len u.rd } + 1 = occupancy u := by
  simp only [occupancy, h.next_toNat]
  exact popAvail_next_read h.wr_lt h.rd_lt hne

/-- Place `j` after the next read index is place `j + 1` after the read index. -/
theorem next_add_mod (j : Nat) :
    ((ringNext u.len u.rd).toNat + j) % u.len.toNat = (u.rd.toNat + (j + 1)) % u.len.toNat := by
  rw [h.next_toNat, Nat.mod_add_mod, Nat.add_assoc, Nat.add_comm 1]

theorem store (a : Byte) (hroom : (u.wr.toNat + 1) % u.len.toNat ≠ u.rd.toNat) : RingReady c (ringStore a u) where
  len_ge := h.len_ge
  len_le := h.len_le
  wr_lt := h.next_toNat _ ▸ Nat.mod_lt _ (Nat.zero_lt_of_lt h.wr_lt)
  rd_lt := h.rd_lt
  stored j hj := by
    rw [h.occupancy_store a hroom, Nat.lt_succ_iff_lt_or_eq] at hj
    simp only [ringStore_mem, ringStore_rd, ringStore_len]
    rcases hj with hj | rfl
    · rw [memory_read_write_other _ _ _ _ (h.add_mod_ne_wr hj)]
      exact h.stored j hj
    · rw [h.add_occupancy_mod, memory_read_write_same, Option.isSome_some]

theorem drop (hne : u.wr.toNat ≠ u.rd.toNat) : RingReady c { u with rd := ringNext u.len u.rd } where
  len_ge := h.len_ge
  len_le := h.len_le
  wr_lt := h.wr_lt
  rd_lt := h.next_toNat _ ▸ Nat.mod_lt _ (Nat.zero_lt_of_lt h.wr_lt)
  stored j hj := by
    have hocc := h.occupancy_drop hne
    rw [h.next_add_mod]
    exact h.stored (j + 1) (by omega)

end Sys2Proof.Safety.RingReady

/-! ## What the invariant says of the views -/

namespace Sys2Proof.Proofs

open Sys2Proof.Machine Sys2Proof.Safety Sys2Proof.Laws

section
variable {s : State} (hi : RingInv s.cfg s.rb) (hr : s.rb.ready = true)
include hi hr

/-- Room in the producer's view is room in the buffer: the producer sees no pop too early (R182). -/
theorem room_of_view (h : (s.rb.wr.toNat + 1) % s.rb.len.toNat ≠ (viewRdP s).toNat) :
    (s.rb.wr.toNat + 1) % s.rb.len.toNat ≠ s.rb.rd.toNat := by
  have hu := hi.ready_ok hr
  unfold viewRdP at h
  split at h
  · next hc =>
    obtain ⟨hsync, -, hfit, -⟩ := hi.synced hr hc
    intro hfull
    have hocc : occupancy s.rb + 1 = s.rb.len.toNat := hu.occupancy_succ_eq_iff.mpr hfull
    have hseen : s.rb.rd.toNat = s.rb.rdSyncP.toNat :=
      (popAvail_eq_zero_iff hu.rd_lt hsync).mp (by unfold unseenPops at hfit; omega)
    exact h (hfull.trans hseen)
  · exact h

/-- A byte in the consumer's view is a byte in the buffer: the consumer sees no push too early (R182). -/
theorem stored_of_view (h : viewWrC s ≠ s.rb.rd) : s.rb.wr.toNat ≠ s.rb.rd.toNat := by
  have hu := hi.ready_ok hr
  unfold viewWrC at h
  split at h
  · next hc =>
    obtain ⟨-, hsync, -, hfit⟩ := hi.synced hr hc
    intro hempty
    have hocc : occupancy s.rb = 0 := hu.occupancy_eq_zero_iff.mpr hempty
    have hseen : s.rb.wr.toNat = s.rb.wrSyncC.toNat :=
      (popAvail_eq_zero_iff hu.wr_lt hsync).mp (by unfold unseenPushes at hfit; omega)
    exact h (BitVec.eq_of_toNat_eq (hseen.symm.trans hempty))
  · exact fun e => h (BitVec.eq_of_toNat_eq e)

end

end Sys2Proof.Proofs

/-! ## What the commands answer -/

namespace Sys2Proof.Proofs

open Sys2Proof.Machine Sys2Proof.Safety Sys2Proof.Laws

section
variable {s : State} {a : Byte}

/-! ### Setting up -/

theorem exec_rbInit_badArg {len : Half} (h : len.toNat < 2 ∨ s.cfg.rbSize < len.toNat) :
    exec (.rbInit len) s = .next (complete .p .badArg 0 s) := if_pos h

theorem exec_rbInit_accepted {len : Half} (h2 : 2 ≤ len.toNat) (hsize : len.toNat ≤ s.cfg.rbSize) :
    exec (.rbInit len) s
      = .next (complete .p .ok (BitVec.ofNat 32 (len.toNat - 1))
          { s with
            rb := { s.rb with
              ready := true
              len := len
              wr := 0
              rd := 0
              rdSyncP := if s.cfg.rbCdc then 0 else s.rb.rdSyncP
              wrSyncC := if s.cfg.rbCdc then 0 else s.rb.wrSyncC } }) :=
  if_neg (by omega)

/-! ### The failing answers -/

theorem exec_rbPush_notInit (h : s.rb.ready = false) : exec (.rbPush a) s = .next (complete .p .notInit 0 s) := by
  simp [exec, execRbPush, h]

theorem exec_rbPush_full (h : s.rb.ready = true) (hf : (s.rb.wr.toNat + 1) % s.rb.len.toNat = (viewRdP s).toNat) :
    exec (.rbPush a) s = .next (complete .p .full 0 s) := by
  simp [exec, execRbPush, ringFull, h, hf]

theorem exec_rbPushOverwrite_illegal (h : s.cfg.rbCdc = true) :
    exec (.rbPushOverwrite a) s = .next (complete .p .illegal 0 s) := by
  simp [exec, execRbPushOverwrite, h]

theorem exec_rbPushOverwrite_notInit (hc : s.cfg.rbCdc = false) (h : s.rb.ready = false) :
    exec (.rbPushOverwrite a) s = .next (complete .p .notInit 0 s) := by
  simp [exec, execRbPushOverwrite, hc, h]

theorem exec_rbPop_notInit (h : s.rb.ready = false) : exec .rbPop s = .next (complete .c .notInit 0 s) := by
  simp [exec, execRbPop, h]

theorem exec_rbPop_empty (h : s.rb.ready = true) (he : viewWrC s = s.rb.rd) :
    exec .rbPop s = .next (complete .c .empty 0 s) := by
  simp [exec, execRbPop, ringEmpty, h, he]

theorem exec_rbPeek_notInit (h : s.rb.ready = false) : exec .rbPeek s = .next (complete .c .notInit 0 s) := by
  simp [exec, execRbPeek, h]

theorem exec_rbPeek_empty (h : s.rb.ready = true) (he : viewWrC s = s.rb.rd) :
    exec .rbPeek s = .next (complete .c .empty 0 s) := by
  simp [exec, execRbPeek, ringEmpty, h, he]

/-! ### The answers of a ready buffer: its indices lie inside the storage, so no access faults -/

variable (hu : RingReady s.cfg s.rb) (h : s.rb.ready = true)
include hu h

theorem exec_rbPush_room (hf : (s.rb.wr.toNat + 1) % s.rb.len.toNat ≠ (viewRdP s).toNat) :
    exec (.rbPush a) s = .next (complete .p .ok 0 { s with rb := ringStore a s.rb }) := by
  simp [exec, execRbPush, ringFull, h, hf, hu.wr_inside]

theorem exec_rbPushOverwrite_drops (hc : s.cfg.rbCdc = false) (he : ringNext s.rb.len s.rb.wr = s.rb.rd) :
    exec (.rbPushOverwrite a) s
      = .next (complete .p .ok 1 { s with rb := { ringStore a s.rb with rd := ringNext s.rb.len s.rb.rd } }) := by
  simp [exec, execRbPushOverwrite, hc, h, he, hu.wr_inside]

theorem exec_rbPushOverwrite_room (hc : s.cfg.rbCdc = false) (he : ringNext s.rb.len s.rb.wr ≠ s.rb.rd) :
    exec (.rbPushOverwrite a) s = .next (complete .p .ok 0 { s with rb := ringStore a s.rb }) := by
  simp [exec, execRbPushOverwrite, hc, h, he, hu.wr_inside]

theorem exec_rbPop_stored (he : viewWrC s ≠ s.rb.rd) :
    exec .rbPop s
      = .next (complete .c .ok ((ringByte s s.rb.rd.toNat).setWidth 32)
          { s with rb := { s.rb with rd := ringNext s.rb.len s.rb.rd } }) := by
  simp [exec, execRbPop, ringEmpty, BitVec.toNat_inj, h, he, hu.rd_inside]

theorem exec_rbPeek_stored (he : viewWrC s ≠ s.rb.rd) :
    exec .rbPeek s = .next (complete .c .ok ((ringByte s s.rb.rd.toNat).setWidth 32) s) := by
  simp [exec, execRbPeek, ringEmpty, BitVec.toNat_inj, h, he, hu.rd_inside]

end

theorem ringByte_of_read {s : State} {j : Nat} {b : Byte} (h : Memory.read s.rb.mem j = some b) : ringByte s j = b := by
  rw [ringByte, h, Option.getD_some]

/-! ### The commands that write the buffer -/

/-- Settles O41, by the two answers of `RB_INIT`. -/
theorem rbInitEmptiesTheBuffer : Obligations.RbInitEmptiesTheBuffer := by
  intro s len _
  refine ⟨fun hbad => ?_, fun h2 hsize => ?_⟩
  · exact exec_rbInit_badArg hbad
  · refine ⟨_, _, exec_rbInit_accepted h2 hsize, ?_, rfl, rfl, rfl, rfl, rfl, fun hc => ?_, fun hc => ?_⟩
    · rw [BitVec.toNat_ofNat, Nat.mod_eq_of_lt (by omega)]
    · simp [hc]
    · simp [hc]

/-- Settles O42: the three answers of `RB_PUSH`, and the storage after the write of one byte. -/
theorem rbPushStoresOneByte : Obligations.RbPushStoresOneByte := by
  intro s a _ hi
  refine ⟨exec_rbPush_notInit, exec_rbPush_full, fun hr hroom => ?_⟩
  have hu := hi.ready_ok hr
  exact ⟨_, _, exec_rbPush_room hu hr hroom, hu.next_toNat _, memory_read_write_same ..,
    fun j hj => memory_read_write_other _ _ _ _ hj⟩

/-- Settles O43: the answers of `RB_PUSH_OVERWRITE`, and whether the advanced write index meets the read index. -/
theorem rbPushOverwriteDropsTheOldest : Obligations.RbPushOverwriteDropsTheOldest := by
  intro s a _ hi
  refine ⟨exec_rbPushOverwrite_illegal, exec_rbPushOverwrite_notInit, fun hc hr => ?_⟩
  have hu := hi.ready_ok hr
  by_cases he : ringNext s.rb.len s.rb.wr = s.rb.rd
  · exact ⟨_, _, _, _, exec_rbPushOverwrite_drops hu hr hc he, hu.next_toNat _, memory_read_write_same ..,
      fun j hj => memory_read_write_other _ _ _ _ hj, fun _ => ⟨hu.next_toNat _, rfl⟩, fun hne => absurd he hne⟩
  · exact ⟨_, _, _, _, exec_rbPushOverwrite_room hu hr hc he, hu.next_toNat _, memory_read_write_same ..,
      fun j hj => memory_read_write_other _ _ _ _ hj, fun e => absurd e he, fun _ => ⟨rfl, rfl⟩⟩

/-- Settles O45: the three answers of `RB_POP`; the byte at the read index has been stored. -/
theorem rbPopTakesTheOldestByte : Obligations.RbPopTakesTheOldestByte := by
  intro s _ hi
  refine ⟨exec_rbPop_notInit, exec_rbPop_empty, fun hr hne => ?_⟩
  have hu := hi.ready_ok hr
  obtain ⟨b, hb⟩ := hu.exists_read (stored_of_view hi hr hne)
  exact ⟨b, _, ringByte_of_read hb ▸ exec_rbPop_stored hu hr hne, hb, hu.next_toNat _⟩

/-- Settles O46: the three answers of `RB_PEEK`; the byte at the read index has been stored. -/
theorem rbPeekReadsTheOldestByte : Obligations.RbPeekReadsTheOldestByte := by
  intro s _ hi
  refine ⟨exec_rbPeek_notInit, exec_rbPeek_empty, fun hr hne => ?_⟩
  have hu := hi.ready_ok hr
  obtain ⟨b, hb⟩ := hu.exists_read (stored_of_view hi hr hne)
  exact ⟨b, ringByte_of_read hb ▸ exec_rbPeek_stored hu hr hne, hb⟩

/-! ### The queries -/

theorem exec_rbIsEmpty (x : Port) (s : State) :
    exec (.rbIsEmpty x) s = ringQuery x (fun _ w r => boolWord (ringEmpty w r)) s := rfl

theorem exec_rbIsFull (x : Port) (s : State) :
    exec (.rbIsFull x) s = ringQuery x (fun len w r => boolWord (ringFull len w r)) s := rfl

theorem exec_rbPushAvailable (x : Port) (s : State) :
    exec (.rbPushAvailable x) s = ringQuery x (fun len w r => BitVec.ofNat 32 (pushAvail len w r)) s := rfl

theorem exec_rbPopAvailable (x : Port) (s : State) :
    exec (.rbPopAvailable x) s = ringQuery x (fun len w r => BitVec.ofNat 32 (popAvail len w r)) s := rfl

section
variable {s : State} {x : Port} {w r : Half} (hp : ringPair s x = some (w, r)) (f : Nat → Nat → Nat → Word)
include hp

theorem ringQuery_notInit (h : s.rb.ready = false) : ringQuery x f s = .next (complete x .notInit 0 s) := by
  simp [ringQuery, hp, h]

theorem ringQuery_ready (h : s.rb.ready = true) :
    ringQuery x f s = .next (complete x .ok (f s.rb.len.toNat w.toNat r.toNat) s) := by
  simp [ringQuery, hp, h]

end

/-- A count below a 16-bit length is its own remainder as a result word. -/
theorem intCast_toNat_ofNat_emod (d : Int) (len : Half) (h : 0 < len.toNat) :
    (((BitVec.ofNat 32 (d % (len.toNat : Int)).toNat).toNat : Nat) : Int) = d % (len.toNat : Int) := by
  have hlen := len.isLt
  have hpos := Int.emod_nonneg d (show (len.toNat : Int) ≠ 0 by omega)
  have hlt := Int.emod_lt_of_pos d (show (0 : Int) < len.toNat by omega)
  rw [BitVec.toNat_ofNat, Nat.mod_eq_of_lt (by omega), Int.toNat_of_nonneg hpos]

/-- Settles O44: the four queries are one query of the port's pair. -/
theorem rbQueriesAnswerFromTheirPort : Obligations.RbQueriesAnswerFromTheirPort := by
  intro s x w r hx
  have hp : ringPair s x = some (w, r) := by
    obtain ⟨rfl, rfl, rfl⟩ | ⟨rfl, rfl, rfl⟩ := hx <;> rfl
  rw [exec_rbIsEmpty, exec_rbIsFull, exec_rbPushAvailable, exec_rbPopAvailable]
  refine ⟨fun h => ?_, fun h h2 _ _ => ?_⟩
  · exact ⟨ringQuery_notInit hp _ h, ringQuery_notInit hp _ h, ringQuery_notInit hp _ h, ringQuery_notInit hp _ h⟩
  · refine ⟨(ringQuery_ready hp _ h).trans ?_, (ringQuery_ready hp _ h).trans ?_,
      ⟨_, ringQuery_ready hp _ h, intCast_toNat_ofNat_emod _ _ (by omega)⟩,
      _, ringQuery_ready hp _ h, intCast_toNat_ofNat_emod _ _ (by omega)⟩
    · simp only [boolWord, ringEmpty, beq_iff_eq, BitVec.toNat_inj, complete_eq_reported]
      rfl
    · simp only [boolWord, ringFull, beq_iff_eq, complete_eq_reported]
      rfl

/-! ### The synchronisation steps -/

section
variable {s : State}

theorem perform_syncP (h : s.cfg.rbCdc = true) :
    perform .syncP s = .next { s with rb := { s.rb with rdSyncP := s.rb.rd } } :=
  if_pos h

theorem perform_syncC (h : s.cfg.rbCdc = true) :
    perform .syncC s = .next { s with rb := { s.rb with wrSyncC := s.rb.wr } } :=
  if_pos h

theorem perform_sync_absent (h : s.cfg.rbCdc = false) :
    perform .syncP s = .refused .agentAbsent ∧ perform .syncC s = .refused .agentAbsent := by
  simp [perform, syncP, syncC, h]

end

/-- Settles O50, by the two steps with and without the agents. -/
theorem syncStepsCopyOneIndex : Obligations.SyncStepsCopyOneIndex := fun _ =>
  ⟨fun h => ⟨_, _, perform_syncP h, rfl, if_pos h, perform_syncC h, rfl, if_pos h⟩,
    fun h => ⟨⟨_, (perform_sync_absent h).1⟩, _, (perform_sync_absent h).2⟩⟩

end Sys2Proof.Proofs

/-! ## The queue of the stored bytes -/

namespace Sys2Proof.Proofs

open Sys2Proof.Machine Sys2Proof.Safety Sys2Proof.Laws
open Sys2Proof.Config (Params)

theorem ringContents_length (s : State) : (ringContents s).length = occupancy s.rb := by simp [ringContents]

/-- Reporting on a port leaves the queue. -/
theorem ringContents_complete (x : Port) (c : StatusCode) (v : Word) (s : State) :
    ringContents (complete x c v s) = ringContents s := by cases x <;> rfl

section
variable {s : State} (h : RingReady s.cfg s.rb)
include h

/-- A stored byte is the last of the queue. -/
theorem ringContents_store (a : Byte) (hroom : (s.rb.wr.toNat + 1) % s.rb.len.toNat ≠ s.rb.rd.toNat) :
    ringContents { s with rb := ringStore a s.rb } = ringContents s ++ [a] := by
  have hother : ∀ j ∈ List.range (occupancy s.rb),
      ringByte { s with rb := ringStore a s.rb } ((s.rb.rd.toNat + j) % s.rb.len.toNat)
        = ringByte s ((s.rb.rd.toNat + j) % s.rb.len.toNat) := by
    intro j hj
    simp only [ringByte, ringStore_mem, memory_read_write_other _ _ _ _ (h.add_mod_ne_wr (List.mem_range.mp hj))]
  have hlast : ringByte { s with rb := ringStore a s.rb } ((s.rb.rd.toNat + occupancy s.rb) % s.rb.len.toNat) = a :=
    h.add_occupancy_mod ▸ ringByte_of_read (memory_read_write_same ..)
  simp only [ringContents, ringStore_rd, ringStore_len, h.occupancy_store a hroom, List.range_succ, List.map_append,
    List.map_singleton, hlast, List.map_congr_left hother]

/-- The byte at the read index is the first of the queue, and dropping it leaves the others. -/
theorem ringContents_drop (hne : s.rb.wr.toNat ≠ s.rb.rd.toNat) :
    ringContents s = ringByte s s.rb.rd.toNat
      :: ringContents { s with rb := { s.rb with rd := ringNext s.rb.len s.rb.rd } } := by
  simp only [ringContents, ← h.occupancy_drop hne, List.range_succ_eq_map, List.map_cons, List.map_map,
    Function.comp_def, h.next_add_mod, Nat.add_zero, Nat.mod_eq_of_lt h.rd_lt, Nat.succ_eq_add_one]
  rfl

end

/-! ### The commands that answered `OK` -/

/-- Only `OK` has the number 0 (R340). -/
theorem eq_ok_of_status_eq_zero {x : Port} {c : StatusCode} {v : Word} {s : State}
    (h : ((complete x c v s).port x).status = 0) : c = .ok := by
  rw [complete_status] at h
  cases c with
  | ok => rfl
  | _ => exact absurd h (by decide)

section
variable {s t : State} {a : Byte}

theorem rbPush_ok (h : exec (.rbPush a) s = .next t) (h0 : t.portP.status = 0) :
    s.rb.ready = true ∧ (s.rb.wr.toNat + 1) % s.rb.len.toNat ≠ (viewRdP s).toNat
      ∧ t = complete .p .ok 0 { s with rb := ringStore a s.rb } := by
  obtain ⟨-, rfl⟩ | ⟨-, -, rfl⟩ | ⟨hr, hroom, -, ht⟩ := execRbPush_next h
  · exact nomatch eq_ok_of_status_eq_zero (x := .p) h0
  · exact nomatch eq_ok_of_status_eq_zero (x := .p) h0
  · exact ⟨hr, hroom, ht⟩

theorem rbPushOverwrite_ok (h : exec (.rbPushOverwrite a) s = .next t) (h0 : t.portP.status = 0) :
    s.rb.ready = true
      ∧ ((ringNext s.rb.len s.rb.wr = s.rb.rd
          ∧ t = complete .p .ok 1 { s with rb := { ringStore a s.rb with rd := ringNext s.rb.len s.rb.rd } })
        ∨ (ringNext s.rb.len s.rb.wr ≠ s.rb.rd ∧ t = complete .p .ok 0 { s with rb := ringStore a s.rb })) := by
  obtain ⟨-, rfl⟩ | ⟨-, -, rfl⟩ | ⟨-, hr, -, ht⟩ := execRbPushOverwrite_next h
  · exact nomatch eq_ok_of_status_eq_zero (x := .p) h0
  · exact nomatch eq_ok_of_status_eq_zero (x := .p) h0
  · exact ⟨hr, ht⟩

theorem rbPop_ok (h : exec .rbPop s = .next t) (h0 : t.portC.status = 0) :
    s.rb.ready = true ∧ viewWrC s ≠ s.rb.rd
      ∧ t = complete .c .ok ((ringByte s s.rb.rd.toNat).setWidth 32)
          { s with rb := { s.rb with rd := ringNext s.rb.len s.rb.rd } } := by
  obtain ⟨-, rfl⟩ | ⟨-, -, rfl⟩ | ⟨hr, hne, -, ht⟩ := execRbPop_next h
  · exact nomatch eq_ok_of_status_eq_zero (x := .c) h0
  · exact nomatch eq_ok_of_status_eq_zero (x := .c) h0
  · exact ⟨hr, hne, ht⟩

theorem rbPeek_ok (h : exec .rbPeek s = .next t) (h0 : t.portC.status = 0) :
    s.rb.ready = true ∧ viewWrC s ≠ s.rb.rd
      ∧ t = complete .c .ok ((ringByte s s.rb.rd.toNat).setWidth 32) s := by
  obtain ⟨-, rfl⟩ | ⟨-, -, rfl⟩ | ⟨hr, hne, -, ht⟩ := execRbPeek_next h
  · exact nomatch eq_ok_of_status_eq_zero (x := .c) h0
  · exact nomatch eq_ok_of_status_eq_zero (x := .c) h0
  · exact ⟨hr, hne, ht⟩

/-! ### What they do to the queue -/

theorem ringContents_rbPush (hi : RingInv s.cfg s.rb) (h : exec (.rbPush a) s = .next t) (h0 : t.portP.status = 0) :
    ringContents t = ringContents s ++ [a] := by
  obtain ⟨hr, hroom, rfl⟩ := rbPush_ok h h0
  rw [ringContents_complete, ringContents_store (hi.ready_ok hr) a (room_of_view hi hr hroom)]

/-- An overwriting push into a full buffer is a drop followed by a push into the room it made. -/
theorem ringContents_rbPushOverwrite (hi : RingInv s.cfg s.rb) (h : exec (.rbPushOverwrite a) s = .next t)
    (h0 : t.portP.status = 0) :
    ringContents t = (if (ringContents s).length + 1 = s.rb.len.toNat then (ringContents s).tail
      else ringContents s) ++ [a] := by
  obtain ⟨hr, ht⟩ := rbPushOverwrite_ok h h0
  have hu := hi.ready_ok hr
  have hmeet : ringNext s.rb.len s.rb.wr = s.rb.rd ↔ (s.rb.wr.toNat + 1) % s.rb.len.toNat = s.rb.rd.toNat := by
    rw [← BitVec.toNat_inj, hu.next_toNat]
  have hqueue : (ringContents s).length + 1 = s.rb.len.toNat ↔ ringNext s.rb.len s.rb.wr = s.rb.rd := by
    rw [ringContents_length, hu.occupancy_succ_eq_iff, hmeet]
  obtain ⟨he, rfl⟩ | ⟨he, rfl⟩ := ht
  · have hfull := hmeet.mp he
    have hne : s.rb.wr.toNat ≠ s.rb.rd.toNat := fun e => succ_mod_ne hu.len_ge hu.wr_lt (hfull.trans e.symm)
    have hroom : (s.rb.wr.toNat + 1) % s.rb.len.toNat ≠ (ringNext s.rb.len s.rb.rd).toNat := by
      rw [hfull, hu.next_toNat]
      exact (succ_mod_ne hu.len_ge hu.rd_lt).symm
    rw [if_pos (hqueue.mpr he), ringContents_drop hu hne, List.tail_cons, ringContents_complete]
    exact ringContents_store (s := { s with rb := { s.rb with rd := ringNext s.rb.len s.rb.rd } }) (hu.drop hne) a hroom
  · rw [if_neg (hqueue.not.mpr he), ringContents_complete, ringContents_store hu a (hmeet.not.mp he)]

theorem ringContents_rbPop (hi : RingInv s.cfg s.rb) (h : exec .rbPop s = .next t) (h0 : t.portC.status = 0) :
    ∃ b, ringContents s = b :: ringContents t ∧ t.portC.res = b.setWidth 32 := by
  obtain ⟨hr, hne, rfl⟩ := rbPop_ok h h0
  rw [ringContents_complete]
  exact ⟨_, ringContents_drop (hi.ready_ok hr) (stored_of_view hi hr hne), rfl⟩

theorem ringContents_rbPeek (hi : RingInv s.cfg s.rb) (h : exec .rbPeek s = .next t) (h0 : t.portC.status = 0) :
    ringContents t = ringContents s ∧ ∃ b rest, ringContents s = b :: rest ∧ t.portC.res = b.setWidth 32 := by
  obtain ⟨hr, hne, rfl⟩ := rbPeek_ok h h0
  exact ⟨ringContents_complete .., _, _, ringContents_drop (hi.ready_ok hr) (stored_of_view hi hr hne), rfl⟩

theorem ringContents_rbInit {len : Half} (h : exec (.rbInit len) s = .next t) (h0 : t.portP.status = 0) :
    ringContents t = [] := by
  rcases execRbInit_cases len s with e | ⟨h2, -, e⟩ <;> cases e.symm.trans h
  · exact nomatch eq_ok_of_status_eq_zero (x := .p) h0
  · refine List.length_eq_zero_iff.mp ((ringContents_length _).trans ?_)
    exact (popAvail_eq_zero_iff (by simp; omega) (by simp; omega)).mpr rfl

end

/-- Settles O48, command by command. -/
theorem contentsFollowTheQueue : Obligations.ContentsFollowTheQueue := fun _ _ _ hi =>
  ⟨fun _ => ringContents_rbPush hi, fun _ => ringContents_rbPushOverwrite hi, ringContents_rbPop hi,
    ringContents_rbPeek hi, fun _ => ringContents_rbInit⟩

end Sys2Proof.Proofs

/-! ## The queue over the bus -/

namespace Sys2Proof.Proofs

open Sys2Proof.Machine Sys2Proof.Safety Sys2Proof.Laws
open Sys2Proof.Config (Params)

theorem perform_commandStep {s : State} (h : s.cfg.wellFormed = true) {i : Instr} (hi : i.wellFormed = true) :
    perform (commandStep s.cfg i) s = exec i s :=
  busAccess_cmdWrite_of_decode h (decodeOfEncodeIsTheCommand i hi)

/-- With `RB_CDC = 0`, the block with the parameters `c` holds a ready buffer of length `len` with the queue `q`. -/
structure HoldsQueue (c : Params) (len : Nat) (q : List Byte) (s : State) : Prop where
  cfg_eq : s.cfg = c
  cfg_ok : c.wellFormed = true
  no_cdc : c.rbCdc = false
  ready : s.rb.ready = true
  len_eq : s.rb.len.toNat = len
  ring : RingReady s.cfg s.rb
  contents : ringContents s = q

namespace HoldsQueue

variable {c : Params} {len : Nat} {q : List Byte} {s : State}

theorem viewRdP_eq (h : HoldsQueue c len q s) : viewRdP s = s.rb.rd := by simp [viewRdP, h.cfg_eq, h.no_cdc]

theorem viewWrC_eq (h : HoldsQueue c len q s) : viewWrC s = s.rb.wr := by simp [viewWrC, h.cfg_eq, h.no_cdc]

theorem full_iff (h : HoldsQueue c len q s) :
    q.length + 1 = len ↔ (s.rb.wr.toNat + 1) % s.rb.len.toNat = s.rb.rd.toNat := by
  rw [← h.contents, ringContents_length, ← h.len_eq]
  exact h.ring.occupancy_succ_eq_iff

theorem empty_iff (h : HoldsQueue c len q s) : q = [] ↔ s.rb.wr.toNat = s.rb.rd.toNat := by
  rw [← h.contents, ← List.length_eq_zero_iff, ringContents_length]
  exact h.ring.occupancy_eq_zero_iff

theorem perform_eq (h : HoldsQueue c len q s) {i : Instr} (hi : i.wellFormed = true) :
    perform (commandStep c i) s = exec i s := by
  have hc := h.cfg_eq
  subst hc
  exact perform_commandStep h.cfg_ok hi

/-! ### One command -/

theorem push (h : HoldsQueue c len q s) (b : Byte) (hroom : q.length + 1 ≠ len) :
    ∃ t, perform (commandStep c (.rbPush b)) s = .next t ∧ t.portP.status = 0 ∧ HoldsQueue c len (q ++ [b]) t := by
  have hne := h.full_iff.not.mp hroom
  refine ⟨_, (h.perform_eq rfl).trans (exec_rbPush_room h.ring h.ready (h.viewRdP_eq ▸ hne)), rfl,
    { h with ring := h.ring.store b hne, contents := ?_ }⟩
  rw [ringContents_complete, ringContents_store h.ring b hne, h.contents]

theorem push_full (h : HoldsQueue c len q s) (b : Byte) (hfull : q.length + 1 = len) :
    ∃ t, perform (commandStep c (.rbPush b)) s = .next t ∧ t.portP.status = 1 :=
  ⟨_, (h.perform_eq rfl).trans (exec_rbPush_full h.ready (h.viewRdP_eq ▸ h.full_iff.mp hfull)), rfl⟩

theorem pop {b : Byte} (h : HoldsQueue c len (b :: q) s) :
    ∃ t, perform (commandStep c .rbPop) s = .next t ∧ t.portC.status = 0 ∧ t.portC.res = b.setWidth 32
      ∧ HoldsQueue c len q t := by
  have hne := h.empty_iff.not.mp (List.cons_ne_nil b q)
  have hview : viewWrC s ≠ s.rb.rd := fun e => hne (congrArg BitVec.toNat (h.viewWrC_eq ▸ e))
  obtain ⟨hb, hq⟩ := List.cons.inj (h.contents.symm.trans (ringContents_drop h.ring hne))
  exact ⟨_, (h.perform_eq rfl).trans (exec_rbPop_stored h.ring h.ready hview), rfl, hb ▸ rfl,
    { h with ring := h.ring.drop hne, contents := hq.symm }⟩

/-! ### Several commands -/

theorem pushAll (h : HoldsQueue c len q s) (bytes : List Byte) (hroom : q.length + bytes.length < len) :
    ∃ t, performAll (bytes.map fun b => commandStep c (.rbPush b)) s = .next t
      ∧ (0 < bytes.length → t.portP.status = 0) ∧ HoldsQueue c len (q ++ bytes) t := by
  induction bytes using List.reverseRecOn with
  | nil => exact ⟨s, rfl, fun h0 => absurd h0 (Nat.lt_irrefl 0), q.append_nil.symm ▸ h⟩
  | append_singleton bytes b ih =>
    rw [List.length_append, List.length_singleton] at hroom
    obtain ⟨t, hrun, -, ht⟩ := ih (by omega)
    obtain ⟨u, hpush, hok, hu⟩ := ht.push b (by rw [List.length_append]; omega)
    refine ⟨u, ?_, fun _ => hok, List.append_assoc .. ▸ hu⟩
    rw [List.map_append, performAll_append_next]
    exact ⟨t, hrun, performAll_cons_next.mpr ⟨u, hpush, performAll_nil u⟩⟩

theorem popAll (h : HoldsQueue c len q s) (j : Nat) (hj : j < q.length) :
    ∃ t, performAll (List.replicate (j + 1) (commandStep c .rbPop)) s = .next t
      ∧ t.portC.status = 0 ∧ t.portC.res = q[j].setWidth 32 := by
  induction q generalizing s j with
  | nil => exact absurd hj (Nat.not_lt_zero j)
  | cons b q ih =>
    obtain ⟨t, hpop, hok, hres, ht⟩ := h.pop
    cases j with
    | zero => exact ⟨t, performAll_cons_next.mpr ⟨t, hpop, performAll_nil t⟩, hok, hres⟩
    | succ j =>
      obtain ⟨u, hrun, hu⟩ := ih ht j (Nat.lt_of_succ_lt_succ hj)
      exact ⟨u, performAll_cons_next.mpr ⟨t, hpop, hrun⟩, hu⟩

end HoldsQueue

/-- Settles O49: the pushes turn the empty queue into `bytes`, which the pops take from its front. -/
theorem bytesComeOutInTheOrderPushed : Obligations.BytesComeOutInTheOrderPushed := by
  intro s bytes hcfg hi hcdc hr hempty hlen
  have hu := hi.ready_ok hr
  have hnil : ringContents s = [] := by
    rw [← List.length_eq_zero_iff, ringContents_length]
    exact hu.occupancy_eq_zero_iff.mpr (congrArg BitVec.toNat hempty)
  have hs : HoldsQueue s.cfg s.rb.len.toNat [] s := ⟨rfl, hcfg, hcdc, hr, rfl, hu, hnil⟩
  obtain ⟨t, hrun, hok, ht⟩ := hs.pushAll bytes (by simpa using hlen)
  exact ⟨t, hrun, hok, fun hfull b => ht.push_full b hfull, fun j hj => ht.popAll j hj⟩

end Sys2Proof.Proofs

/-!
PROOFS. The statements of the family 42_pulse_scheduler: the duty mapping, the setters of the duty table, the compare event
and its settling, the clock, the arming and a frame; and the invariant of the whole block.
-/

/-! ## The parameters of the scheduler -/

namespace Sys2Proof.Proofs

open Sys2Proof.Machine Sys2Proof.Laws
open Sys2Proof.Config (Params)

/-- The constraints on the parameters of PS (R7 to R11). -/
structure PsBounds (c : Params) : Prop where
  prescale_pos : 1 ≤ c.psPrescale
  prescale_lt : c.psPrescale < 2 ^ 32
  min_le_max : c.psMin ≤ c.psMax
  max_lt_period : c.psMax < c.psPeriod
  period_lt : c.psPeriod < 2 ^ c.psW
  width_le : c.psW ≤ 32
  nmax_pos : 1 ≤ c.psNmax
  nmax_le : c.psNmax ≤ 32

theorem psBounds_of_wellFormed {c : Params} (h : c.wellFormed = true) : PsBounds c := by
  simp only [Params.wellFormed, Params.psOk, Bool.and_eq_true, decide_eq_true_eq] at h
  have hpow : 0 < 2 ^ c.psW := by positivity
  constructor <;> omega

namespace PsBounds

variable {c : Params} (h : PsBounds c)
include h

theorem period_lt_word : c.psPeriod < 2 ^ 32 :=
  h.period_lt.trans_le (Nat.pow_le_pow_right (by decide) h.width_le)

/-- A value up to the period fits `PS_W` bits. -/
theorem psStore_toNat {v : Nat} (hv : v ≤ c.psPeriod) : (psStore c v).toNat = v :=
  Laws.psStore_toNat h.width_le (hv.trans_lt h.period_lt)

theorem psStore_eq_ofNat {v : Nat} (hv : v ≤ c.psPeriod) : psStore c v = BitVec.ofNat 32 v :=
  congrArg (BitVec.ofNat 32) (Nat.mod_eq_of_lt (hv.trans_lt h.period_lt))

end PsBounds

end Sys2Proof.Proofs

/-! ## The duty mapping -/

namespace Sys2Proof.Proofs

open Sys2Proof.Machine
open Sys2Proof.Config (Params)

/-- Rounding keeps the order: between the same two values a larger fraction is not rounded to the lower one while a smaller
one is rounded to the upper one. -/
theorem RoundsBetween.le_of_le {num num' den l l' m m' : Nat} (h : RoundsBetween num den l m)
    (h' : RoundsBetween num' den l' m') (hle : num ≤ num') : m ≤ m' := by
  have hl : l ≤ l' := by
    by_contra hlt
    have hval := Nat.mul_le_mul_right den (bitsValue_strictMono.monotone (show l' + 1 ≤ l by omega))
    exact absurd (hval.trans h.le) (not_le.mpr (hle.trans_lt h'.lt))
  have hc := h.choice
  have hc' := h'.choice
  rcases hl.lt_or_eq with hlt | rfl <;> omega

theorem roundBits_mono {num num' den : Nat} (hd : 0 < den) (h : num ≤ num') :
    roundBits num den ≤ roundBits num' den := by
  obtain ⟨l, hl⟩ := unboundedBits_roundsBetween num hd
  obtain ⟨l', hl'⟩ := unboundedBits_roundsBetween num' hd
  exact min_le_min_right _ (hl.le_of_le hl' h)

theorem natAbs_orderKey (x : F64) : (orderKey x).natAbs = bitsOf x := withSignInt_natAbs _ _

theorem magnitude_mono {x y : F64} (h : bitsOf x ≤ bitsOf y) : magnitude x ≤ magnitude y := by
  rw [magnitude_eq, magnitude_eq]
  exact bitsValue_strictMono.monotone h

theorem magnitude_one64 : magnitude one64 = unitsPerOne := by
  rw [magnitude_eq, show bitsOf one64 = 1022 * 2 ^ 52 + 2 ^ 52 by decide, bitsValue_steps (by decide) (by decide),
    ← pow_add, unitsPerOne]

/-! ### The clamp -/

section
variable {p q : F64}

theorem clampPercent_of_isNaN (h : isNaN p = true) : clampPercent p = 0 := by simp [clampPercent, h]

/-- Of what is no NaN, the clamp cuts the key at those of 0 and 1.0. -/
theorem orderKey_clampPercent (h : isNaN p = false) :
    orderKey (clampPercent p) = max 0 (min (orderKey p) (orderKey one64)) := by
  have hone : 0 < orderKey one64 := by decide
  have hgt := gt64_iff h (b := one64) (by decide)
  have hlt := lt64_iff h (b := 0) (by decide)
  rw [show orderKey 0 = 0 by decide] at hlt
  simp only [clampPercent, h, Bool.false_eq_true, if_false, hgt, hlt]
  split_ifs
  · omega
  · rw [show orderKey 0 = 0 by decide]
    omega
  · omega

theorem bitsOf_clampPercent_le (p : F64) : bitsOf (clampPercent p) ≤ bitsOf one64 := by
  cases h : isNaN p
  · have hkey := orderKey_clampPercent h
    rw [← natAbs_orderKey, ← natAbs_orderKey, hkey]
    omega
  · rw [clampPercent_of_isNaN h]
    decide

theorem isFinite_clampPercent (p : F64) : isFinite (clampPercent p) = true :=
  (isFinite_iff _).mpr ((bitsOf_clampPercent_le p).trans_lt (by decide))

theorem magnitude_clampPercent_le (p : F64) : magnitude (clampPercent p) ≤ unitsPerOne :=
  magnitude_one64 ▸ magnitude_mono (bitsOf_clampPercent_le p)

/-- The clamp keeps the order. -/
theorem magnitude_clampPercent_mono (hp : isNaN p = false) (hq : isNaN q = false) (h : orderKey p ≤ orderKey q) :
    magnitude (clampPercent p) ≤ magnitude (clampPercent q) := by
  refine magnitude_mono ?_
  rw [← natAbs_orderKey, ← natAbs_orderKey, orderKey_clampPercent hp, orderKey_clampPercent hq]
  omega

theorem magnitude_clampPercent_of_le_zero (hp : isNaN p = false) (h : orderKey p ≤ 0) :
    magnitude (clampPercent p) = 0 := by
  have hbits : bitsOf (clampPercent p) = 0 := by
    rw [← natAbs_orderKey, orderKey_clampPercent hp]
    omega
  rw [magnitude_eq, hbits, bitsValue_zero]

theorem magnitude_clampPercent_of_one_le (hp : isNaN p = false) (h : orderKey one64 ≤ orderKey p) :
    magnitude (clampPercent p) = unitsPerOne :=
  (magnitude_clampPercent_le p).antisymm
    (magnitude_one64 ▸ (magnitude_clampPercent_mono (p := one64) (by decide) hp h : _))

/-- A clamped percent with its sign set is a zero. -/
theorem magnitude_clampPercent_of_signBit (h : signBit (clampPercent p) = true) : magnitude (clampPercent p) = 0 := by
  cases hp : isNaN p
  · have hkey := orderKey_clampPercent hp
    rw [orderKey_eq, h] at hkey
    have hbits : bitsOf (clampPercent p) = 0 := by
      simp only [withSignInt, if_true] at hkey
      omega
    rw [magnitude_eq, hbits, bitsValue_zero]
  · rw [clampPercent_of_isNaN hp] at h
    exact absurd h (by decide)

end

/-! ### The product -/

/-- The rounded product of the clamped percent with `k`, in units of `2^-1074`. -/
def percentOf (p : F64) (k : Nat) : Nat :=
  bitsValue (roundBits (magnitude (clampPercent p) * (k * unitsPerOne)) unitsPerOne)

section
variable {p q : F64} {k : Nat}

theorem magnitude_to64 (hk : k < 2 ^ 53) : magnitude (to64 k) = k * unitsPerOne := by
  obtain ⟨-, -, hv⟩ := to64_exact hk
  rw [← intCast_unitsPerOne, ← Nat.cast_mul] at hv
  rw [← scaled_natAbs, hv, Int.natAbs_natCast]

theorem percentOf_of_magnitude_eq_zero (h : magnitude (clampPercent p) = 0) : percentOf p k = 0 := by
  have hbits : roundBits 0 unitsPerOne = 0 :=
    roundBits_of_eq unitsPerOne_pos (by rw [bitsValue_zero, Nat.zero_mul]) (Nat.zero_le _)
  rw [percentOf, h, Nat.zero_mul, hbits, bitsValue_zero]

/-- The whole of `k` is `k`. -/
theorem percentOf_of_magnitude_eq_one (hk : k < 2 ^ 53) (h : magnitude (clampPercent p) = unitsPerOne) :
    percentOf p k = k * unitsPerOne := by
  obtain ⟨m, hm, hv⟩ := exists_bitsValue_eq hk
  rw [percentOf, h, roundBits_of_eq (m := m) unitsPerOne_pos _ hm.le, hv, unitsPerOne]
  rw [hv, ← unitsPerOne, Nat.mul_comm]

theorem percentOf_mono (h : magnitude (clampPercent p) ≤ magnitude (clampPercent q)) : percentOf p k ≤ percentOf q k :=
  bitsValue_strictMono.monotone (roundBits_mono unitsPerOne_pos (Nat.mul_le_mul_right _ h))

theorem percentOf_le (hk : k < 2 ^ 53) (p : F64) : percentOf p k ≤ k * unitsPerOne := by
  have hone : magnitude (clampPercent one64) = unitsPerOne := magnitude_clampPercent_of_one_le (by decide) le_rfl
  rw [← percentOf_of_magnitude_eq_one hk hone]
  exact percentOf_mono ((magnitude_clampPercent_le p).trans_eq hone.symm)

/-- The product of R220 has that value; a negative operand can only be a zero. -/
theorem scaled_mul64_clampPercent (hk : k < 2 ^ 53) (p : F64) :
    scaled (mul64 (clampPercent p) (to64 k)) = percentOf p k := by
  obtain ⟨hfin, hsign, -⟩ := to64_exact hk
  rw [mul64_of_isFinite (isFinite_clampPercent p) hfin, scaled_eq_withSignInt, signBit_roundTo, bitsOf_roundTo,
    magnitude_to64 hk, ← percentOf, hsign, Bool.bne_false]
  cases hs : signBit (clampPercent p)
  · rfl
  · rw [percentOf_of_magnitude_eq_zero (magnitude_clampPercent_of_signBit hs), withSignInt_zero, Nat.cast_zero]

end

/-! ### The duty -/

section
variable {c : Params} {p q : F64} (h : c.wellFormed = true)
include h

theorem psRange_lt : c.psMax - c.psMin < 2 ^ 53 := by
  have hmax := (psBounds_of_wellFormed h).max_lt_period
  have hword := (psBounds_of_wellFormed h).period_lt_word
  omega

/-- The mapping of R220: the floor of the product on top of the minimum. -/
theorem mapPercent_eq (p : F64) : mapPercent c p = c.psMin + percentOf p (c.psMax - c.psMin) / unitsPerOne := by
  rw [mapPercent, floor64, scaled_mul64_clampPercent (psRange_lt h), ← Int.natCast_div, Int.toNat_natCast]

theorem psMin_le_mapPercent (p : F64) : c.psMin ≤ mapPercent c p := mapPercent_eq h p ▸ Nat.le_add_right ..

theorem mapPercent_le_psMax (p : F64) : mapPercent c p ≤ c.psMax := by
  have hfloor := Nat.div_le_of_le_mul (Nat.mul_comm _ _ ▸ percentOf_le (psRange_lt h) p)
  have hle := (psBounds_of_wellFormed h).min_le_max
  rw [mapPercent_eq h]
  omega

theorem mapPercent_mono (hle : magnitude (clampPercent p) ≤ magnitude (clampPercent q)) :
    mapPercent c p ≤ mapPercent c q := by
  rw [mapPercent_eq h, mapPercent_eq h]
  exact Nat.add_le_add_left (Nat.div_le_div_right (percentOf_mono hle)) _

theorem mapPercent_of_magnitude_eq_zero (hp : magnitude (clampPercent p) = 0) : mapPercent c p = c.psMin := by
  rw [mapPercent_eq h, percentOf_of_magnitude_eq_zero hp, Nat.zero_div, Nat.add_zero]

theorem mapPercent_of_magnitude_eq_one (hp : magnitude (clampPercent p) = unitsPerOne) : mapPercent c p = c.psMax := by
  rw [mapPercent_eq h, percentOf_of_magnitude_eq_one (psRange_lt h) hp, Nat.mul_div_cancel _ unitsPerOne_pos]
  exact Nat.add_sub_cancel' (psBounds_of_wellFormed h).min_le_max

theorem mapPercent_le_period (p : F64) : mapPercent c p ≤ c.psPeriod :=
  (mapPercent_le_psMax h p).trans (psBounds_of_wellFormed h).max_lt_period.le

/-- A mapped percent fits `PS_W` bits. -/
theorem psStore_mapPercent (p : F64) : psStore c (mapPercent c p) = BitVec.ofNat 32 (mapPercent c p) :=
  (psBounds_of_wellFormed h).psStore_eq_ofNat (mapPercent_le_period h p)

theorem toNat_ofNat_mapPercent (p : F64) : (BitVec.ofNat 32 (mapPercent c p)).toNat = mapPercent c p := by
  rw [← psStore_mapPercent h, (psBounds_of_wellFormed h).psStore_toNat (mapPercent_le_period h p)]

end

/-- Settles O25: the floor of the product lies between 0 and the range. -/
theorem mappedPercentStaysInBounds : Obligations.MappedPercentStaysInBounds := fun _ p h =>
  ⟨psMin_le_mapPercent h p, mapPercent_le_psMax h p⟩

/-- Settles O27: the clamp, the rounded product and the floor each keep the order. -/
theorem percentMappingIsMonotone : Obligations.PercentMappingIsMonotone := by
  intro c p q h hp hq hle
  rw [← Bool.not_eq_true, gt64_iff hp hq, not_lt] at hle
  exact mapPercent_mono h (magnitude_clampPercent_mono hp hq hle)

/-- Settles O26: what the clamp answers, and the product as an integer number of units. -/
theorem percentIsClamped : Obligations.PercentIsClamped := by
  intro c p h
  refine ⟨fun hp => ?_, fun hp hgt => ?_, fun hp hlt => ?_, fun hp hlt hgt => ?_⟩
  · exact mapPercent_of_magnitude_eq_zero h (by rw [clampPercent_of_isNaN hp]; decide)
  · rw [← Bool.not_eq_true, gt64_iff hp (by decide), not_lt] at hgt
    exact mapPercent_of_magnitude_eq_zero h (magnitude_clampPercent_of_le_zero hp hgt)
  · rw [← Bool.not_eq_true, lt64_iff hp (by decide), not_lt] at hlt
    exact mapPercent_of_magnitude_eq_one h (magnitude_clampPercent_of_one_le hp hlt)
  · have hclamp : clampPercent p = p := by
      rw [clampPercent, hp, hlt, hgt, if_neg Bool.false_ne_true, if_neg Bool.false_ne_true, if_neg Bool.false_ne_true]
    have hscaled := scaled_mul64_clampPercent (psRange_lt h) p
    refine ⟨_, mapPercent_eq h p, ?_⟩
    rw [hclamp] at hscaled
    rw [hscaled, ← intCast_unitsPerOne]
    have hfloor := Nat.div_mul_le_self (percentOf p (c.psMax - c.psMin)) unitsPerOne
    have hnext := (Nat.div_lt_iff_lt_mul unitsPerOne_pos).mp
      (Nat.lt_succ_self (percentOf p (c.psMax - c.psMin) / unitsPerOne))
    exact_mod_cast And.intro hfloor hnext

end Sys2Proof.Proofs

/-! ## The setters of the duty table -/

namespace Sys2Proof.Proofs

open Sys2Proof.Machine Sys2Proof.Safety Sys2Proof.Laws
open Sys2Proof.Config (Params)

/-- The duty table of `u` after a setter has stored, for each channel `i` of the list, the mapped percent `p i`. -/
def storedDuties (c : Params) (p : Nat → F64) (is : List Nat) (u : Pulse) : List Word :=
  (is.foldl (fun u i => setDuty c u i (mapPercent c (p i))) u).duty

section
variable (c : Params) (p : Nat → F64) (is : List Nat) (u : Pulse)

/-- A run of the setters' stores writes that table and nothing else. -/
theorem foldl_setDuty_eq :
    is.foldl (fun u i => setDuty c u i (mapPercent c (p i))) u = { u with duty := storedDuties c p is u } :=
  foldl_setDuty_frame c (fun i => mapPercent c (p i)) is u

theorem storedDuties_cons (i : Nat) :
    storedDuties c p (i :: is) u = storedDuties c p is (setDuty c u i (mapPercent c (p i))) := rfl

@[simp] theorem length_storedDuties : (storedDuties c p is u).length = u.duty.length := by
  induction is generalizing u with
  | nil => rfl
  | cons i is ih => rw [storedDuties_cons, ih, setDuty, List.length_set]

end

theorem dutyAt_setDuty {u : Pulse} {i : Nat} (h : i < u.duty.length) (c : Params) (d j : Nat) :
    dutyAt (setDuty c u i d) j = if j = i then psStore c d else dutyAt u j := by
  simp only [dutyAt, setDuty, List.getD_eq_getElem?_getD]
  split
  · next e => rw [e, List.getElem?_set_self h, Option.getD_some]
  · next e => rw [List.getElem?_set_ne (Ne.symm e)]

/-- The listed channels hold their own mapped percent, the others what they held. -/
theorem getD_storedDuties {is : List Nat} {u : Pulse} (h : ∀ i ∈ is, i < u.duty.length) (c : Params) (p : Nat → F64)
    (j : Nat) :
    (storedDuties c p is u).getD j 0 = if j ∈ is then psStore c (mapPercent c (p j)) else dutyAt u j := by
  induction is generalizing u with
  | nil => rfl
  | cons i is ih =>
    obtain ⟨hi, his⟩ := List.forall_mem_cons.mp h
    rw [storedDuties_cons, ih (by simpa [setDuty] using his), dutyAt_setDuty hi]
    by_cases hmem : j ∈ is
    · simp [hmem]
    · by_cases e : j = i <;> simp [hmem, e]

/-! ### What the setters answer -/

section
variable {s : State}

theorem exec_psSetChannel_notInit {index : Byte} (h : s.ps.armed = false) :
    exec (.psSetChannel index) s = .next (complete .h .notInit 0 s) := by
  simp [exec, execPsSetChannel, h]

theorem exec_psSetAll_notInit (h : s.ps.armed = false) : exec .psSetAll s = .next (complete .h .notInit 0 s) := by
  simp [exec, execPsSetAll, h]

theorem exec_psSetChannels_notInit {base : Byte} (h : s.ps.armed = false) :
    exec (.psSetChannels base) s = .next (complete .h .notInit 0 s) := by
  simp [exec, execPsSetChannels, h]

variable (h : s.ps.armed = true)
include h

theorem exec_psSetChannel_indexRange {index : Byte} (hn : s.ps.n.toNat ≤ index.toNat) :
    exec (.psSetChannel index) s = .next (complete .h .indexRange 0 s) := by
  simp [exec, execPsSetChannel, h, hn]

theorem exec_psSetChannels_indexRange {base : Byte} (hn : s.cfg.varCount < base.toNat + s.ps.n.toNat) :
    exec (.psSetChannels base) s = .next (complete .h .indexRange 0 s) := by
  simp [exec, execPsSetChannels, h, hn]

theorem exec_psSetChannel_stored {index : Byte} (hn : index.toNat < s.ps.n.toNat) :
    exec (.psSetChannel index) s
      = .next (complete .h .ok (BitVec.ofNat 32 (mapPercent s.cfg s.args[0]))
          { s with ps := { s.ps with duty := storedDuties s.cfg (fun _ => s.args[0]) [index.toNat] s.ps } }) := by
  rw [exec, execPsSetChannel, if_pos h, if_neg (by omega)]
  rfl

theorem exec_psSetAll_stored :
    exec .psSetAll s
      = .next (complete .h .ok (BitVec.ofNat 32 (mapPercent s.cfg s.args[0]))
          { s with
            ps := { s.ps with
              duty := storedDuties s.cfg (fun _ => s.args[0]) (List.range s.ps.n.toNat) s.ps } }) := by
  rw [exec, execPsSetAll, if_pos h, ← foldl_setDuty_eq]
  rfl

theorem exec_psSetChannels_stored {base : Byte} (hn : base.toNat + s.ps.n.toNat ≤ s.cfg.varCount) :
    exec (.psSetChannels base) s
      = .next (complete .h .ok 0
          { s with
            ps := { s.ps with
              duty := storedDuties s.cfg (fun i => varAt s (base.toNat + i)) (List.range s.ps.n.toNat) s.ps } }) := by
  rw [exec, execPsSetChannels, if_pos h, if_neg (by omega), ← foldl_setDuty_eq]
  rfl

end

/-- The commands that write duties (R225 to R227). -/
def IsSetter (i : Instr) : Prop :=
  i = .psSetAll ∨ (∃ index, i = .psSetChannel index) ∨ ∃ base, i = .psSetChannels base

/-- A setter stores mapped percents in the table, of active channels only, or of none where it fails. -/
theorem exec_setter {i : Instr} {s t : State} (hset : IsSetter i) (h : exec i s = .next t) :
    ∃ p is, (∀ j ∈ is, j < s.ps.n.toNat) ∧ t.ps = { s.ps with duty := storedDuties s.cfg p is s.ps } := by
  have hnone : ∃ p is, (∀ j ∈ is, j < s.ps.n.toNat) ∧ s.ps = { s.ps with duty := storedDuties s.cfg p is s.ps } :=
    ⟨fun _ => 0, [], nofun, rfl⟩
  obtain rfl | ⟨index, rfl⟩ | ⟨base, rfl⟩ := hset
  · cases ha : s.ps.armed
    · cases (exec_psSetAll_notInit ha).symm.trans h
      exact hnone
    · cases (exec_psSetAll_stored ha).symm.trans h
      exact ⟨_, _, fun _ => List.mem_range.mp, rfl⟩
  · cases ha : s.ps.armed
    · cases (exec_psSetChannel_notInit ha).symm.trans h
      exact hnone
    · by_cases hn : index.toNat < s.ps.n.toNat
      · cases (exec_psSetChannel_stored ha hn).symm.trans h
        exact ⟨_, _, fun j hj => List.mem_singleton.mp hj ▸ hn, rfl⟩
      · cases (exec_psSetChannel_indexRange ha (not_lt.mp hn)).symm.trans h
        exact hnone
  · cases ha : s.ps.armed
    · cases (exec_psSetChannels_notInit ha).symm.trans h
      exact hnone
    · by_cases hn : base.toNat + s.ps.n.toNat ≤ s.cfg.varCount
      · cases (exec_psSetChannels_stored ha hn).symm.trans h
        exact ⟨_, _, fun _ => List.mem_range.mp, rfl⟩
      · cases (exec_psSetChannels_indexRange ha (not_le.mp hn)).symm.trans h
        exact hnone

/-! ### The stored duties -/

section
variable {c : Params} {u : Pulse} {p : Nat → F64} {is : List Nat} (hc : c.wellFormed = true) (hu : PulseInv c u)
  (his : ∀ j ∈ is, j < u.n.toNat)
include hu

/-- The active channels have an entry in the table. -/
theorem lt_length_of_lt_n {j : Nat} (hj : j < u.n.toNat) : j < u.duty.length := by
  cases ha : u.armed
  · rw [hu.idle ha] at hj
    exact absurd hj (Nat.not_lt_zero j)
  · exact hu.length_eq ▸ hj.trans_le (hu.engine ha).n_le

include his

theorem getD_storedDuties_not_mem {j : Nat} (hj : j ∉ is) : (storedDuties c p is u).getD j 0 = dutyAt u j := by
  rw [getD_storedDuties fun i hi => lt_length_of_lt_n hu (his i hi), if_neg hj]

include hc

theorem getD_storedDuties_mem {j : Nat} (hj : j ∈ is) :
    (storedDuties c p is u).getD j 0 = BitVec.ofNat 32 (mapPercent c (p j)) := by
  rw [getD_storedDuties fun i hi => lt_length_of_lt_n hu (his i hi), if_pos hj, psStore_mapPercent hc]

theorem toNat_getD_storedDuties_mem {j : Nat} (hj : j ∈ is) :
    ((storedDuties c p is u).getD j 0).toNat = mapPercent c (p j) := by
  rw [getD_storedDuties_mem hc hu his hj, toNat_ofNat_mapPercent hc]

/-- A setter keeps every duty within the bounds. -/
theorem storedDuties_bounds (hs : ScheduleInv c u) {j : Nat} (hj : j < c.psNmax) :
    c.psMin ≤ ((storedDuties c p is u).getD j 0).toNat ∧ ((storedDuties c p is u).getD j 0).toNat ≤ c.psMax := by
  by_cases hmem : j ∈ is
  · rw [toNat_getD_storedDuties_mem hc hu his hmem]
    exact ⟨psMin_le_mapPercent hc _, mapPercent_le_psMax hc _⟩
  · rw [getD_storedDuties_not_mem hu his hmem]
    exact ⟨hs.duty_ge j hj, hs.duty_le j hj⟩

/-- The engine does not depend on the duties, so a setter keeps the scheduler's invariant. -/
theorem pulseInv_storedDuties : PulseInv c { u with duty := storedDuties c p is u } where
  length_eq := (length_storedDuties ..).trans hu.length_eq
  idle ha := by
    have hn : u.n.toNat = 0 := by rw [hu.idle ha]; rfl
    have hnil : is = [] := List.eq_nil_iff_forall_not_mem.mpr fun j hj => by
      have := his j hj
      omega
    rw [hnil]
    exact hu.idle ha
  engine ha := { hu.engine ha with }
  schedule ha :=
    { hu.schedule ha with
      duty_ge := fun _ hj => (storedDuties_bounds hc hu his (hu.schedule ha) hj).1
      duty_le := fun _ hj => (storedDuties_bounds hc hu his (hu.schedule ha) hj).2 }

end

/-- Settles O22: the answers of `PS_SET_CHANNEL`, and the table with the one entry stored. -/
theorem psSetChannelStoresOneDuty : Obligations.PsSetChannelStoresOneDuty := by
  intro s index hc hu
  refine ⟨exec_psSetChannel_notInit, fun ha hn => exec_psSetChannel_indexRange ha hn, fun ha hn => ?_⟩
  have his : ∀ j ∈ [index.toNat], j < s.ps.n.toNat := fun j hj => List.mem_singleton.mp hj ▸ hn
  refine ⟨_, _, exec_psSetChannel_stored ha hn, toNat_ofNat_mapPercent hc _, length_storedDuties .., fun i _ => ?_⟩
  split
  · next e => exact getD_storedDuties_mem hc hu his (List.mem_singleton.mpr e)
  · next e => exact getD_storedDuties_not_mem hu his (mt List.mem_singleton.mp e)

/-- Settles O23: the answers of `PS_SET_ALL`, and the table with every active entry stored. -/
theorem psSetAllStoresEveryActiveDuty : Obligations.PsSetAllStoresEveryActiveDuty := by
  intro s hc hu
  refine ⟨exec_psSetAll_notInit, fun ha => ?_⟩
  have his : ∀ j ∈ List.range s.ps.n.toNat, j < s.ps.n.toNat := fun _ => List.mem_range.mp
  refine ⟨_, _, exec_psSetAll_stored ha, toNat_ofNat_mapPercent hc _, length_storedDuties .., fun i _ => ?_⟩
  split
  · next hi => exact getD_storedDuties_mem hc hu his (List.mem_range.mpr hi)
  · next hi => exact getD_storedDuties_not_mem hu his (mt List.mem_range.mp hi)

/-- Settles O24: the answers of `PS_SET_CHANNELS`, and the table with every active entry stored from its variable. -/
theorem psSetChannelsStoresDutiesFromVariables : Obligations.PsSetChannelsStoresDutiesFromVariables := by
  intro s base hc hu
  refine ⟨exec_psSetChannels_notInit, fun ha hn => exec_psSetChannels_indexRange ha hn, fun ha hn => ?_⟩
  have his : ∀ j ∈ List.range s.ps.n.toNat, j < s.ps.n.toNat := fun _ => List.mem_range.mp
  refine ⟨_, exec_psSetChannels_stored ha hn, length_storedDuties .., fun i hi => ?_, fun i hi => ?_⟩
  · exact toNat_getD_storedDuties_mem hc hu his (List.mem_range.mpr hi)
  · exact getD_storedDuties_not_mem hu his (mt List.mem_range.mp (not_lt.mpr hi))

end Sys2Proof.Proofs

/-! ## The compare event -/

namespace Sys2Proof.Proofs

open Sys2Proof.Machine Sys2Proof.Safety Sys2Proof.Laws
open Sys2Proof.Config (Params)

/-- A scheduler whose current channel is an active one, within the schedule bounds: what a compare event needs (R221). -/
structure OnSchedule (c : Params) (u : Pulse) : Prop extends ScheduleInv c u where
  cur_lt : u.cur.toNat < u.n.toNat
  n_le : u.n.toNat ≤ c.psNmax

/-- The channel after the current one, round the ring (R221). -/
def nextChannel (u : Pulse) : Nat := (u.cur.toNat + 1) % u.n.toNat

theorem psService_phase_of_high {c : Params} {u : Pulse} (h : u.phase = .drivingHigh) :
    (psService c u).phase = .waitingLow := by rw [psService_high c h]

theorem psService_phase_of_low {c : Params} {u : Pulse} (h : u.phase = .waitingLow) :
    (psService c u).phase = .drivingHigh := by rw [psService_low c h]

theorem psService_cur_of_high {c : Params} {u : Pulse} (h : u.phase = .drivingHigh) : (psService c u).cur = u.cur := by
  rw [psService_high c h]

theorem psService_out_of_high {c : Params} {u : Pulse} (h : u.phase = .drivingHigh) :
    (psService c u).out = setLine u.out u.cur.toNat false := by rw [psService_high c h]

theorem psService_out_of_low {c : Params} {u : Pulse} (h : u.phase = .waitingLow) :
    (psService c u).out = setLine u.out (nextChannel u) true := by rw [psService_low c h, nextChannel]

theorem psService_deadline_of_low {c : Params} {u : Pulse} (h : u.phase = .waitingLow) :
    (psService c u).deadline = dutyAt u (nextChannel u) := by rw [psService_low c h, nextChannel]

@[simp] theorem dutyAt_psService (c : Params) (u : Pulse) (i : Nat) : dutyAt (psService c u) i = dutyAt u i := by
  rw [dutyAt, psService_duty, dutyAt]

/-- The compare event restarts the counter, whatever it was (R221). -/
theorem psService_with_cnt (c : Params) (u : Pulse) (x : Word) : psService c { u with cnt := x } = psService c u := by
  cases h : u.phase
  · exact h ▸ (psService_low c (u := { u with cnt := x }) h).trans (psService_low c h).symm
  · exact h ▸ (psService_high c (u := { u with cnt := x }) h).trans (psService_high c h).symm

namespace OnSchedule

variable {c : Params} {u : Pulse} (h : OnSchedule c u)
include h

theorem slot_pos : 1 ≤ u.slot.toNat :=
  h.slot_eq ▸ (Nat.one_le_div_iff (Nat.zero_lt_of_lt h.cur_lt)).mpr h.n_le_period

theorem slot_le : u.slot.toNat ≤ c.psPeriod := h.slot_eq ▸ Nat.div_le_self ..

theorem nextChannel_lt : nextChannel u < u.n.toNat := Nat.mod_lt _ (Nat.zero_lt_of_lt h.cur_lt)

/-- A duty fits its slot: `n * PS_MAX <= P` (R221). -/
theorem duty_le_slot {i : Nat} (hi : i < u.n.toNat) : (dutyAt u i).toNat ≤ u.slot.toNat := by
  have hmax : c.psMax ≤ u.slot.toNat := by
    rw [h.slot_eq, Nat.le_div_iff_mul_le (Nat.zero_lt_of_lt h.cur_lt), Nat.mul_comm]
    exact h.high_fits
  exact (h.duty_le i (hi.trans_le h.n_le)).trans hmax

variable (hc : PsBounds c)
include hc

/-- In `DRIVING_HIGH(i)` the new deadline is the rest of the slot. -/
theorem service_deadline_of_high (hp : u.phase = .drivingHigh) :
    (psService c u).deadline.toNat = u.slot.toNat - (dutyAt u u.cur.toNat).toNat := by
  have hsub : (u.slot - dutyAt u u.cur.toNat).toNat = u.slot.toNat - (dutyAt u u.cur.toNat).toNat :=
    BitVec.toNat_sub_of_le (h.duty_le_slot h.cur_lt)
  have hslot := h.slot_le
  rw [psService_high c hp]
  exact (congrArg (fun v => (psStore c v).toNat) hsub).trans (hc.psStore_toNat (by omega))

/-- In `WAITING_LOW` the next channel becomes the current one. -/
theorem service_cur_of_low (hp : u.phase = .waitingLow) : (psService c u).cur.toNat = nextChannel u := by
  have hlt := h.nextChannel_lt
  have hn := h.n_le
  have hmax := hc.nmax_le
  rw [psService_low c hp]
  exact Nat.mod_eq_of_lt (show nextChannel u < 2 ^ 5 by omega)

/-- The rising edge in full, the new deadline as the duty of the new current channel. -/
theorem service_of_low (hp : u.phase = .waitingLow) :
    psService c u
      = { u with
          out := (psService c u).out
          cur := (psService c u).cur
          deadline := dutyAt u (psService c u).cur.toNat
          phase := .drivingHigh
          cnt := 0 } := by
  rw [h.service_cur_of_low hc hp, psService_low c hp]
  rfl

theorem service : OnSchedule c (psService c u) where
  slot_eq := by rw [psService_slot, psService_n, h.slot_eq]
  high_fits := by rw [psService_n]; exact h.high_fits
  n_le_period := by rw [psService_n]; exact h.n_le_period
  duty_ge i hi := by rw [dutyAt_psService]; exact h.duty_ge i hi
  duty_le i hi := by rw [dutyAt_psService]; exact h.duty_le i hi
  n_le := by rw [psService_n]; exact h.n_le
  cur_lt := by
    rw [psService_n]
    cases hp : u.phase
    · rw [h.service_cur_of_low hc hp]
      exact h.nextChannel_lt
    · rw [psService_cur_of_high hp]
      exact h.cur_lt

theorem service_deadline_le : (psService c u).deadline.toNat ≤ c.psPeriod := by
  have hslot := h.slot_le
  cases hp : u.phase
  · rw [psService_deadline_of_low hp]
    exact (h.duty_le_slot h.nextChannel_lt).trans hslot
  · rw [h.service_deadline_of_high hc hp]
    omega

end OnSchedule

/-- Settles O28: the two transitions, with the new deadline and the new channel as numbers. -/
theorem compareEventTakesTheTransition : Obligations.CompareEventTakesTheTransition := by
  intro c u hwf hcur hn hs
  have hc := psBounds_of_wellFormed hwf
  have h : OnSchedule c u := ⟨hs, hcur, hn⟩
  refine ⟨fun hp => ?_, fun hp => ?_⟩
  · have hdeadline := h.service_deadline_of_high hc hp
    rw [psService_high c hp] at hdeadline
    refine ⟨_, _, psService_high c hp, hdeadline, h.duty_le_slot hcur, fun j hj => ?_⟩
    rw [setLine_getLsbD _ _ _ _ hj]
    split <;> simp [*]
  · refine ⟨_, _, h.service_of_low hc hp, h.service_cur_of_low hc hp, fun j hj => ?_⟩
    rw [psService_out_of_low hp, setLine_getLsbD _ _ _ _ hj, h.service_cur_of_low hc hp]
    split <;> simp [*]

/-! ## Settling -/

section
variable {c : Params} {u : Pulse}

theorem psSettleOnce_of_zero (h : u.deadline = 0) : psSettleOnce c u = psService c u := if_pos h

theorem psSettleOnce_of_ne (h : u.deadline ≠ 0) : psSettleOnce c u = u := if_neg h

/-- Where the first round leaves a deadline, the second does nothing (R222). -/
theorem psSettle_eq_once (h : (psSettleOnce c u).deadline ≠ 0) : psSettle c u = psSettleOnce c u := psSettleOnce_of_ne h

/-- A zero HIGH deadline is one that the duty 0 of the current channel has set (R222). -/
def ZeroFromDuty (u : Pulse) : Prop := u.deadline = 0 → u.phase = .drivingHigh → dutyAt u u.cur.toNat = 0

theorem zeroFromDuty_of_low (h : u.phase = .waitingLow) : ZeroFromDuty u := fun _ hp => nomatch h.symm.trans hp

namespace OnSchedule

variable (h : OnSchedule c u) (hc : PsBounds c)
include h hc

/-- After a pulse of duty 0 the LOW phase lasts the whole slot. -/
theorem service_deadline_of_zero (hp : u.phase = .drivingHigh) (hd : dutyAt u u.cur.toNat = 0) :
    (psService c u).deadline = u.slot := by
  apply BitVec.eq_of_toNat_eq
  rw [h.service_deadline_of_high hc hp, hd]
  rfl

/-- A rising edge sets the deadline to the duty of the channel that it makes the current one. -/
theorem service_deadline_eq_duty (hp : u.phase = .waitingLow) :
    (psService c u).deadline = dutyAt (psService c u) (psService c u).cur.toNat := by
  rw [h.service_cur_of_low hc hp, dutyAt_psService, psService_deadline_of_low hp]

theorem zeroFromDuty_service : ZeroFromDuty (psService c u) := by
  cases hp : u.phase
  · exact fun hz _ => h.service_deadline_eq_duty hc hp ▸ hz
  · exact zeroFromDuty_of_low (psService_phase_of_high hp)

/-- In `DRIVING_HIGH` one round leaves a deadline: that of the pulse, or the slot where the duty is 0 (R222). -/
theorem settleOnce_deadline_ne_zero (hp : u.phase = .drivingHigh) (hz : ZeroFromDuty u) :
    (psSettleOnce c u).deadline ≠ 0 := by
  by_cases h0 : u.deadline = 0
  · rw [psSettleOnce_of_zero h0, h.service_deadline_of_zero hc hp (hz h0 hp)]
    intro hslot
    have hpos := h.slot_pos
    rw [hslot] at hpos
    exact absurd hpos (by decide)
  · rwa [psSettleOnce_of_ne h0]

/-- After `ps_settle` the deadline is at least 1: a zero LOW deadline is followed by a HIGH one (R222). -/
theorem settle_deadline_ne_zero (hz : ZeroFromDuty u) : (psSettle c u).deadline ≠ 0 := by
  cases hp : u.phase
  · by_cases h0 : u.deadline = 0
    · rw [psSettle, psSettleOnce_of_zero h0]
      exact (h.service hc).settleOnce_deadline_ne_zero hc (psService_phase_of_low hp) (h.zeroFromDuty_service hc)
    · rwa [psSettle_of_ne c h0]
  · have hne := h.settleOnce_deadline_ne_zero hc hp hz
    rwa [psSettle_eq_once hne]

end OnSchedule

end

/-- Settles O29, by the two phases. -/
theorem settledDeadlineIsPositive : Obligations.SettledDeadlineIsPositive := by
  intro c u hwf hcur hn hs hz
  have h : OnSchedule c u := ⟨hs, hcur, hn⟩
  have hne := h.settle_deadline_ne_zero (psBounds_of_wellFormed hwf) hz
  exact ⟨Nat.pos_of_ne_zero fun h0 => hne (BitVec.eq_of_toNat_eq h0), psSettle_of_ne c⟩

/-! ## The engine invariant -/

/-- The engine invariant (R229) but for the count and for a positive deadline: what holds also between a compare event and
its settling. -/
structure EventInv (c : Params) (u : Pulse) : Prop extends OnSchedule c u where
  deadline_le : u.deadline.toNat ≤ c.psPeriod
  zero_high : ZeroFromDuty u
  pre_lt : u.pre.toNat < c.psPrescale
  high : u.phase = .drivingHigh → ∀ j < 32, u.out.getLsbD j = decide (j = u.cur.toNat)
  low : u.phase = .waitingLow → u.out = 0

namespace EventInv

variable {c : Params} {u : Pulse}

theorem of_engine (he : EngineInv c u) (hs : ScheduleInv c u) : EventInv c u where
  toScheduleInv := hs
  cur_lt := he.cur_lt
  n_le := he.n_le
  deadline_le := he.deadline_le
  zero_high h0 := by
    have hpos := he.deadline_pos
    rw [h0] at hpos
    exact absurd hpos (by decide)
  pre_lt := he.pre_lt
  high := he.high
  low := he.low

theorem engine (h : EventInv c u) (hcnt : u.cnt.toNat < u.deadline.toNat) : EngineInv c u where
  n_pos := Nat.zero_lt_of_lt h.cur_lt
  n_le := h.n_le
  cur_lt := h.cur_lt
  deadline_pos := Nat.zero_lt_of_lt hcnt
  deadline_le := h.deadline_le
  cnt_lt := hcnt
  pre_lt := h.pre_lt
  high := h.high
  low := h.low

variable (h : EventInv c u) (hc : PsBounds c)
include h hc

/-- A compare event drops the one line that is HIGH, or raises one where none is. -/
theorem service : EventInv c (psService c u) where
  toOnSchedule := h.toOnSchedule.service hc
  deadline_le := h.service_deadline_le hc
  zero_high := h.zeroFromDuty_service hc
  pre_lt := by rw [psService_pre]; exact h.pre_lt
  high hp j hj := by
    cases hu : u.phase
    · rw [psService_out_of_low hu, setLine_getLsbD _ _ _ _ hj, h.low hu, h.service_cur_of_low hc hu]
      split <;> simp [*]
    · exact nomatch (psService_phase_of_high hu).symm.trans hp
  low hp := by
    cases hu : u.phase
    · exact nomatch (psService_phase_of_low hu).symm.trans hp
    · refine BitVec.eq_of_getLsbD_eq fun j hj => ?_
      rw [psService_out_of_high hu, setLine_getLsbD _ _ _ _ hj, h.high hu j hj]
      split <;> simp [*]

theorem settleOnce : EventInv c (psSettleOnce c u) := by
  by_cases h0 : u.deadline = 0
  · rw [psSettleOnce_of_zero h0]
    exact h.service hc
  · rwa [psSettleOnce_of_ne h0]

theorem settle : EventInv c (psSettle c u) := (h.settleOnce hc).settleOnce hc

end EventInv

theorem psSettleOnce_cnt {c : Params} {u : Pulse} (h : u.cnt = 0) : (psSettleOnce c u).cnt = 0 := by
  by_cases h0 : u.deadline = 0
  · rw [psSettleOnce_of_zero h0, psService_cnt]
  · rwa [psSettleOnce_of_ne h0]

theorem psSettle_cnt {c : Params} {u : Pulse} (h : u.cnt = 0) : (psSettle c u).cnt = 0 :=
  psSettleOnce_cnt (psSettleOnce_cnt h)

/-- Settled, with the count at 0, the scheduler meets the engine invariant. -/
theorem EventInv.engine_settle {c : Params} {u : Pulse} (h : EventInv c u) (hc : PsBounds c) (hcnt : u.cnt = 0) :
    EngineInv c (psSettle c u) := by
  refine (h.settle hc).engine ?_
  rw [psSettle_cnt hcnt]
  exact Nat.pos_of_ne_zero fun h0 => h.settle_deadline_ne_zero hc h.zero_high (BitVec.eq_of_toNat_eq h0)

/-! ## The clock -/

section
variable {c : Params} {u : Pulse} (hc : PsBounds c)
include hc

/-- A PS tick counts below the deadline, whatever the duties say, and at the deadline runs the compare event and settles
(R223). -/
theorem psTick_cases (he : EngineInv c u) :
    (u.cnt.toNat + 1 < u.deadline.toNat
      ∧ ∃ cnt : Word, cnt.toNat = u.cnt.toNat + 1 ∧ psTick c u = { u with cnt := cnt })
    ∨ (u.cnt.toNat + 1 = u.deadline.toNat ∧ psTick c u = psSettle c (psService c u)) := by
  have hlt := he.cnt_lt
  have hle := he.deadline_le
  have hcnt : (psStore c (u.cnt.toNat + 1)).toNat = u.cnt.toNat + 1 := hc.psStore_toNat (by omega)
  by_cases hm : u.cnt.toNat + 1 = u.deadline.toNat
  · refine .inr ⟨hm, ?_⟩
    rw [psTick, if_pos (BitVec.eq_of_toNat_eq (hcnt.trans hm)), psService_with_cnt]
  · refine .inl ⟨by omega, _, hcnt, if_neg fun e => hm ?_⟩
    rw [← hcnt, ← e]

/-- A PS tick keeps the engine invariant (R229). -/
theorem psTick_engine (he : EngineInv c u) (hs : ScheduleInv c u) : EngineInv c (psTick c u) := by
  obtain ⟨hlt, cnt, hcnt, e⟩ | ⟨-, e⟩ := psTick_cases hc he <;> rw [e]
  · exact { he with cnt_lt := hcnt ▸ hlt }
  · exact ((EventInv.of_engine he hs).service hc).engine_settle hc (psService_cnt ..)

end

/-- The schedule bounds speak of the slot, the channels and the duties only. -/
theorem scheduleInv_congr {c : Params} {u v : Pulse} (hs : ScheduleInv c u) (hn : v.n = u.n) (hslot : v.slot = u.slot)
    (hduty : v.duty = u.duty) : ScheduleInv c v where
  slot_eq := by rw [hslot, hn, hs.slot_eq]
  high_fits := by rw [hn]; exact hs.high_fits
  n_le_period := by rw [hn]; exact hs.n_le_period
  duty_ge i hi := by rw [dutyAt, hduty]; exact hs.duty_ge i hi
  duty_le i hi := by rw [dutyAt, hduty]; exact hs.duty_le i hi

theorem psTick_schedule {c : Params} {u : Pulse} (hs : ScheduleInv c u) : ScheduleInv c (psTick c u) :=
  scheduleInv_congr hs (psTick_n ..) (psTick_slot ..) (psTick_duty ..)

/-! ### The prescaler -/

theorem toNat_add_one {x : Word} (h : x.toNat + 1 < 2 ^ 32) : (x + 1).toNat = x.toNat + 1 :=
  BitVec.toNat_add_of_lt h

section
variable {c : Params} {u : Pulse}

theorem psClks_unarmed (h : u.armed = false) (k : Nat) : psClks c k u = u := by
  induction k with
  | zero => rfl
  | succ k ih => rw [psClks, psClk_unarmed c h, ih]

theorem psClks_add (j k : Nat) : psClks c (j + k) u = psClks c k (psClks c j u) := by
  induction j generalizing u with
  | zero => rw [Nat.zero_add]; rfl
  | succ j ih => rw [Nat.succ_add, psClks, ih, psClks]

variable (ha : u.armed = true)
include ha

theorem psClk_of_lt (h : u.pre.toNat + 1 < c.psPrescale) : psClk c u = { u with pre := u.pre + 1 } := by
  rw [psClk, if_pos ha, if_pos h]

theorem psClk_of_eq (h : u.pre.toNat + 1 = c.psPrescale) : psClk c u = psTick c { u with pre := 0 } := by
  rw [psClk, if_pos ha, if_neg (by omega)]

variable (hc : PsBounds c)
include hc

/-- Below the prescale, clock parts only count. -/
theorem psClks_count {k : Nat} (h : u.pre.toNat + k < c.psPrescale) :
    ∃ pre : Word, psClks c k u = { u with pre := pre } ∧ pre.toNat = u.pre.toNat + k := by
  have hmax := hc.prescale_lt
  induction k generalizing u with
  | zero => exact ⟨u.pre, rfl, rfl⟩
  | succ k ih =>
    have hpre := toNat_add_one (x := u.pre) (by omega)
    obtain ⟨pre, he, hk⟩ := ih (u := { u with pre := u.pre + 1 }) ha (by rw [hpre]; omega)
    refine ⟨pre, ?_, by rw [hk, hpre]; omega⟩
    rw [psClks, psClk_of_lt ha (by omega), he]

/-- From a prescaler count of 0, `PS_PRESCALE` clock parts are one PS tick. -/
theorem psClks_prescale (h0 : u.pre = 0) : psClks c c.psPrescale u = psTick c u := by
  have hpos := hc.prescale_pos
  have hz : u.pre.toNat = 0 := by rw [h0]; rfl
  obtain ⟨pre, he, hk⟩ := psClks_count ha hc (k := c.psPrescale - 1) (by omega)
  rw [← Nat.sub_add_cancel hpos, psClks_add, he]
  refine (psClk_of_eq (u := { u with pre := pre }) ha (by rw [hk]; omega)).trans ?_
  rw [← h0]

end

/-- Settles O30: the prescaler by counting, the tick by its two cases. -/
theorem prescalerDividesTheClock : Obligations.PrescalerDividesTheClock := by
  intro c u hwf
  have hc := psBounds_of_wellFormed hwf
  refine ⟨psClks_unarmed, fun ha h0 => ⟨fun k hk => ?_, psClks_prescale ha hc h0⟩,
    fun ha => ⟨fun hlt => ⟨_, psClk_of_lt ha hlt, ?_⟩, psClk_of_eq ha⟩, fun ha hu => ?_⟩
  · have hz : u.pre.toNat = 0 := by rw [h0]; rfl
    obtain ⟨pre, he, hk⟩ := psClks_count ha hc (k := k) (by omega)
    exact ⟨pre, he, by omega⟩
  · have hmax := hc.prescale_lt
    exact toNat_add_one (by omega)
  · obtain ⟨hlt, cnt, hcnt, e⟩ | ⟨heq, e⟩ := psTick_cases hc (hu.engine ha)
    · exact ⟨fun _ => ⟨cnt, e, hcnt⟩, fun heq => absurd heq hlt.ne⟩
    · exact ⟨fun hlt => absurd heq hlt.ne, fun _ => e⟩

end Sys2Proof.Proofs

/-! ## A duty change -/

namespace Sys2Proof.Proofs

open Sys2Proof.Machine Sys2Proof.Safety Sys2Proof.Laws
open Sys2Proof.Config (Params)

theorem onSchedule_of_pulseInv {c : Params} {u : Pulse} (hu : PulseInv c u) (ha : u.armed = true) : OnSchedule c u where
  toScheduleInv := hu.schedule ha
  cur_lt := (hu.engine ha).cur_lt
  n_le := (hu.engine ha).n_le

/-- A HIGH phase and the LOW phase after it last one slot together: the edge between them reads the same duty (R221). -/
theorem deadline_add_deadline_of_low {c : Params} {u : Pulse} (h : OnSchedule c u) (hc : PsBounds c)
    (hp : u.phase = .waitingLow) :
    (psService c u).deadline.toNat + (psService c (psService c u)).deadline.toNat = u.slot.toNat := by
  rw [(h.service hc).service_deadline_of_high hc (psService_phase_of_low hp), ← h.service_deadline_eq_duty hc hp,
    psService_slot, psService_deadline_of_low hp, Nat.add_sub_cancel' (h.duty_le_slot h.nextChannel_lt)]

/-- What a command answers determines the scheduler after it. -/
theorem ps_of_exec_eq {i : Instr} {x : Port} {c : StatusCode} {v : Word} {s s' t : State}
    (e : exec i s = .next (complete x c v s')) (h : exec i s = .next t) : t.ps = s'.ps := by
  cases e.symm.trans h
  exact complete_ps ..

section
variable {s t : State} (hwf : s.cfg.wellFormed = true) (hu : PulseInv s.cfg s.ps) (ha : s.ps.armed = true)
include hwf hu ha

/-- A setter leaves a scheduler that has other duties and is still on its schedule (R231). -/
theorem onSchedule_of_setter {i : Instr} (hset : IsSetter i) (h : exec i s = .next t) :
    ∃ duty, t.ps = { s.ps with duty := duty } ∧ OnSchedule s.cfg { s.ps with duty := duty } := by
  obtain ⟨p, is, his, hps⟩ := exec_setter hset h
  exact ⟨_, hps, onSchedule_of_pulseInv (pulseInv_storedDuties hwf hu his) ha⟩

theorem duties_of_psSetChannel {index : Byte} (hn : index.toNat < s.ps.n.toNat)
    (h : exec (.psSetChannel index) s = .next t) :
    (dutyAt t.ps index.toNat).toNat = mapPercent s.cfg s.args[0]
      ∧ ∀ j, j ≠ index.toNat → dutyAt t.ps j = dutyAt s.ps j := by
  have his : ∀ j ∈ [index.toNat], j < s.ps.n.toNat := fun j hj => List.mem_singleton.mp hj ▸ hn
  rw [ps_of_exec_eq (exec_psSetChannel_stored ha hn) h]
  exact ⟨toNat_getD_storedDuties_mem (p := fun _ => s.args[0]) hwf hu his (List.mem_singleton_self _),
    fun j hj => getD_storedDuties_not_mem (p := fun _ => s.args[0]) hu his (mt List.mem_singleton.mp hj)⟩

theorem duties_of_psSetAll (h : exec .psSetAll s = .next t) {j : Nat} (hj : j < s.ps.n.toNat) :
    (dutyAt t.ps j).toNat = mapPercent s.cfg s.args[0] := by
  rw [ps_of_exec_eq (exec_psSetAll_stored ha) h]
  exact toNat_getD_storedDuties_mem hwf hu (fun _ => List.mem_range.mp) (List.mem_range.mpr hj)

theorem duties_of_psSetChannels {base : Byte} (hn : base.toNat + s.ps.n.toNat ≤ s.cfg.varCount)
    (h : exec (.psSetChannels base) s = .next t) {j : Nat} (hj : j < s.ps.n.toNat) :
    (dutyAt t.ps j).toNat = mapPercent s.cfg (varAt s (base.toNat + j)) := by
  rw [ps_of_exec_eq (exec_psSetChannels_stored ha hn) h]
  exact toNat_getD_storedDuties_mem hwf hu (fun _ => List.mem_range.mp) (List.mem_range.mpr hj)

end

/-- Settles O32: a setter writes the duties only, and the edges after it read them. -/
theorem dutyChangeSparesThePulseInFlight : Obligations.DutyChangeSparesThePulseInFlight := by
  intro s i t hwf hu ha hset h
  have hc := psBounds_of_wellFormed hwf
  obtain ⟨duty, hps, hon⟩ := onSchedule_of_setter hwf hu ha hset h
  refine ⟨by rw [hps], fun hp => ?_, fun hp => ?_, fun index e hn => ?_, fun e j hj => ?_, fun base e hn j hj => ?_⟩
  · rw [hps]
    exact ⟨psService_phase_of_high hp, psService_cur_of_high hp, hon.service_deadline_of_high hc hp⟩
  · rw [hps]
    exact ⟨psService_phase_of_low hp, hon.service_cur_of_low hc hp, psService_deadline_of_low hp,
      deadline_add_deadline_of_low hon hc hp⟩
  · exact duties_of_psSetChannel hwf hu ha hn (e ▸ h)
  · exact duties_of_psSetAll hwf hu ha (e ▸ h) hj
  · exact duties_of_psSetChannels hwf hu ha hn (e ▸ h) hj

end Sys2Proof.Proofs

/-! ## Arming -/

namespace Sys2Proof.Proofs

open Sys2Proof.Machine Sys2Proof.Safety Sys2Proof.Laws
open Sys2Proof.Config (Params)

/-- The numbers of channels that `PS_INIT` accepts (R224). -/
structure Armable (c : Params) (n : Nat) : Prop where
  n_pos : 1 ≤ n
  n_le : n ≤ c.psNmax
  high_fits : n * c.psMax ≤ c.psPeriod
  n_le_period : n ≤ c.psPeriod

theorem exec_psInit_badArg {s : State} {n : Byte}
    (h : n.toNat < 1 ∨ s.cfg.psNmax < n.toNat ∨ s.cfg.psPeriod < n.toNat * s.cfg.psMax ∨ s.cfg.psPeriod < n.toNat) :
    exec (.psInit n) s = .next (complete .h .badArg 0 s) := if_pos h

theorem exec_psInit_armed {s : State} {n : Byte} (h : Armable s.cfg n.toNat) :
    exec (.psInit n) s
      = .next (complete .h .ok (psSettle s.cfg (psStart s.cfg n.toNat)).slot
          { s with ps := psSettle s.cfg (psStart s.cfg n.toNat) }) := by
  obtain ⟨h1, h2, h3, h4⟩ := h
  exact if_neg (by omega)

section
variable {c : Params} {n : Nat} (h : Armable c n) (hc : PsBounds c)

theorem dutyAt_psStart {i : Nat} (hi : i < c.psNmax) : dutyAt (psStart c n) i = psStore c c.psMin := by
  rw [dutyAt, psStart, List.getD_eq_getElem?_getD, List.getElem?_replicate_of_lt hi, Option.getD_some]

include hc in
theorem toNat_psStore_psMin : (psStore c c.psMin).toNat = c.psMin :=
  hc.psStore_toNat (hc.min_le_max.trans hc.max_lt_period.le)

include hc in
/-- With a minimum above 0 nothing is to settle (R224). -/
theorem psSettle_psStart_of_pos (hmin : 0 < c.psMin) : psSettle c (psStart c n) = psStart c n := by
  refine psSettle_of_ne c fun h0 => ?_
  have hz : (psStore c c.psMin).toNat = 0 := congrArg BitVec.toNat h0
  rw [toNat_psStore_psMin hc] at hz
  omega

include h hc

theorem psStart_n : (psStart c n).n.toNat = n := by
  have hn := h.n_le
  have hmax := hc.nmax_le
  exact Nat.mod_eq_of_lt (show n < 2 ^ 6 by omega)

/-- `PS_INIT` sets the scheduler up in `DRIVING_HIGH(0)`, line 0 HIGH for the duty of channel 0, before it settles
(R224). -/
theorem psStart_eventInv : EventInv c (psStart c n) where
  slot_eq := by
    rw [psStart_n h hc]
    exact hc.psStore_toNat (Nat.div_le_self ..)
  high_fits := by rw [psStart_n h hc]; exact h.high_fits
  n_le_period := by rw [psStart_n h hc]; exact h.n_le_period
  duty_ge i hi := by rw [dutyAt_psStart hi, toNat_psStore_psMin hc]
  duty_le i hi := by rw [dutyAt_psStart hi, toNat_psStore_psMin hc]; exact hc.min_le_max
  cur_lt := by rw [psStart_n h hc]; exact h.n_pos
  n_le := by rw [psStart_n h hc]; exact h.n_le
  deadline_le := (toNat_psStore_psMin hc).trans_le (hc.min_le_max.trans hc.max_lt_period.le)
  zero_high h0 _ := (dutyAt_psStart hc.nmax_pos).trans h0
  pre_lt := hc.prescale_pos
  high _ j hj := by
    refine (setLine_getLsbD 0 0 j true hj).trans ?_
    split <;> simp [*, psStart]
  low hp := nomatch hp

/-- With the minimum 0 the pulse of channel 0 ends at once (R224). -/
theorem psSettle_psStart_of_zero (hmin : c.psMin = 0) : psSettle c (psStart c n) = psService c (psStart c n) := by
  have hz : (psStart c n).deadline = 0 :=
    BitVec.eq_of_toNat_eq ((toNat_psStore_psMin hc).trans hmin)
  have hu := psStart_eventInv h hc
  rw [← psSettleOnce_of_zero hz]
  exact psSettle_eq_once (hu.settleOnce_deadline_ne_zero hc rfl hu.zero_high)

/-- The armed scheduler meets its invariant. -/
theorem psSettle_psStart_pulseInv : PulseInv c (psSettle c (psStart c n)) where
  length_eq := by rw [psSettle_duty]; exact List.length_replicate
  idle ha := by rw [psSettle_armed] at ha; exact nomatch ha
  engine _ := (psStart_eventInv h hc).engine_settle hc rfl
  schedule _ := ((psStart_eventInv h hc).settle hc).toScheduleInv

end

/-- Settles O21: the scheduler as it is set up, which settles by one falling edge where the minimum is 0. -/
theorem psInitArmsOrRejects : Obligations.PsInitArmsOrRejects := by
  intro s n hwf
  have hc := psBounds_of_wellFormed hwf
  refine ⟨exec_psInit_badArg, fun h1 h2 h3 h4 => ?_⟩
  have h : Armable s.cfg n.toNat := ⟨h1, h2, h3, h4⟩
  have hstart := psStart_eventInv h hc
  have hsettled := hstart.settle hc
  refine ⟨_, exec_psInit_armed h, psSettle_armed .., ?_, ?_, ?_, fun i hi => ?_, ?_, psSettle_cnt rfl, psSettle_pre ..,
    fun hmin => ?_, fun hmin => ?_⟩
  · rw [psSettle_n, psStart_n h hc]
  · rw [hsettled.slot_eq, psSettle_n, psStart_n h hc]
  · exact (psSettle_psStart_pulseInv h hc).length_eq
  · rw [dutyAt, psSettle_duty, ← dutyAt, dutyAt_psStart hi, toNat_psStore_psMin hc]
  · rcases Nat.eq_zero_or_pos s.cfg.psMin with hmin | hmin
    · rw [psSettle_psStart_of_zero h hc hmin, psService_cur_of_high rfl]
      rfl
    · rw [psSettle_psStart_of_pos hc hmin]
      rfl
  · rw [psSettle_psStart_of_pos hc hmin]
    exact ⟨rfl, toNat_psStore_psMin hc, hstart.high rfl⟩
  · have hzero : dutyAt (psStart s.cfg n.toNat) 0 = 0 :=
      (dutyAt_psStart hc.nmax_pos).trans (BitVec.eq_of_toNat_eq ((toNat_psStore_psMin hc).trans hmin))
    rw [psSettle_psStart_of_zero h hc hmin]
    refine ⟨psService_phase_of_high rfl, ?_, (hstart.service hc).low (psService_phase_of_high rfl)⟩
    rw [hstart.service_deadline_of_zero hc rfl hzero, psService_slot]

end Sys2Proof.Proofs

/-! ## A frame -/

namespace Sys2Proof.Proofs

open Sys2Proof.Machine Sys2Proof.Safety Sys2Proof.Laws
open Sys2Proof.Config (Params)

/-- The slot of channel `i` is in turn, and `r` of its ticks have passed (R230): fewer than the duty in the HIGH phase, and
in the LOW phase the count goes on from the duty to the end of the slot. -/
structure AtTick (u : Pulse) (i r : Nat) : Prop where
  cur_eq : u.cur.toNat = i
  phases :
    (u.phase = .drivingHigh ∧ r < (dutyAt u i).toNat ∧ u.cnt.toNat = r ∧ u.deadline = dutyAt u i)
    ∨ (u.phase = .waitingLow ∧ (dutyAt u i).toNat ≤ r ∧ (dutyAt u i).toNat + u.cnt.toNat = r
        ∧ (dutyAt u i).toNat + u.deadline.toNat = u.slot.toNat)

theorem atTick_of_frameStart {c : Params} {u : Pulse} (he : EngineInv c u) (h : FrameStart u) : AtTick u 0 0 := by
  obtain ⟨hcur, hcnt, -, hedge⟩ := h
  refine ⟨by rw [hcur]; rfl, ?_⟩
  rw [hcnt]
  obtain ⟨hp, hd⟩ | ⟨hp, h0, hd⟩ := hedge
  · have hpos := he.deadline_pos
    exact .inl ⟨hp, hd ▸ hpos, rfl, hd⟩
  · rw [h0, hd]
    exact .inr ⟨hp, le_rfl, rfl, Nat.zero_add _⟩

section
variable {c : Params} {u : Pulse} (hc : PsBounds c) (h : OnSchedule c u)
include hc h

/-- Within its slot the pulse of the current channel ends, and leaves a LOW phase to wait for. -/
theorem atTick_falling (hp : u.phase = .drivingHigh) (hlt : (dutyAt u u.cur.toNat).toNat < u.slot.toNat) :
    AtTick (psSettle c (psService c u)) u.cur.toNat (dutyAt u u.cur.toNat).toNat := by
  have hd := h.service_deadline_of_high hc hp
  have hne : (psService c u).deadline ≠ 0 := fun h0 => by
    rw [h0] at hd
    exact absurd hd (Nat.sub_pos_of_lt hlt).ne
  rw [psSettle_of_ne c hne]
  refine ⟨congrArg BitVec.toNat (psService_cur_of_high hp), .inr ⟨psService_phase_of_high hp, ?_⟩⟩
  rw [dutyAt_psService, psService_cnt, psService_slot, hd]
  exact ⟨le_rfl, rfl, Nat.add_sub_cancel' hlt.le⟩

/-- Out of a LOW phase the slot of the next channel begins, with its pulse or, where its duty is 0, with its LOW phase. -/
theorem atTick_rising (hp : u.phase = .waitingLow) : AtTick (psSettleOnce c (psService c u)) (nextChannel u) 0 := by
  have hs := h.service hc
  have hhigh : (psService c u).phase = .drivingHigh := psService_phase_of_low hp
  have hcur := h.service_cur_of_low hc hp
  have hd : (psService c u).deadline = dutyAt u (nextChannel u) := psService_deadline_of_low hp
  by_cases h0 : dutyAt u (nextChannel u) = 0
  · have hzero : dutyAt (psService c u) (psService c u).cur.toNat = 0 := by rw [dutyAt_psService, hcur, h0]
    rw [psSettleOnce_of_zero (hd.trans h0)]
    refine ⟨by rw [psService_cur_of_high hhigh, hcur], .inr ⟨psService_phase_of_high hhigh, ?_⟩⟩
    rw [dutyAt_psService, dutyAt_psService, h0, psService_cnt, hs.service_deadline_of_zero hc hhigh hzero,
      psService_slot c (psService c u)]
    exact ⟨le_rfl, rfl, Nat.zero_add _⟩
  · rw [psSettleOnce_of_ne (hd ▸ h0)]
    refine ⟨hcur, .inl ⟨hhigh, ?_⟩⟩
    rw [dutyAt_psService, psService_cnt]
    exact ⟨Nat.pos_of_ne_zero fun hz => h0 (BitVec.eq_of_toNat_eq hz), rfl, hd⟩

/-- A LOW phase ends with the next channel's slot, at its deadline. -/
theorem atTick_next_of_low (hp : u.phase = .waitingLow) : AtTick (psSettle c (psService c u)) (nextChannel u) 0 := by
  have hne := (h.service hc).settleOnce_deadline_ne_zero hc (psService_phase_of_low hp) (h.zeroFromDuty_service hc)
  rw [psSettle_eq_once hne]
  exact atTick_rising hc h hp

/-- A pulse that fills its slot has no LOW phase after it. -/
theorem atTick_next_of_high (hp : u.phase = .drivingHigh)
    (hfull : (dutyAt u u.cur.toNat).toNat = u.slot.toNat) :
    AtTick (psSettle c (psService c u)) (nextChannel u) 0 := by
  have hd := h.service_deadline_of_high hc hp
  have h0 : (psService c u).deadline = 0 := BitVec.eq_of_toNat_eq (by rw [hd, hfull, Nat.sub_self]; rfl)
  have hlow : (psService c u).phase = .waitingLow := psService_phase_of_high hp
  have hnext : nextChannel (psService c u) = nextChannel u := by
    rw [nextChannel, nextChannel, psService_n, psService_cur_of_high hp]
  rw [psSettle, psSettleOnce_of_zero h0, ← hnext]
  exact atTick_rising hc (h.service hc) hlow

end

section
variable {c : Params} {u : Pulse} {i r : Nat} (hc : PsBounds c) (he : EngineInv c u) (hs : ScheduleInv c u)
  (h : AtTick u i r)
include hc he hs h

/-- A tick within the slot. -/
theorem atTick_psTick (hr : r + 1 < u.slot.toNat) : AtTick (psTick c u) i (r + 1) := by
  have hon : OnSchedule c u := ⟨hs, he.cur_lt, he.n_le⟩
  obtain ⟨rfl, hphase⟩ := h
  obtain ⟨hm, cnt, hcnt, e⟩ | ⟨hm, e⟩ := psTick_cases hc he
  · rw [e]
    refine ⟨rfl, hphase.imp ?_ ?_⟩
    · rintro ⟨hp, hlt, hr', hd⟩
      have hshort : r + 1 < (dutyAt u u.cur.toNat).toNat := by rw [← hd]; omega
      exact ⟨hp, hshort, hcnt.trans (congrArg (· + 1) hr'), hd⟩
    · rintro ⟨hp, hle, hr', hd⟩
      exact ⟨hp, hle.trans (Nat.le_succ r), show (dutyAt u u.cur.toNat).toNat + cnt.toNat = r + 1 by omega, hd⟩
  · rw [e]
    obtain ⟨hp, hlt, hr', hd⟩ | ⟨hp, hle, hr', hd⟩ := hphase
    · have hduty : r + 1 = (dutyAt u u.cur.toNat).toNat := by rw [← hd]; omega
      rw [hduty] at hr ⊢
      exact atTick_falling hc hon hp hr
    · omega

/-- The last tick of the slot: the phase in flight ends with it, because a LOW phase ends with its slot and a duty is no
longer than the slot. -/
theorem atTick_psTick_last (hr : r + 1 = u.slot.toNat) : AtTick (psTick c u) ((i + 1) % u.n.toNat) 0 := by
  have hon : OnSchedule c u := ⟨hs, he.cur_lt, he.n_le⟩
  obtain ⟨rfl, hphase⟩ := h
  have hfits := hon.duty_le_slot hon.cur_lt
  obtain ⟨hm, -⟩ | ⟨hm, e⟩ := psTick_cases hc he
  · obtain ⟨-, hlt, hr', hd⟩ | ⟨-, hle, hr', hd⟩ := hphase
    · rw [hd] at hm
      omega
    · omega
  · rw [e]
    obtain ⟨hp, hlt, hr', hd⟩ | ⟨hp, hle, hr', hd⟩ := hphase
    · exact atTick_next_of_high hc hon hp (by omega)
    · exact atTick_next_of_low hc hon hp

end

/-- `t` PS ticks. -/
def psTicks (c : Params) (t : Nat) (u : Pulse) : Pulse := (psTick c)^[t] u

section
variable {c : Params} {u : Pulse}

theorem psTicks_succ (t : Nat) : psTicks c (t + 1) u = psTick c (psTicks c t u) := Function.iterate_succ_apply' ..

/-- PS ticks write none of these fields. -/
theorem psTicks_frame (t : Nat) :
    (psTicks c t u).armed = u.armed ∧ (psTicks c t u).n = u.n ∧ (psTicks c t u).slot = u.slot
      ∧ (psTicks c t u).duty = u.duty ∧ (psTicks c t u).pre = u.pre := by
  induction t with
  | zero => exact ⟨rfl, rfl, rfl, rfl, rfl⟩
  | succ t ih => simpa [psTicks_succ] using ih

theorem psTicks_inv (hc : PsBounds c) (he : EngineInv c u) (hs : ScheduleInv c u) (t : Nat) :
    EngineInv c (psTicks c t u) ∧ ScheduleInv c (psTicks c t u) := by
  induction t with
  | zero => exact ⟨he, hs⟩
  | succ t ih =>
    rw [psTicks_succ]
    exact ⟨psTick_engine hc ih.1 ih.2, psTick_schedule ih.2⟩

/-- After `t` ticks of a frame the slot number `t / slot` is in turn (R230). -/
theorem atTick_psTicks (hc : PsBounds c) (he : EngineInv c u) (hs : ScheduleInv c u) (hstart : FrameStart u) (t : Nat) :
    AtTick (psTicks c t u) (t / u.slot.toNat % u.n.toNat) (t % u.slot.toNat) := by
  have hslot : 0 < u.slot.toNat := OnSchedule.slot_pos ⟨hs, he.cur_lt, he.n_le⟩
  induction t with
  | zero =>
    rw [Nat.zero_div, Nat.zero_mod, Nat.zero_mod]
    exact atTick_of_frameStart he hstart
  | succ t ih =>
    obtain ⟨het, hst⟩ := psTicks_inv hc he hs t
    obtain ⟨-, hn, hsl, -, -⟩ := psTicks_frame (c := c) (u := u) t
    have hr := Nat.mod_lt t hslot
    have hsum := Nat.mod_add_div t u.slot.toNat
    rw [psTicks_succ]
    by_cases hlast : t % u.slot.toNat + 1 = u.slot.toNat
    · obtain ⟨hdiv, hmod⟩ : (t + 1) / u.slot.toNat = t / u.slot.toNat + 1 ∧ (t + 1) % u.slot.toNat = 0 :=
        (Nat.div_mod_unique hslot).mpr ⟨by rw [Nat.mul_succ]; omega, hslot⟩
      have hnext := atTick_psTick_last hc het hst ih (hsl ▸ hlast)
      rwa [hn, Nat.mod_add_mod, ← hdiv, ← hmod] at hnext
    · obtain ⟨hdiv, hmod⟩ : (t + 1) / u.slot.toNat = t / u.slot.toNat
          ∧ (t + 1) % u.slot.toNat = t % u.slot.toNat + 1 :=
        (Nat.div_mod_unique hslot).mpr ⟨by omega, by omega⟩
      rw [hdiv, hmod]
      exact atTick_psTick hc het hst ih (by rw [hsl]; omega)

/-- From a prescaler count of 0, `k` clock parts are `k / PS_PRESCALE` ticks and a prescaler count. -/
theorem psClks_eq_psTicks (ha : u.armed = true) (hc : PsBounds c) (h0 : u.pre = 0) (k : Nat) :
    ∃ pre : Word, psClks c k u = { psTicks c (k / c.psPrescale) u with pre := pre } := by
  have hwhole : ∀ t, psClks c (c.psPrescale * t) u = psTicks c t u := by
    intro t
    induction t with
    | zero => rfl
    | succ t ih =>
      obtain ⟨harmed, -, -, -, hpre⟩ := psTicks_frame (c := c) (u := u) t
      rw [Nat.mul_succ, psClks_add, ih, psTicks_succ, psClks_prescale (harmed.trans ha) hc (hpre.trans h0)]
  obtain ⟨harmed, -, -, -, hpre⟩ := psTicks_frame (c := c) (u := u) (k / c.psPrescale)
  have hlt := Nat.mod_lt k hc.prescale_pos
  have hz : (psTicks c (k / c.psPrescale) u).pre.toNat = 0 := by rw [hpre, h0]; rfl
  obtain ⟨pre, he, -⟩ := psClks_count (harmed.trans ha) hc (k := k % c.psPrescale) (by omega)
  refine ⟨pre, ?_⟩
  rw [← he, ← hwhole, ← psClks_add, Nat.div_add_mod]

end

/-- A line is HIGH exactly in the pulse of its channel. -/
theorem out_of_atTick {c : Params} {u : Pulse} {i r : Nat} (he : EngineInv c u) (h : AtTick u i r) {j : Nat} (hj : j < 32) :
    u.out.getLsbD j = decide (j < u.n.toNat ∧ i = j ∧ r < (dutyAt u j).toNat) := by
  have hcur := he.cur_lt
  obtain ⟨rfl, ⟨hp, hlt, -, -⟩ | ⟨hp, hle, -, -⟩⟩ := h
  · rw [he.high hp j hj, decide_eq_decide]
    exact ⟨fun e => ⟨e ▸ hcur, e.symm, e ▸ hlt⟩, fun h => h.2.1.symm⟩
  · rw [he.low hp, eq_comm, show (0 : Word).getLsbD j = false from BitVec.getLsbD_zero, decide_eq_false_iff_not]
    rintro ⟨-, rfl, hlt⟩
    exact absurd hlt (not_lt.mpr hle)

/-- Settles O31: the clock parts are ticks, and the ticks keep the engine invariant and the place in the frame. -/
theorem frameTimingFollowsSlotsAndDuties : Obligations.FrameTimingFollowsSlotsAndDuties := by
  intro c u k hwf hu ha hstart
  have hc := psBounds_of_wellFormed hwf
  have he := hu.engine ha
  have hs := hu.schedule ha
  refine ⟨?_, fun i hi => ?_⟩
  · have hdiv := Nat.div_add_mod c.psPeriod u.n.toNat
    rw [hs.slot_eq]
    omega
  · obtain ⟨pre, hk⟩ := psClks_eq_psTicks ha hc hstart.pre_eq k
    obtain ⟨-, hn, -, hduty, -⟩ := psTicks_frame (c := c) (u := u) (k / c.psPrescale)
    have hout := out_of_atTick (psTicks_inv hc he hs _).1 (atTick_psTicks hc he hs hstart (k / c.psPrescale)) hi
    rw [dutyAt, hduty, hn, ← dutyAt] at hout
    rw [hk]
    exact hout

end Sys2Proof.Proofs

/-! ## The invariant of the pulse scheduler -/

namespace Sys2Proof.Proofs

open Sys2Proof.Machine Sys2Proof.Safety Sys2Proof.Laws
open Sys2Proof.Config (Params)

theorem pulseInv_pulseReset (c : Params) : PulseInv c (Pulse.reset c) where
  length_eq := List.length_replicate
  idle _ := rfl
  engine := nofun
  schedule := nofun

/-- An armed scheduler has nothing to meet that an idle one has. -/
theorem pulseInv_of_armed {c : Params} {u : Pulse} (ha : u.armed = true) (hlen : u.duty.length = c.psNmax)
    (he : EngineInv c u) (hs : ScheduleInv c u) : PulseInv c u where
  length_eq := hlen
  idle h := nomatch h.symm.trans ha
  engine _ := he
  schedule _ := hs

/-- The PS part of a `CLK` step keeps the invariant (R229). -/
theorem psClk_pulseInv {c : Params} {u : Pulse} (hwf : c.wellFormed = true) (hu : PulseInv c u) :
    PulseInv c (psClk c u) := by
  have hc := psBounds_of_wellFormed hwf
  cases ha : u.armed
  · rwa [psClk_unarmed c ha]
  · have he := hu.engine ha
    have hs := hu.schedule ha
    obtain ⟨hlt, e⟩ | ⟨-, e⟩ := psClk_cases c ha <;> rw [e]
    · have hmax := hc.prescale_lt
      have hpre := toNat_add_one (x := u.pre) (by omega)
      exact pulseInv_of_armed ha hu.length_eq { he with pre_lt := hpre ▸ hlt } { hs with }
    · have he0 : EngineInv c { u with pre := 0 } := { he with pre_lt := hc.prescale_pos }
      have hs0 : ScheduleInv c { u with pre := 0 } := { hs with }
      exact pulseInv_of_armed ((psTick_armed ..).trans ha) ((congrArg List.length (psTick_duty ..)).trans hu.length_eq)
        (psTick_engine hc he0 hs0) (psTick_schedule hs0)

section
variable {s t : State} (hwf : s.cfg.wellFormed = true) (hu : PulseInv s.cfg s.ps)
include hwf hu

theorem setter_pulseInv {i : Instr} (hset : IsSetter i) (h : exec i s = .next t) : PulseInv s.cfg t.ps := by
  obtain ⟨p, is, his, hps⟩ := exec_setter hset h
  rw [hps]
  exact pulseInv_storedDuties hwf hu his

theorem psInit_pulseInv {n : Byte} (h : exec (.psInit n) s = .next t) : PulseInv s.cfg t.ps := by
  rcases execPsInit_cases n s with e | ⟨⟨h1, h2, h3, h4⟩, e⟩
  · rwa [ps_of_exec_eq (i := .psInit n) e h]
  · rw [ps_of_exec_eq (i := .psInit n) e h]
    exact psSettle_psStart_pulseInv ⟨h1, h2, h3, h4⟩ (psBounds_of_wellFormed hwf)

/-- Every command keeps the scheduler's invariant; only those of PS touch it. -/
theorem exec_pulseInv {i : Instr} (h : exec i s = .next t) : PulseInv s.cfg t.ps := by
  have hother (hi : unitNumber i ≠ 1) : PulseInv s.cfg t.ps := by
    rwa [(exec_onlyUnit h).ps (unitOf_eq_unitNumber i ▸ hi)]
  cases i with
  | psInit n => exact psInit_pulseInv hwf hu h
  | psSetChannel index => exact setter_pulseInv hwf hu (.inr (.inl ⟨index, rfl⟩)) h
  | psSetAll => exact setter_pulseInv hwf hu (.inl rfl) h
  | psSetChannels base => exact setter_pulseInv hwf hu (.inr (.inr ⟨base, rfl⟩)) h
  | _ => exact hother nofun

end

end Sys2Proof.Proofs

/-! ## The invariant of the control loop -/

namespace Sys2Proof.Proofs

open Sys2Proof.Machine Sys2Proof.Safety Sys2Proof.Laws
open Sys2Proof.Config (Params)

/-- The constraints on the parameters of CL (R12, R14). -/
structure ClBounds (c : Params) : Prop where
  top_ge : 2 ≤ c.clTop
  top_le : c.clTop ≤ 65536
  nmax_le : c.clNmax ≤ 32

theorem clBounds_of_wellFormed {c : Params} (h : c.wellFormed = true) : ClBounds c := by
  simp only [Params.wellFormed, Params.clOk, Bool.and_eq_true, decide_eq_true_eq] at h
  constructor <;> omega

theorem ctlAt_loopReset {c : Params} {k : Nat} (hk : k < c.clNmax) : ctlAt (Loop.reset c) k = .reset :=
  List.getD_replicate _ hk

theorem loopInv_loopReset {c : Params} (hc : ClBounds c) : LoopInv c (Loop.reset c) where
  length_eq := List.length_replicate
  n_le := Nat.zero_le _
  cnt_lt := Nat.zero_lt_of_lt hc.top_ge
  registered := nofun
  made k hk hv := by
    rw [ctlAt_loopReset hk] at hv
    exact nomatch hv
  idle _ := ⟨rfl, rfl, rfl⟩

/-- The CL part of a `CLK` step keeps the counter below its modulus (R44, R280). -/
theorem clClk_loopInv {c : Params} {u : Loop} (hc : ClBounds c) (hu : LoopInv c u) : LoopInv c (clClk c u) := by
  cases hr : u.run
  · rwa [clClk_stopped c hr]
  · have hlt := hu.cnt_lt
    have hge := hc.top_ge
    have hle := hc.top_le
    have hidle {v : Loop} (hv : v.run = true) (h : v.run = false) : v.n = 0 ∧ v.cnt = 0 ∧ v.ovf = 0 :=
      nomatch h.symm.trans hv
    obtain ⟨-, e⟩ | ⟨hne, e⟩ := clClk_cases c hr <;> rw [e]
    · exact { hu with cnt_lt := Nat.zero_lt_of_lt hge, idle := hidle hr }
    · have hcnt : (u.cnt + 1).toNat = u.cnt.toNat + 1 :=
        BitVec.toNat_add_of_lt (show u.cnt.toNat + 1 < 2 ^ 16 by omega)
      exact { hu with cnt_lt := show (u.cnt + 1).toNat < c.clTop by omega, idle := hidle hr }

/-! ### The table -/

theorem ctlAt_set {u : Loop} {k : Nat} (h : k < u.table.length) (e : Controller) (j : Nat) :
    ctlAt { u with table := u.table.set k e } j = if j = k then e else ctlAt u j := by
  simp only [ctlAt, List.getD_eq_getElem?_getD]
  split
  · next hj => rw [hj, List.getElem?_set_self h, Option.getD_some]
  · next hj => rw [List.getElem?_set_ne (Ne.symm hj)]

/-- A made entry may be written anywhere in the table. -/
theorem loopInv_setEntry {c : Params} {u : Loop} {k : Nat} {e : Controller} (hu : LoopInv c u) (hk : k < c.clNmax)
    (hv : e.valid = true) (he : ControllerOk c e) : LoopInv c { u with table := u.table.set k e } :=
  have hset := ctlAt_set (hu.length_eq ▸ hk) e
  { hu with
    length_eq := List.length_set.trans hu.length_eq
    registered := fun j hj => by
      rw [hset]
      split
      · exact hv
      · exact hu.registered j hj
    made := fun j hj => by
      rw [hset]
      split
      · exact fun _ => he
      · exact hu.made j hj }

/-- A PID step of a registered controller writes its sum and its last error, and no operand of `CL_MAKE` (R282). -/
theorem pidStep_loopInv {c : Params} {s : State} {k : Nat} (hu : LoopInv c s.cl) (hk : k < s.cl.n.toNat) (dt : F64) :
    LoopInv c (pidStep dt s k).cl :=
  have hlt := hk.trans_le hu.n_le
  have hv := hu.registered k hk
  loopInv_setEntry hu hlt hv { hu.made k hlt hv with }

theorem pidStep_vars_length (dt : F64) (s : State) (k : Nat) : (pidStep dt s k).vars.length = s.vars.length :=
  List.length_set

/-- Several PID steps keep the control loop's invariant and the length of the variable file. -/
theorem foldl_pidStep_inv {c : Params} {s : State} {ks : List Nat} (dt : F64) (hu : LoopInv c s.cl)
    (hks : ∀ k ∈ ks, k < s.cl.n.toNat) :
    LoopInv c (ks.foldl (pidStep dt) s).cl ∧ (ks.foldl (pidStep dt) s).vars.length = s.vars.length := by
  induction ks generalizing s with
  | nil => exact ⟨hu, rfl⟩
  | cons k ks ih =>
    obtain ⟨hk, hks⟩ := List.forall_mem_cons.mp hks
    rw [List.foldl_cons, ← pidStep_vars_length dt s k]
    exact ih (pidStep_loopInv hu hk dt) hks

/-! ### The commands -/

section
variable {s t : State}

/-- `CL_MAKE` writes an entry only after all its checks (R283). -/
theorem execClMake_next {k : Byte} (h : execClMake k s = .next t) :
    (t.cl = s.cl ∧ t.vars = s.vars)
    ∨ (k.toNat < s.cfg.clNmax ∧ ControllerOk s.cfg (madeController s) ∧ t.vars = s.vars
        ∧ t.cl = { s.cl with table := s.cl.table.set k.toNat (madeController s) }) := by
  have hfail {c : StatusCode} (h : fail .h c s = .next t) : t.cl = s.cl ∧ t.vars = s.vars := by
    rw [fail_next h]
    exact ⟨rfl, rfl⟩
  unfold execClMake at h
  split at h
  · exact .inl (hfail h)
  · split at h
    · exact .inl (hfail h)
    · split at h
      · exact .inl (hfail h)
      · split at h
        · exact .inl (hfail h)
        · rename_i hk hidx hgains hlimits
          simp only [Bool.not_eq_true', Bool.not_eq_false, Bool.and_eq_true] at hgains hlimits
          obtain ⟨⟨hkp, hki⟩, hkd⟩ := hgains
          obtain ⟨⟨himax, hdmax⟩, houtmax⟩ := hlimits
          refine .inr ⟨by omega, ⟨?_, ?_, ?_, hkp, hki, hkd, himax, hdmax, houtmax⟩, ?_, ?_⟩
          · simp only [madeController]; omega
          · simp only [madeController]; omega
          · simp only [madeController]; omega
          · rw [succeed_next h]; rfl
          · rw [succeed_next h]; rfl

variable (hwf : s.cfg.wellFormed = true) (hu : LoopInv s.cfg s.cl)
include hu

theorem clMake_loopInv {k : Byte} (h : exec (.clMake k) s = .next t) :
    LoopInv s.cfg t.cl ∧ t.vars.length = s.vars.length := by
  obtain ⟨hcl, hvars⟩ | ⟨hk, hok, hvars, hcl⟩ := execClMake_next h <;> rw [hcl, hvars]
  · exact ⟨hu, rfl⟩
  · exact ⟨loopInv_setEntry hu hk rfl hok, rfl⟩

include hwf

theorem clInit_loopInv {n : Byte} (h : exec (.clInit n) s = .next t) :
    LoopInv s.cfg t.cl ∧ t.vars.length = s.vars.length := by
  have hc := clBounds_of_wellFormed hwf
  rcases execClInit_cases n s with e | e | ⟨hn, hvalid, e⟩ <;> cases e.symm.trans h
  · exact ⟨hu, rfl⟩
  · exact ⟨hu, rfl⟩
  · have hmax := hc.nmax_le
    have hset : (n.setWidth 6).toNat = n.toNat := by
      rw [BitVec.toNat_setWidth, Nat.mod_eq_of_lt (by omega)]
    exact ⟨{ hu with
      n_le := hset.trans_le hn
      cnt_lt := Nat.zero_lt_of_lt hc.top_ge
      registered := fun k hk => hvalid k (hset ▸ hk)
      idle := nofun }, rfl⟩

theorem clIterate_loopInv (h : exec .clIterate s = .next t) :
    LoopInv s.cfg t.cl ∧ t.vars.length = s.vars.length := by
  have hzeroed (hr : s.cl.run = true) : LoopInv s.cfg { s.cl with cnt := 0, ovf := 0 } :=
    { hu with
      cnt_lt := Nat.zero_lt_of_lt (clBounds_of_wellFormed hwf).top_ge
      idle := fun h => nomatch h.symm.trans hr }
  rcases execClIterate_cases s with ⟨-, e⟩ | ⟨hr, -, e⟩ | ⟨hr, -, e⟩ <;> cases e.symm.trans h
  · exact ⟨hu, rfl⟩
  · exact ⟨hzeroed hr, rfl⟩
  · rw [complete_cl, complete_vars]
    exact foldl_pidStep_inv _ (hzeroed hr) fun _ => List.mem_range.mp

/-- Every command keeps the control loop's invariant and the length of the variable file; only those of CL touch them. -/
theorem exec_loopInv {i : Instr} (h : exec i s = .next t) : LoopInv s.cfg t.cl ∧ t.vars.length = s.vars.length := by
  have hother (hi : unitNumber i ≠ 2) : LoopInv s.cfg t.cl ∧ t.vars.length = s.vars.length := by
    obtain ⟨hcl, hvars⟩ := (exec_onlyUnit h).cl (unitOf_eq_unitNumber i ▸ hi)
    rw [hcl, hvars]
    exact ⟨hu, rfl⟩
  cases i with
  | clMake k => exact clMake_loopInv hu h
  | clInit n => exact clInit_loopInv hwf hu h
  | clIterate => exact clIterate_loopInv hwf hu h
  | _ => exact hother nofun

end

end Sys2Proof.Proofs

/-! ## The invariant of the ring buffer -/

namespace Sys2Proof.Proofs

open Sys2Proof.Machine Sys2Proof.Safety Sys2Proof.Laws
open Sys2Proof.Config (Params)

section
variable {len w r q : Nat}

/-- Two ways round the ring that stay below its length are one way. -/
theorem popAvail_add_popAvail (hw : w < len) (hr : r < len) (hq : q < len)
    (h : popAvail len w r + popAvail len r q < len) :
    popAvail len w r + popAvail len r q = popAvail len w q := by
  rw [popAvail_eq len w r hw hr, popAvail_eq len r q hr hq] at h ⊢
  rw [popAvail_eq len w q hw hq]
  split_ifs at h ⊢ <;> omega

theorem popAvail_left_inj (hw : w < len) (hr : r < len) (hq : q < len) (h : popAvail len w r = popAvail len w q) :
    r = q := by
  rw [popAvail_eq len w r hw hr, popAvail_eq len w q hw hq] at h
  split_ifs at h <;> omega

/-- Advancing an index by one adds at most one to the way behind it. -/
theorem popAvail_next_write_le (hw : w < len) (hr : r < len) : popAvail len ((w + 1) % len) r ≤ popAvail len w r + 1 := by
  by_cases h : (w + 1) % len = r
  · rw [h, (popAvail_eq_zero_iff hr hr).mpr rfl]
    exact Nat.zero_le _
  · exact (popAvail_next_write hw hr h).le

end

/-! ### The synchronised copies -/

section
variable {c : Params} {u : Ring} (hu : RingReady c u)
include hu

theorem ringSynced_store (hs : RingSynced u) (a : Byte) (hroom : (u.wr.toNat + 1) % u.len.toNat ≠ u.rd.toNat)
    (hview : (u.wr.toNat + 1) % u.len.toNat ≠ u.rdSyncP.toNat) : RingSynced (ringStore a u) where
  rdSync_lt := hs.rdSync_lt
  wrSync_lt := hs.wrSync_lt
  pops_fit := by
    have hlen := hu.len_ge
    have hfit := hs.pops_fit
    have hsum := popAvail_add_popAvail hu.wr_lt hu.rd_lt hs.rdSync_lt
    have hfull := (popAvail_succ_eq_iff hu.wr_lt hs.rdSync_lt).not.mpr hview
    have hpops : unseenPops (ringStore a u) = unseenPops u := rfl
    rw [hu.occupancy_store a hroom, hpops, ringStore_len]
    unfold occupancy unseenPops at *
    omega
  pushes_fit := by
    have hfit := hs.pushes_fit
    have hle := popAvail_next_write_le hu.wr_lt hs.wrSync_lt
    rw [hu.occupancy_store a hroom]
    simp only [unseenPushes, ringStore_len, ringStore_wr, ringStore_wrSyncC, hu.next_toNat] at hfit ⊢
    omega

theorem ringSynced_drop (hs : RingSynced u) (hne : u.wr.toNat ≠ u.rd.toNat) (hview : u.wrSyncC.toNat ≠ u.rd.toNat) :
    RingSynced { u with rd := ringNext u.len u.rd } where
  rdSync_lt := hs.rdSync_lt
  wrSync_lt := hs.wrSync_lt
  pops_fit := by
    have hfit := hs.pops_fit
    have hocc := hu.occupancy_drop hne
    have hle := popAvail_next_write_le hu.rd_lt hs.rdSync_lt
    simp only [unseenPops, hu.next_toNat] at hfit ⊢
    omega
  pushes_fit := by
    have hfit := hs.pushes_fit
    have hocc := hu.occupancy_drop hne
    have hinj : unseenPushes u ≠ occupancy u := fun e => hview (popAvail_left_inj hu.wr_lt hs.wrSync_lt hu.rd_lt e)
    have hpushes : unseenPushes { u with rd := ringNext u.len u.rd } = unseenPushes u := rfl
    omega

/-- A copied read index leaves no pop unseen (R180). -/
theorem ringSynced_syncP (hs : RingSynced u) : RingSynced { u with rdSyncP := u.rd } where
  rdSync_lt := hu.rd_lt
  wrSync_lt := hs.wrSync_lt
  pops_fit := by
    have hlt := popAvail_lt u.len.toNat u.wr.toNat u.rd.toNat (Nat.zero_lt_of_lt hu.rd_lt)
    have hzero := (popAvail_eq_zero_iff hu.rd_lt hu.rd_lt).mpr rfl
    simp only [occupancy, unseenPops]
    omega
  pushes_fit := hs.pushes_fit

/-- A copied write index leaves no push unseen (R181). -/
theorem ringSynced_syncC (hs : RingSynced u) : RingSynced { u with wrSyncC := u.wr } where
  rdSync_lt := hs.rdSync_lt
  wrSync_lt := hu.wr_lt
  pops_fit := hs.pops_fit
  pushes_fit := ((popAvail_eq_zero_iff hu.wr_lt hu.wr_lt).mpr rfl).trans_le (Nat.zero_le _)

end

/-! ### The ring buffer's updates -/

section
variable {u : Ring} (h2 : 2 ≤ u.len.toNat) (hwr : u.wr = 0) (hrd : u.rd = 0)
include h2 hwr hrd

theorem ringReady_of_empty {c : Params} (hsize : u.len.toNat ≤ c.rbSize) : RingReady c u := by
  have hwr0 : u.wr.toNat = 0 := by rw [hwr]; rfl
  have hrd0 : u.rd.toNat = 0 := by rw [hrd]; rfl
  have hocc : occupancy u = 0 := (popAvail_eq_zero_iff (by omega) (by omega)).mpr (hwr0.trans hrd0.symm)
  exact ⟨h2, hsize, by omega, by omega, fun j hj => absurd (hocc ▸ hj) (Nat.not_lt_zero j)⟩

theorem ringSynced_of_empty (hcopyP : u.rdSyncP = 0) (hcopyC : u.wrSyncC = 0) : RingSynced u := by
  have h0 : popAvail u.len.toNat 0 0 = 0 := (popAvail_eq_zero_iff (by omega) (by omega)).mpr rfl
  have hocc : occupancy u = 0 := by rw [occupancy, hwr, hrd]; exact h0
  have hpops : unseenPops u = 0 := by rw [unseenPops, hrd, hcopyP]; exact h0
  have hpushes : unseenPushes u = 0 := by rw [unseenPushes, hwr, hcopyC]; exact h0
  exact {
    rdSync_lt := by rw [hcopyP]; exact Nat.zero_lt_of_lt h2
    wrSync_lt := by rw [hcopyC]; exact Nat.zero_lt_of_lt h2
    pops_fit := by omega
    pushes_fit := by omega }

end

theorem ringInv_ringReset (c : Params) : RingInv c Ring.reset where
  mem_wf := rfl
  mem_inside := nofun
  idle _ := rfl
  ready_ok := nofun
  synced := nofun
  no_copies _ := ⟨rfl, rfl⟩

section
variable {c : Params} {u : Ring} (hi : RingInv c u)
include hi

theorem ringInv_store (hr : u.ready = true) (a : Byte) (hroom : (u.wr.toNat + 1) % u.len.toNat ≠ u.rd.toNat)
    (hview : c.rbCdc = true → (u.wr.toNat + 1) % u.len.toNat ≠ u.rdSyncP.toNat) : RingInv c (ringStore a u) where
  mem_wf := memory_wf_write _ _ _ hi.mem_wf
  mem_inside cell hcell := by
    rcases mem_of_mem_memory_write _ _ _ _ hcell with rfl | hmem
    · exact (hi.ready_ok hr).wr_inside
    · exact hi.mem_inside cell hmem
  idle h := nomatch h.symm.trans hr
  ready_ok _ := (hi.ready_ok hr).store a hroom
  synced _ hc := ringSynced_store (hi.ready_ok hr) (hi.synced hr hc) a hroom (hview hc)
  no_copies := hi.no_copies

theorem ringInv_drop (hr : u.ready = true) (hne : u.wr.toNat ≠ u.rd.toNat)
    (hview : c.rbCdc = true → u.wrSyncC.toNat ≠ u.rd.toNat) : RingInv c { u with rd := ringNext u.len u.rd } where
  mem_wf := hi.mem_wf
  mem_inside := hi.mem_inside
  idle h := nomatch h.symm.trans hr
  ready_ok _ := (hi.ready_ok hr).drop hne
  synced _ hc := ringSynced_drop (hi.ready_ok hr) (hi.synced hr hc) hne (hview hc)
  no_copies := hi.no_copies

/-- Before `RB_INIT` the copies are 0 as the indices are; after it a copy keeps the invariant (R180). -/
theorem ringInv_syncP (hc : c.rbCdc = true) : RingInv c { u with rdSyncP := u.rd } where
  mem_wf := hi.mem_wf
  mem_inside := hi.mem_inside
  idle h := by rw [hi.idle h]; rfl
  ready_ok hr := { hi.ready_ok hr with }
  synced hr hc := ringSynced_syncP (hi.ready_ok hr) (hi.synced hr hc)
  no_copies h := nomatch h.symm.trans hc

theorem ringInv_syncC (hc : c.rbCdc = true) : RingInv c { u with wrSyncC := u.wr } where
  mem_wf := hi.mem_wf
  mem_inside := hi.mem_inside
  idle h := by rw [hi.idle h]; rfl
  ready_ok hr := { hi.ready_ok hr with }
  synced hr hc := ringSynced_syncC (hi.ready_ok hr) (hi.synced hr hc)
  no_copies h := nomatch h.symm.trans hc

end

/-! ### The commands -/

section
variable {s t : State} (hi : RingInv s.cfg s.rb)
include hi

theorem rbInit_ringInv {len : Half} (h : exec (.rbInit len) s = .next t) : RingInv s.cfg t.rb := by
  rcases execRbInit_cases len s with e | ⟨h2, hsize, e⟩ <;> cases e.symm.trans h
  · exact hi
  · exact {
      mem_wf := hi.mem_wf
      mem_inside := hi.mem_inside
      idle := nofun
      ready_ok := fun _ => ringReady_of_empty h2 rfl rfl hsize
      synced := fun _ hc => ringSynced_of_empty h2 rfl rfl (if_pos hc) (if_pos hc)
      no_copies := fun hc => by
        obtain ⟨hp, hw⟩ := hi.no_copies hc
        exact ⟨(if_neg (Bool.eq_false_iff.mp hc)).trans hp, (if_neg (Bool.eq_false_iff.mp hc)).trans hw⟩ }

theorem rbPush_ringInv {a : Byte} (h : exec (.rbPush a) s = .next t) : RingInv s.cfg t.rb := by
  obtain ⟨-, rfl⟩ | ⟨-, -, rfl⟩ | ⟨hr, hview, -, rfl⟩ := execRbPush_next h
  · exact hi
  · exact hi
  · refine ringInv_store hi hr a (room_of_view hi hr hview) fun hc => ?_
    rwa [viewRdP, if_pos hc] at hview

/-- An overwriting push into a full buffer is a drop followed by a push into the room it made. -/
theorem rbPushOverwrite_ringInv {a : Byte} (h : exec (.rbPushOverwrite a) s = .next t) : RingInv s.cfg t.rb := by
  obtain ⟨-, rfl⟩ | ⟨-, -, rfl⟩ | ⟨hc, hr, -, hend⟩ := execRbPushOverwrite_next h
  · exact hi
  · exact hi
  · have hu := hi.ready_ok hr
    have hno {p : Prop} (h : s.cfg.rbCdc = true) : p := nomatch h.symm.trans hc
    obtain ⟨he, rfl⟩ | ⟨he, rfl⟩ := hend
    · have hfull : (s.rb.wr.toNat + 1) % s.rb.len.toNat = s.rb.rd.toNat := by rw [← hu.next_toNat, he]
      have hne : s.rb.wr.toNat ≠ s.rb.rd.toNat := fun e => succ_mod_ne hu.len_ge hu.wr_lt (hfull.trans e.symm)
      have hroom : (s.rb.wr.toNat + 1) % s.rb.len.toNat ≠ (ringNext s.rb.len s.rb.rd).toNat := by
        rw [hfull, hu.next_toNat]
        exact (succ_mod_ne hu.len_ge hu.rd_lt).symm
      exact ringInv_store (ringInv_drop hi hr hne hno) hr a hroom hno
    · exact ringInv_store hi hr a (fun e => he (BitVec.eq_of_toNat_eq ((hu.next_toNat _).trans e))) hno

theorem rbPop_ringInv (h : exec .rbPop s = .next t) : RingInv s.cfg t.rb := by
  obtain ⟨-, rfl⟩ | ⟨-, -, rfl⟩ | ⟨hr, hview, -, rfl⟩ := execRbPop_next h
  · exact hi
  · exact hi
  · refine ringInv_drop hi hr (stored_of_view hi hr hview) fun hc e => hview ?_
    rw [viewWrC, if_pos hc]
    exact BitVec.eq_of_toNat_eq e

theorem rbPeek_ringInv (h : exec .rbPeek s = .next t) : RingInv s.cfg t.rb := by
  obtain ⟨-, rfl⟩ | ⟨-, -, rfl⟩ | ⟨-, -, -, rfl⟩ := execRbPeek_next h <;> exact hi

theorem ringQuery_ringInv {x : Port} {f : Nat → Nat → Nat → Word} (h : ringQuery x f s = .next t) :
    RingInv s.cfg t.rb := by
  rwa [(ringQuery_onlyUnit (u := 0) h).rb nofun]

/-- Every command keeps the ring buffer's invariant; only those of RB touch it. -/
theorem exec_ringInv {i : Instr} (h : exec i s = .next t) : RingInv s.cfg t.rb := by
  have hother (hn : unitNumber i ≠ 3) : RingInv s.cfg t.rb := by
    rwa [(exec_onlyUnit h).rb (unitOf_eq_unitNumber i ▸ hn)]
  cases i with
  | rbInit len => exact rbInit_ringInv hi h
  | rbPush a => exact rbPush_ringInv hi h
  | rbPushOverwrite a => exact rbPushOverwrite_ringInv hi h
  | rbIsEmpty x => exact ringQuery_ringInv hi (exec_rbIsEmpty x s ▸ h)
  | rbIsFull x => exact ringQuery_ringInv hi (exec_rbIsFull x s ▸ h)
  | rbPushAvailable x => exact ringQuery_ringInv hi (exec_rbPushAvailable x s ▸ h)
  | rbPopAvailable x => exact ringQuery_ringInv hi (exec_rbPopAvailable x s ▸ h)
  | rbPop => exact rbPop_ringInv hi h
  | rbPeek => exact rbPeek_ringInv hi h
  | _ => exact hother nofun

end

end Sys2Proof.Proofs

/-! ## The invariant of the block -/

namespace Sys2Proof.Proofs

open Sys2Proof.Machine Sys2Proof.Safety Sys2Proof.Laws
open Sys2Proof.Config (Params)

theorem stateInv_status {s : State} (h : StateInv s) (y : Port) : StatusOk (s.port y) := by
  cases y with
  | h => exact h.statusH
  | p => exact h.statusP
  | c => exact h.statusC

/-- The block's invariant from those of its units, with the parameters of `c`. -/
theorem stateInv_of_units {c : Params} {t : State} (hcfg : t.cfg = c) (hwf : c.wellFormed = true)
    (hvars : t.vars.length = c.varCount) (hpulse : PulseInv c t.ps) (hloop : LoopInv c t.cl) (hring : RingInv c t.rb)
    (hstatus : ∀ y, StatusOk (t.port y)) : StateInv t := by
  subst hcfg
  exact ⟨hwf, hvars, hpulse, hloop, hring, hstatus .h, hstatus .p, hstatus .c⟩

theorem statusOk_complete {s : State} {y : Port} (h : StatusOk (s.port y)) (x : Port) (c : StatusCode) (v : Word) :
    StatusOk ((complete x c v s).port y) := by
  by_cases e : y = x
  · subst e
    exact ⟨c, complete_status ..⟩
  · rwa [complete_port_other _ _ _ _ _ e]

/-- After a command each port holds a status code: its own port a new one, the others the one they held (R153). -/
theorem exec_statusOk {i : Instr} {s t : State} (e : exec i s = .next t) {y : Port} (h : StatusOk (s.port y)) :
    StatusOk (t.port y) := by
  cases exec_completesOn e with
  | intro c v p vs l r => exact statusOk_complete (by cases y <;> exact h) _ c v

section
variable {s t : State} (h : StateInv s)
include h

theorem exec_stateInv {i : Instr} (e : exec i s = .next t) : StateInv t ∧ t.cfg = s.cfg := by
  obtain ⟨-, -, hcfg, -⟩ := commandsLeaveOperandsAndParameters i s t e
  obtain ⟨hloop, hvars⟩ := exec_loopInv h.cfg_ok h.loop e
  exact ⟨stateInv_of_units hcfg h.cfg_ok (hvars.trans h.vars_length) (exec_pulseInv h.cfg_ok h.pulse e) hloop
    (exec_ringInv h.ring e) fun y => exec_statusOk e (stateInv_status h y), hcfg⟩

theorem stateInv_complete (x : Port) (c : StatusCode) (v : Word) : StateInv (complete x c v s) :=
  stateInv_of_units (complete_cfg ..) h.cfg_ok ((congrArg List.length (complete_vars ..)).trans h.vars_length)
    (complete_ps s x c v ▸ h.pulse) (complete_cl s x c v ▸ h.loop) (complete_rb s x c v ▸ h.ring)
    fun y => statusOk_complete (stateInv_status h y) x c v

theorem runCommand_stateInv {x : Port} {w : Word} (e : runCommand x w s = .next t) : StateInv t ∧ t.cfg = s.cfg := by
  rcases runCommand_cases x w s with ⟨i, -, e'⟩ | ⟨_, -, e'⟩
  · exact exec_stateInv h (e'.symm.trans e)
  · cases e'.symm.trans e
    exact ⟨stateInv_complete h .., complete_cfg ..⟩

theorem writeRegister_stateInv (v : Word) (r : Register) :
    StateInv (writeRegister v s r) ∧ (writeRegister v s r).cfg = s.cfg := by
  have hlen := writeRegister_vars_length v s r
  rw [writeRegister_frame]
  exact ⟨{ h with vars_length := hlen.trans h.vars_length }, rfl⟩

theorem busWrite_stateInv {x : Port} {off : Nat} {v : Word} (e : busWrite x off v s = .next t) :
    StateInv t ∧ t.cfg = s.cfg := by
  obtain ⟨-, e'⟩ | ⟨r, -, -, e'⟩ | ⟨-, e'⟩ := busWrite_cases x off v s
  · exact runCommand_stateInv h (e'.symm.trans e)
  · cases e'.symm.trans e
    exact writeRegister_stateInv h v r
  · cases e'.symm.trans e
    exact ⟨h, rfl⟩

/-- What a read leaves with its master belongs to no invariant. -/
theorem stateInv_setPort_rdata (x : Port) (v : Word) : StateInv (s.setPort x { s.port x with rdata := v }) := by
  cases x <;> exact { h with }

theorem busAccess_stateInv {a : Access} (e : busAccess a s = .next t) : StateInv t ∧ t.cfg = s.cfg := by
  obtain ⟨-, -, x, -, -, ⟨-, rfl⟩ | ⟨v, -, e'⟩⟩ := busAccess_next e
  · exact ⟨stateInv_setPort_rdata h .., setPort_cfg ..⟩
  · exact busWrite_stateInv h e'

theorem clkStep_stateInv : StateInv (clkStep s) :=
  { h with
    pulse := psClk_pulseInv h.cfg_ok h.pulse
    loop := clClk_loopInv (clBounds_of_wellFormed h.cfg_ok) h.loop }

theorem platformReset_stateInv : StateInv (platformReset s) where
  cfg_ok := h.cfg_ok
  vars_length := List.length_replicate
  pulse := pulseInv_pulseReset _
  loop := loopInv_loopReset (clBounds_of_wellFormed h.cfg_ok)
  ring := ringInv_ringReset _
  statusH := ⟨.ok, rfl⟩
  statusP := ⟨.ok, rfl⟩
  statusC := ⟨.ok, rfl⟩

/-- Every agent's step keeps the invariant and the parameters (R20, R53). -/
theorem perform_stateInv {a : Action} (e : perform a s = .next t) : StateInv t ∧ t.cfg = s.cfg := by
  obtain ⟨b, -, e⟩ | ⟨-, rfl⟩ | ⟨-, hc, rfl⟩ | ⟨-, hc, rfl⟩ | ⟨-, rfl⟩ := perform_next e
  · exact busAccess_stateInv h e
  · exact ⟨clkStep_stateInv h, rfl⟩
  · exact ⟨{ h with ring := ringInv_syncP h.ring hc }, rfl⟩
  · exact ⟨{ h with ring := ringInv_syncC h.ring hc }, rfl⟩
  · exact ⟨platformReset_stateInv h, rfl⟩

end

/-- Settles O54: a step is one agent's, and the queue of placed steps and the counter of free ones belong to no
invariant. -/
theorem everyStepKeepsTheInvariant : Obligations.EveryStepKeepsTheInvariant := by
  intro s t h e
  cases hp : s.pending with
  | nil =>
    have hfree : StateInv { s with turn := s.turn + 1 } := { h with }
    exact perform_stateInv (s := { s with turn := s.turn + 1 }) hfree ((step_free hp).symm.trans e)
  | cons a rest =>
    have hplaced : StateInv { s with pending := rest } := { h with }
    exact perform_stateInv (s := { s with pending := rest }) hplaced ((step_placed hp).symm.trans e)

end Sys2Proof.Proofs

/-!
PROOFS. The statements of the family 43_control_loop: the timer and its ticks, the clamp and the PID step, and what the
CL commands answer.
-/

/-! ## The timer -/

namespace Sys2Proof.Proofs

open Sys2Proof.Machine Sys2Proof.Safety Sys2Proof.Laws
open Sys2Proof.Config (Params)

section
variable {c : Params} {u : Loop}

/-- The CL part of a `CLK` step writes the two counters only (R280). -/
theorem clClk_frame (c : Params) (u : Loop) :
    clClk c u = { u with cnt := (clClk c u).cnt, ovf := (clClk c u).ovf } := by
  by_cases hr : u.run = true
  · obtain ⟨-, e⟩ | ⟨-, e⟩ := clClk_cases c hr <;> rw [e]
  · rw [clClk_stopped c (Bool.eq_false_of_not_eq_true hr)]

/-- Below its last value the running counter counts (R280). -/
theorem clClk_counts (hc : ClBounds c) (hr : u.run = true) (h : u.cnt.toNat + 1 < c.clTop) :
    (clClk c u).cnt.toNat = u.cnt.toNat + 1 ∧ (clClk c u).ovf = u.ovf := by
  have hle := hc.top_le
  obtain ⟨htop, -⟩ | ⟨-, e⟩ := clClk_cases c hr
  · omega
  · rw [e]
    exact ⟨BitVec.toNat_add_of_lt (show u.cnt.toNat + 1 < 2 ^ 16 by omega), rfl⟩

/-- At its last value it wraps, and the overflow counter counts up to its maximum (R280). -/
theorem clClk_wraps (hr : u.run = true) (h : u.cnt.toNat + 1 = c.clTop) :
    (clClk c u).cnt = 0 ∧ (clClk c u).ovf.toNat = min (u.ovf.toNat + 1) 65535 := by
  obtain ⟨-, e⟩ | ⟨hne, -⟩ := clClk_cases c hr
  · rw [e]
    refine ⟨rfl, ?_⟩
    rw [BitVec.toNat_ofNat, Config.clOvfMax]
    omega
  · omega

/-- Two 16-bit counters and a modulus of at most `2^16` count below `2^32` (R285). -/
theorem elapsedTicks_lt (hc : ClBounds c) (u : Loop) : elapsedTicks c u < 2 ^ 32 := by
  have hovf : u.ovf.toNat ≤ 65535 := Nat.le_of_lt_succ u.ovf.isLt
  have hcnt : u.cnt.toNat ≤ 65535 := Nat.le_of_lt_succ u.cnt.isLt
  have hmul := Nat.mul_le_mul hovf hc.top_le
  unfold elapsedTicks
  omega

end

/-- Settles O33: the frame of the CL part, and its three cases. -/
theorem clockStepCountsAndOverflows : Obligations.ClockStepCountsAndOverflows := by
  intro s hwf hu
  refine ⟨psClk s.cfg s.ps, (clClk s.cfg s.cl).cnt, (clClk s.cfg s.cl).ovf, ?_, rfl, fun hr => ?_,
    clClk_counts (clBounds_of_wellFormed hwf), fun hr htop => ?_⟩
  · rw [← clClk_frame]
    rfl
  · rw [clClk_stopped _ hr]
    exact ⟨rfl, rfl⟩
  · obtain ⟨hcnt, hovf⟩ := clClk_wraps hr htop
    refine ⟨hcnt, ?_⟩
    rw [hovf]
    split <;> omega

/-! ### Steps that leave the timer alone -/

/-- From `s` to `t` the parameters and the timer stand; of the control loop the table may change. -/
structure LeavesTimer (s t : State) : Prop where
  cfg_eq : t.cfg = s.cfg
  cl_eq : ∃ table, t.cl = { s.cl with table := table }

theorem leavesTimer_of_eq {s t : State} (hcfg : t.cfg = s.cfg) (hcl : t.cl = s.cl) : LeavesTimer s t :=
  ⟨hcfg, s.cl.table, hcl⟩

/-- Of the commands only `CL_INIT` and `CL_ITERATE` write the timer (R284, R285). -/
theorem exec_leavesTimer {i : Instr} {s t : State} (h : exec i s = .next t) (hiter : i ≠ .clIterate)
    (hinit : ∀ n, i ≠ .clInit n) : LeavesTimer s t := by
  obtain ⟨-, -, hcfg, -⟩ := commandsLeaveOperandsAndParameters i s t h
  have hother (hi : unitNumber i ≠ 2) : LeavesTimer s t :=
    leavesTimer_of_eq hcfg ((exec_onlyUnit h).cl (unitOf_eq_unitNumber i ▸ hi)).1
  cases i with
  | clMake k =>
    obtain ⟨hcl, -⟩ | ⟨-, -, -, hcl⟩ := execClMake_next h
    · exact leavesTimer_of_eq hcfg hcl
    · exact ⟨hcfg, _, hcl⟩
  | clInit n => exact absurd rfl (hinit n)
  | clIterate => exact absurd rfl hiter
  | _ => exact hother nofun

/-- A write that reaches the CMD register of a port with the word of a command issues that command there (R150). -/
theorem issues_of_cmd {c : Params} {b : Access} {x : Port} {w : Word} {i : Instr} (hx : portAt c b.addr = some x)
    (hcmd : registerAt c x (b.addr - baseOf c x) = some .cmd) (hw : b.op = .write w) (hd : decode x w = .ok i) :
    Issues c x i (.bus b) := by
  have hin := List.find?_some hx
  simp only [inWindow, Bool.and_eq_true, decide_eq_true_eq] at hin
  have hoff : 0 = b.addr - baseOf c x := (registerAt_sound hcmd).2
  exact ⟨b, w, rfl, hw, by omega, hd⟩

/-- The command that a step issues belongs to the port (R125). -/
theorem port_of_issues {c : Params} {x : Port} {i : Instr} {a : Action} (h : Issues c x i a) : i.port = x := by
  obtain ⟨_, w, -, -, -, hd⟩ := h
  exact (encodeOfDecodeIsTheWord x w i hd).2.1

/-- A bus access that issues neither `CL_INIT` nor `CL_ITERATE` leaves the timer alone. -/
theorem busAccess_leavesTimer {b : Access} {s t : State} (hk : KeepsTiming s.cfg (.bus b))
    (h : busAccess b s = .next t) : LeavesTimer s t := by
  obtain ⟨-, hiter, hinit⟩ := hk
  obtain ⟨-, -, x, hx, -, ⟨-, rfl⟩ | ⟨v, hv, e⟩⟩ := busAccess_next h
  · exact leavesTimer_of_eq (setPort_cfg ..) (setPort_cl ..)
  obtain ⟨hcmd, e'⟩ | ⟨r, -, -, e'⟩ | ⟨-, e'⟩ := busWrite_cases x (b.addr - baseOf s.cfg x) v s <;> rw [e'] at e
  · rcases runCommand_cases x v s with ⟨i, hd, e'⟩ | ⟨_, -, e'⟩ <;> rw [e'] at e
    · have hissues := issues_of_cmd hx hcmd hv hd
      have hport := port_of_issues hissues
      refine exec_leavesTimer e ?_ fun n => ?_ <;> rintro rfl <;> cases hport
      · exact hiter hissues
      · exact hinit n hissues
    · cases e
      exact leavesTimer_of_eq (complete_cfg ..) (complete_cl ..)
  · cases e
    rw [writeRegister_frame]
    exact leavesTimer_of_eq rfl rfl
  · cases e
    exact leavesTimer_of_eq rfl rfl

/-- Every such step of an agent is a `CLK` step or leaves the timer alone. -/
theorem perform_leavesTimer {a : Action} {s t : State} (hk : KeepsTiming s.cfg a) (hclk : a ≠ .clk)
    (h : perform a s = .next t) : LeavesTimer s t := by
  obtain ⟨b, rfl, e⟩ | ⟨rfl, -⟩ | ⟨-, -, rfl⟩ | ⟨-, -, rfl⟩ | ⟨rfl, -⟩ := perform_next h
  · exact busAccess_leavesTimer hk e
  · exact absurd rfl hclk
  · exact leavesTimer_of_eq rfl rfl
  · exact leavesTimer_of_eq rfl rfl
  · exact absurd rfl hk.1

/-! ### Ticks -/

/-- A count from a saturated number saturates where one from the number itself does. -/
theorem saturate_succ (q m : Nat) : min (min q m + 1) m = min (q + 1) m := by omega

/-- The timer runs and stands as `T` `CLK` steps after its counters were zeroed (R286, R287). -/
structure TimedFor (c : Params) (T : Nat) (s : State) : Prop where
  cfg_eq : s.cfg = c
  run : s.cl.run = true
  cnt_eq : s.cl.cnt.toNat = T % c.clTop
  ovf_eq : s.cl.ovf.toNat = min (T / c.clTop) 65535

section
variable {c : Params} {T : Nat} {s t : State}

theorem LeavesTimer.timedFor (hk : LeavesTimer s t) (h : TimedFor c T s) : TimedFor c T t := by
  obtain ⟨hcfg, table, hcl⟩ := hk
  exact ⟨hcfg.trans h.cfg_eq, hcl ▸ h.run, hcl ▸ h.cnt_eq, hcl ▸ h.ovf_eq⟩

/-- A `CLK` step carries the count into the overflow counter exactly where the division does (R280). -/
theorem clkStep_timedFor (hc : ClBounds c) (h : TimedFor c T s) : TimedFor c (T + 1) (clkStep s) := by
  obtain ⟨rfl, hr, hcnt, hovf⟩ := h
  have hpos := Nat.zero_lt_of_lt hc.top_ge
  have hlt := Nat.mod_lt T hpos
  have hone : 1 % s.cfg.clTop = 1 := Nat.mod_eq_of_lt hc.top_ge
  have hdiv : 1 / s.cfg.clTop = 0 := Nat.div_eq_of_lt hc.top_ge
  by_cases htop : s.cl.cnt.toNat + 1 = s.cfg.clTop
  · obtain ⟨hcnt', hovf'⟩ := clClk_wraps hr htop
    have hcarry : s.cfg.clTop ≤ T % s.cfg.clTop + 1 % s.cfg.clTop := by omega
    have hmod := Nat.add_mod_add_of_le_add_mod hcarry
    have hquot := Nat.add_div_eq_of_le_mod_add_mod hcarry hpos
    refine ⟨rfl, (clClk_run ..).trans hr, ?_, ?_⟩
    · have hzero : (clkStep s).cl.cnt.toNat = 0 := congrArg BitVec.toNat hcnt'
      omega
    · rw [clkStep_cl, hovf', hovf, hquot, hdiv, saturate_succ, Nat.add_zero]
  · obtain ⟨hcnt', hovf'⟩ := clClk_counts hc hr (by omega)
    have hnocarry : T % s.cfg.clTop + 1 % s.cfg.clTop < s.cfg.clTop := by omega
    refine ⟨rfl, (clClk_run ..).trans hr, ?_, ?_⟩
    · rw [clkStep_cl, hcnt', hcnt, Nat.add_mod_of_add_mod_lt hnocarry, hone]
    · rw [clkStep_cl, hovf', hovf, Nat.add_div_eq_of_add_mod_lt hnocarry, hdiv, Nat.add_zero]

/-- Along any steps that keep the timing, the timer counts the `CLK` steps. -/
theorem performAll_timedFor (hc : ClBounds c) {as : List Action} (h : TimedFor c T s)
    (hk : ∀ a ∈ as, KeepsTiming c a) (e : performAll as s = .next t) : TimedFor c (T + as.count .clk) t := by
  induction as generalizing s T with
  | nil =>
    cases e
    exact h
  | cons a as ih =>
    obtain ⟨ha, has⟩ := List.forall_mem_cons.mp hk
    obtain ⟨u, hu, e⟩ := performAll_cons_next.mp e
    by_cases hclk : a = .clk
    · subst hclk
      cases hu
      rw [List.count_cons_self, Nat.add_comm _ 1, ← Nat.add_assoc]
      exact ih (clkStep_timedFor hc h) has e
    · rw [List.count_cons_of_ne hclk]
      rw [← h.cfg_eq] at ha
      exact ih ((perform_leavesTimer ha hclk hu).timedFor h) has e

/-- The reconstructed ticks: exact until the overflow counter saturates (R286, R287). -/
theorem TimedFor.elapsedTicks_eq (hc : ClBounds c) (h : TimedFor c T s) :
    elapsedTicks c s.cl = if T < 65536 * c.clTop then T else 65535 * c.clTop + T % c.clTop := by
  have hpos := Nat.zero_lt_of_lt hc.top_ge
  rw [elapsedTicks, h.cnt_eq, h.ovf_eq]
  split
  · next hlt =>
    have hquot : T / c.clTop < 65536 := (Nat.div_lt_iff_lt_mul hpos).mpr hlt
    rw [Nat.min_eq_left (Nat.le_of_lt_succ hquot), Nat.div_add_mod']
  · next hge =>
    have hquot : 65536 ≤ T / c.clTop := (Nat.le_div_iff_mul_le hpos).mpr (Nat.not_lt.mp hge)
    rw [Nat.min_eq_right (by omega)]

/-! ### What `CL_ITERATE` answers -/

/-- The state with both counters of the timer at 0. -/
def zeroedCounters (s : State) : State := { s with cl := { s.cl with cnt := 0, ovf := 0 } }

theorem execClIterate_of_stopped (hr : s.cl.run = false) : execClIterate s = .next (complete .h .notInit 0 s) := by
  rcases execClIterate_cases s with ⟨-, e⟩ | ⟨hr', -⟩ | ⟨hr', -⟩
  · exact e
  · exact nomatch hr'.symm.trans hr
  · exact nomatch hr'.symm.trans hr

/-- Without a tick `CL_ITERATE` only skips. -/
theorem execClIterate_of_no_ticks (hr : s.cl.run = true) (h0 : elapsedTicks s.cfg s.cl = 0) :
    execClIterate s = .next (complete .h .skipped 0 (zeroedCounters s)) := by
  rcases execClIterate_cases s with ⟨hr', -⟩ | ⟨-, -, e⟩ | ⟨-, hne, -⟩
  · exact nomatch hr'.symm.trans hr
  · exact e
  · exact absurd h0 hne

theorem execClIterate_of_ticks (hr : s.cl.run = true) (h : elapsedTicks s.cfg s.cl ≠ 0) :
    execClIterate s
      = .next (complete .h .ok (BitVec.ofNat 32 (elapsedTicks s.cfg s.cl))
          ((List.range s.cl.n.toNat).foldl (pidStep (div64 (to64 (elapsedTicks s.cfg s.cl)) (to64 s.cfg.fClk)))
            (zeroedCounters s))) := by
  rcases execClIterate_cases s with ⟨hr', -⟩ | ⟨-, h0, -⟩ | ⟨-, -, e⟩
  · exact nomatch hr'.symm.trans hr
  · exact absurd h0 h
  · exact e

/-- `CL_ITERATE` answers the ticks, no tick included, and restarts the timer (R285). -/
theorem execClIterate_of_run (hr : s.cl.run = true) :
    ∃ u, execClIterate s = .next u ∧ u.portH.res = BitVec.ofNat 32 (elapsedTicks s.cfg s.cl)
      ∧ u.cl.run = true ∧ u.cl.cnt = 0 ∧ u.cl.ovf = 0 := by
  by_cases h0 : elapsedTicks s.cfg s.cl = 0
  · exact ⟨_, execClIterate_of_no_ticks hr h0, by rw [h0]; rfl, hr, rfl, rfl⟩
  · have e := execClIterate_of_ticks hr h0
    rw [foldl_pidStep_frame] at e
    exact ⟨_, e, rfl, hr, rfl, rfl⟩

end

/-- Settles O37: the timer stands as the division of the number of `CLK` steps by its modulus says, and a `CL_ITERATE`
leaves no tick for the next one. -/
theorem ticksAreReconstructedUpToSaturation : Obligations.TicksAreReconstructedUpToSaturation := by
  intro s as t hwf hr hcnt hovf hk e
  have hc := clBounds_of_wellFormed hwf
  have hstart : TimedFor s.cfg 0 s := ⟨rfl, hr, by rw [hcnt]; rfl, by rw [hovf, Nat.zero_div]; rfl⟩
  have ht := performAll_timedFor hc hstart hk e
  obtain ⟨u, hu, hres, hrun, hcnt', hovf'⟩ := execClIterate_of_run ht.run
  have h0 : elapsedTicks u.cfg u.cl = 0 := by simp [elapsedTicks, hcnt', hovf']
  refine ⟨u, _, hu, ?_, execClIterate_of_no_ticks hrun h0, complete_status (x := .h) .., complete_res (x := .h) ..⟩
  rw [hres, ht.cfg_eq, BitVec.toNat_ofNat, Nat.mod_eq_of_lt (elapsedTicks_lt hc _), ht.elapsedTicks_eq hc, Nat.zero_add]

end Sys2Proof.Proofs

/-! ## The clamp -/

namespace Sys2Proof.Proofs

open Sys2Proof.Machine Sys2Proof.Safety Sys2Proof.Laws
open Sys2Proof.Config (Params)

theorem orderKey_neg64 (x : F64) : orderKey (neg64 x) = -orderKey x := by
  rw [orderKey_eq, orderKey_eq, bitsOf_neg64, signBit_neg64]
  cases signBit x <;> simp [withSignInt]

theorem limitOk_eq_true_iff (x : F64) : limitOk x = true ↔ isNaN x = false ∧ lt64 x 0 = false := by
  simp [limitOk]

/-- A limit that `CL_MAKE` accepts is no NaN and not below zero; a negative zero is accepted (R283). -/
theorem limitOk_iff (lim : F64) : limitOk lim = true ↔ isNaN lim = false ∧ 0 ≤ orderKey lim := by
  rw [limitOk_eq_true_iff]
  refine and_congr_right fun hn => ?_
  rw [← Bool.not_eq_true, lt64_iff hn (by decide), show orderKey 0 = 0 by decide, Int.not_lt]

theorem isNaN_clamp64 {x : F64} (h : isNaN x = true) (lim : F64) : isNaN (clamp64 x lim) = true := by
  rwa [clamp64_of_nan lim h]

theorem clamp64_of_within {x lim : F64} (hgt : gt64 x lim = false) (hlt : lt64 x (neg64 lim) = false) :
    clamp64 x lim = x := by
  simp [clamp64, hgt, hlt]

theorem clamp64_of_gt64 {x lim : F64} (hgt : gt64 x lim = true) : clamp64 x lim = lim := if_pos hgt

section
variable {lim : F64} (hl : limitOk lim = true)
include hl

/-- What lies below the negated limit does not lie above the limit. -/
theorem not_gt64_of_lt64_neg64 {x : F64} (h : lt64 x (neg64 lim) = true) : gt64 x lim = false := by
  obtain ⟨hn, hpos⟩ := (limitOk_iff lim).mp hl
  cases hx : isNaN x
  · rw [lt64_iff hx (by simpa using hn), orderKey_neg64] at h
    rw [← Bool.not_eq_true, gt64_iff hx hn]
    omega
  · simp [gt64, hx]

theorem clamp64_of_lt64 {x : F64} (h : lt64 x (neg64 lim) = true) : clamp64 x lim = neg64 lim := by
  simp [clamp64, not_gt64_of_lt64_neg64 hl h, h]

/-- What the clamp answers is nowhere beyond the limits (R288). -/
theorem clamp64_within (x : F64) :
    gt64 (clamp64 x lim) lim = false ∧ lt64 (clamp64 x lim) (neg64 lim) = false := by
  obtain ⟨hn, hpos⟩ := (limitOk_iff lim).mp hl
  have hn' : isNaN (neg64 lim) = false := by rwa [isNaN_neg64]
  rcases clamp64_cases x lim with ⟨-, e⟩ | ⟨-, -, e⟩ | ⟨hgt, hlt, e⟩ <;> rw [e]
  · rw [← Bool.not_eq_true, ← Bool.not_eq_true, gt64_iff hn hn, lt64_iff hn hn', orderKey_neg64]
    omega
  · rw [← Bool.not_eq_true, ← Bool.not_eq_true, gt64_iff hn' hn, lt64_iff hn' hn', orderKey_neg64]
    omega
  · exact ⟨hgt, hlt⟩

/-- Every accepted limit lets both zeros pass. -/
theorem clamp64_zero64 (neg : Bool) : clamp64 (zero64 neg) lim = zero64 neg := by
  obtain ⟨hn, hpos⟩ := (limitOk_iff lim).mp hl
  have hzero : orderKey (zero64 neg) = 0 := by cases neg <;> decide
  have hn' : isNaN (neg64 lim) = false := by rwa [isNaN_neg64]
  apply clamp64_of_within
  · rw [← Bool.not_eq_true, gt64_iff (isNaN_zero64 neg) hn, hzero]
    omega
  · rw [← Bool.not_eq_true, lt64_iff (isNaN_zero64 neg) hn', hzero, orderKey_neg64]
    omega

end

/-- Settles O38: the sum, the derivative and the output are each what the clamp answers. -/
theorem clampedTermsStayWithinTheirLimits : Obligations.ClampedTermsStayWithinTheirLimits := by
  refine ⟨fun x lim hl => ⟨clamp64_of_gt64, clamp64_of_lt64 hl, clamp64_of_within, clamp64_of_nan lim⟩, ?_⟩
  intro c k e dt sum d hk
  exact ⟨fun _ => clamp64_within hk.imax_ok _, fun _ => clamp64_within hk.dmax_ok _,
    fun _ => clamp64_within hk.outmax_ok _⟩

end Sys2Proof.Proofs

/-! ## The PID step -/

namespace Sys2Proof.Proofs

open Sys2Proof.Machine Sys2Proof.Safety Sys2Proof.Laws
open Sys2Proof.Config (Params)

/-! ### What it writes -/

/-- A write of another entry, or beyond the table, leaves an entry as it is. -/
theorem ctlAt_set_ne {k j : Nat} (h : j ≠ k) (u : Loop) (e : Controller) :
    ctlAt { u with table := u.table.set k e } j = ctlAt u j := by
  rw [ctlAt, ctlAt, List.getD_eq_getElem?_getD, List.getD_eq_getElem?_getD, List.getElem?_set_ne (Ne.symm h)]

section
variable (dt : F64) {s : State} {k : Nat}

/-- The entry takes the new sum and the error (R282). -/
theorem ctlAt_pidStep (hk : k < s.cl.table.length) (j : Nat) :
    ctlAt (pidStep dt s k).cl j
      = if j = k then
          { ctlAt s.cl k with
            sum := pidSum (ctlAt s.cl k) (pidError s (ctlAt s.cl k)) dt
            last := pidError s (ctlAt s.cl k) }
        else ctlAt s.cl j :=
  ctlAt_set hk _ j

theorem sum_pidStep (hk : k < s.cl.table.length) :
    (ctlAt (pidStep dt s k).cl k).sum = pidSum (ctlAt s.cl k) (pidError s (ctlAt s.cl k)) dt := by
  rw [ctlAt_pidStep dt hk, if_pos rfl]

theorem last_pidStep (hk : k < s.cl.table.length) :
    (ctlAt (pidStep dt s k).cl k).last = pidError s (ctlAt s.cl k) := by
  rw [ctlAt_pidStep dt hk, if_pos rfl]

/-- The output variable takes the output of the new sum and the derivative (R282). -/
theorem varAt_pidStep (ho : (ctlAt s.cl k).out.toNat < s.vars.length) (j : Nat) :
    varAt (pidStep dt s k) j
      = if j = (ctlAt s.cl k).out.toNat then
          pidOutput (ctlAt s.cl k) (pidError s (ctlAt s.cl k)) (pidSum (ctlAt s.cl k) (pidError s (ctlAt s.cl k)) dt)
            (pidDerivative (ctlAt s.cl k) (pidError s (ctlAt s.cl k)) dt)
        else varAt s j :=
  varAt_set ho j _

/-- The model's step takes the four steps of R282. -/
theorem pidStep_pidStepTo (hk : k < s.cl.table.length) (ho : (ctlAt s.cl k).out.toNat < s.vars.length) :
    PidStepTo dt k s (pidStep dt s k) :=
  ⟨_, _, _, _, _, rfl, rfl, rfl, rfl, rfl,
    by rw [ctlAt_pidStep dt hk, if_pos rfl]; rfl, fun j hj => by rw [ctlAt_pidStep dt hk, if_neg hj],
    by rw [varAt_pidStep dt ho, if_pos rfl]; rfl, fun j hj => by rw [varAt_pidStep dt ho, if_neg hj], rfl⟩

end

/-! ### NaNs -/

section
variable {k : Controller} {e sum : F64}

/-- A NaN in the old sum or in the error makes the new sum a NaN (R288). -/
theorem isNaN_pidSum (h : isNaN k.sum = true ∨ isNaN e = true) (dt : F64) : isNaN (pidSum k e dt) = true := by
  have hadd : isNaN (add64 k.sum (mul64 e dt)) = true :=
    (isNaN_add64_iff _ _).mpr (h.imp_right fun he => .inl ((isNaN_mul64_iff _ _).mpr (.inl he)))
  exact isNaN_clamp64 hadd _

/-- A NaN in the new sum makes the output a NaN (R288). -/
theorem isNaN_pidOutput (h : isNaN sum = true) (k : Controller) (e d : F64) : isNaN (pidOutput k e sum d) = true := by
  have hmul : isNaN (mul64 k.ki sum) = true := (isNaN_mul64_iff _ _).mpr (.inr (.inl h))
  have hadd : isNaN (add64 (mul64 k.kp e) (mul64 k.ki sum)) = true := (isNaN_add64_iff _ _).mpr (.inr (.inl hmul))
  exact isNaN_clamp64 ((isNaN_add64_iff _ _).mpr (.inl hadd)) _

end

section
variable {s t : State} {k : Nat}

/-- An entry that holds a NaN is one of the table. -/
theorem lt_length_of_isNaN_sum {u : Loop} (h : isNaN (ctlAt u k).sum = true) : k < u.table.length := by
  by_contra hk
  rw [ctlAt, List.getD_eq_default _ _ (Nat.not_lt.mp hk)] at h
  exact absurd h (by decide)

theorem isNaN_sum_pidStep (dt : F64) (h : isNaN (ctlAt s.cl k).sum = true) (j : Nat) :
    isNaN (ctlAt (pidStep dt s j).cl k).sum = true := by
  by_cases hj : k = j
  · subst hj
    rw [sum_pidStep dt (lt_length_of_isNaN_sum h)]
    exact isNaN_pidSum (.inl h) dt
  · have hne : ctlAt (pidStep dt s j).cl k = ctlAt s.cl k := ctlAt_set_ne hj s.cl _
    rwa [hne]

theorem isNaN_sum_foldl_pidStep (dt : F64) (h : isNaN (ctlAt s.cl k).sum = true) (ks : List Nat) :
    isNaN (ctlAt (ks.foldl (pidStep dt) s).cl k).sum = true := by
  induction ks generalizing s with
  | nil => exact h
  | cons j ks ih => exact ih (isNaN_sum_pidStep dt h j)

theorem isNaN_sum_clMake {b : Byte} (e : exec (.clMake b) s = .next t) (hb : b.toNat ≠ k)
    (h : isNaN (ctlAt s.cl k).sum = true) : isNaN (ctlAt t.cl k).sum = true := by
  obtain ⟨hcl, -⟩ | ⟨-, -, -, hcl⟩ := execClMake_next e <;> rw [hcl]
  · exact h
  · rwa [ctlAt_set_ne hb.symm]

theorem isNaN_sum_clInit {n : Byte} (e : exec (.clInit n) s = .next t) (h : isNaN (ctlAt s.cl k).sum = true) :
    isNaN (ctlAt t.cl k).sum = true := by
  rcases execClInit_cases n s with e' | e' | ⟨-, -, e'⟩ <;> cases e'.symm.trans e <;> exact h

theorem isNaN_sum_clIterate (e : exec .clIterate s = .next t) (h : isNaN (ctlAt s.cl k).sum = true) :
    isNaN (ctlAt t.cl k).sum = true := by
  rcases execClIterate_cases s with ⟨-, e'⟩ | ⟨-, -, e'⟩ | ⟨-, -, e'⟩ <;> cases e'.symm.trans e
  · exact h
  · exact h
  · rw [complete_cl]
    exact isNaN_sum_foldl_pidStep (s := zeroedCounters s) _ h _

/-- Only a `CL_MAKE` of the entry removes a NaN from its sum (R288). -/
theorem isNaN_sum_exec {i : Instr} (e : exec i s = .next t) (hi : ∀ b, i = .clMake b → b.toNat ≠ k)
    (h : isNaN (ctlAt s.cl k).sum = true) : isNaN (ctlAt t.cl k).sum = true := by
  have hother (hu : unitNumber i ≠ 2) : isNaN (ctlAt t.cl k).sum = true := by
    obtain ⟨hcl, -⟩ := (exec_onlyUnit e).cl (unitOf_eq_unitNumber i ▸ hu)
    rwa [hcl]
  cases i with
  | clMake b => exact isNaN_sum_clMake e (hi b rfl) h
  | clInit n => exact isNaN_sum_clInit e h
  | clIterate => exact isNaN_sum_clIterate e h
  | _ => exact hother nofun

end

/-- Settles O40: a NaN passes the additions and the clamps, and no command but `CL_MAKE` writes a sum without adding to
it. -/
theorem nanSumPersistsUntilRemade : Obligations.NanSumPersistsUntilRemade := by
  refine ⟨fun i s t k => isNaN_sum_exec, fun dt s k hk ho => ?_⟩
  have hout (h : isNaN (ctlAt s.cl k).sum = true ∨ isNaN (pidError s (ctlAt s.cl k)) = true) :
      isNaN (varAt (pidStep dt s k) (ctlAt s.cl k).out.toNat) = true := by
    rw [varAt_pidStep dt ho, if_pos rfl]
    exact isNaN_pidOutput (isNaN_pidSum h dt) ..
  rw [sum_pidStep dt hk, last_pidStep dt hk]
  exact ⟨fun he => ⟨isNaN_pidSum (.inr he) dt, he, hout (.inr he)⟩, fun hs => hout (.inl hs), rfl⟩

/-! ### Zeros -/

theorem zero64_false : zero64 false = 0 := rfl

section
variable {x dt : F64}

theorem sub64_self (h : isFinite x = true) : sub64 x x = 0 := by
  rw [sub64_of_difference_eq_zero h h (sub_self _), if_neg (and_not_self (a := signBit x = true))]

theorem add64_zero64 (p q : Bool) : add64 (zero64 p) (zero64 q) = zero64 (p && q) := by
  rw [add64_of_isFinite (isFinite_zero64 p) (isFinite_zero64 q), scaled_zero64, scaled_zero64, signBit_zero64,
    signBit_zero64, if_pos (add_zero 0)]

theorem magnitude_zero64 (p : Bool) : magnitude (zero64 p) = 0 := (scaled_eq_zero_iff _).mp (scaled_zero64 p)

theorem mul64_zero64_right (h : isFinite x = true) (p : Bool) : mul64 x (zero64 p) = zero64 (signBit x != p) := by
  rw [mul64_of_isFinite h (isFinite_zero64 p), magnitude_zero64, Nat.mul_zero, roundTo_zero _ unitsPerOne_pos,
    signBit_zero64]

theorem mul64_zero64_left (h : isFinite x = true) (p : Bool) : mul64 (zero64 p) x = zero64 (p != signBit x) := by
  rw [mul64_of_isFinite (isFinite_zero64 p) h, magnitude_zero64, Nat.zero_mul, roundTo_zero _ unitsPerOne_pos,
    signBit_zero64]

theorem div64_zero64_left (h : isFinite x = true) (h0 : scaled x ≠ 0) (p : Bool) :
    div64 (zero64 p) x = zero64 (p != signBit x) := by
  rw [div64_of_isFinite (isFinite_zero64 p) h h0, magnitude_zero64, Nat.zero_mul, roundTo_zero _ (magnitude_pos h0),
    signBit_zero64]

/-- A finite value above zero has no sign and is no zero. -/
theorem positive_of_gt64_zero (h : isFinite x = true) (hgt : gt64 x 0 = true) : signBit x = false ∧ scaled x ≠ 0 := by
  rw [gt64_iff (not_isNaN_of_isFinite h) (by decide), ← scaled_lt_scaled_iff, show scaled 0 = 0 by decide] at hgt
  refine ⟨?_, hgt.ne'⟩
  rw [scaled_eq_withSignInt, withSignInt] at hgt
  cases hs : signBit x
  · rfl
  · rw [hs, if_pos rfl] at hgt
    omega

variable {c : Params} {k : Controller} (hk : ControllerOk c k)
include hk

/-- The output of three zero terms is a zero, and their signs are the gains' (R288). -/
theorem pidOutput_zero : pidOutput k 0 0 0 = zero64 (signBit k.kp && signBit k.ki && signBit k.kd) := by
  rw [pidOutput, ← zero64_false, mul64_zero64_right hk.kp_finite, mul64_zero64_right hk.ki_finite,
    mul64_zero64_right hk.kd_finite, add64_zero64, add64_zero64, clamp64_zero64 hk.outmax_ok]
  simp only [Bool.bne_false]

variable (hfin : isFinite dt = true) (hpos : gt64 dt 0 = true)
include hfin hpos

/-- Without an error a zero sum stays (R288). -/
theorem pidSum_zero (hsum : k.sum = 0) : pidSum k 0 dt = 0 := by
  obtain ⟨hsign, -⟩ := positive_of_gt64_zero hfin hpos
  rw [pidSum, hsum, ← zero64_false, mul64_zero64_left hfin, hsign, bne_self_eq_false, add64_zero64,
    clamp64_zero64 hk.imax_ok, Bool.and_self]

/-- Without an error now and before there is no derivative (R288). -/
theorem pidDerivative_zero (hlast : k.last = 0) : pidDerivative k 0 dt = 0 := by
  obtain ⟨hsign, h0⟩ := positive_of_gt64_zero hfin hpos
  rw [pidDerivative, hlast, sub64_self (by decide), ← zero64_false, div64_zero64_left hfin h0, hsign, bne_self_eq_false,
    clamp64_zero64 hk.dmax_ok]

end

/-- Settles O39: each term of the step is a zero. -/
theorem zeroErrorGivesZeroOutput : Obligations.ZeroErrorGivesZeroOutput := by
  intro c s k dt hok hk ho hsum hlast heq hv hfin hpos
  have herror : pidError s (ctlAt s.cl k) = 0 := by rw [pidError, ← heq, sub64_self hv]
  rw [sum_pidStep dt hk, last_pidStep dt hk, varAt_pidStep dt ho, if_pos rfl, herror, pidSum_zero hok hfin hpos hsum,
    pidDerivative_zero hok hfin hpos hlast, pidOutput_zero hok]
  refine ⟨rfl, rfl, ?_⟩
  cases signBit (ctlAt s.cl k).kp && signBit (ctlAt s.cl k).ki && signBit (ctlAt s.cl k).kd <;> rfl

end Sys2Proof.Proofs

/-! ## The commands of the control loop -/

namespace Sys2Proof.Proofs

open Sys2Proof.Machine Sys2Proof.Safety Sys2Proof.Laws
open Sys2Proof.Config (Params)

/-! ### `CL_MAKE` -/

section
variable {s : State} {k : Byte}

/-- The operands that name variables are inside the file (R283). -/
def VariablesInRange (s : State) : Prop :=
  (iargSp s).toNat < s.cfg.varCount ∧ (iargMeas s).toNat < s.cfg.varCount ∧ (iargOut s).toNat < s.cfg.varCount

/-- The gains and the limits are ones that `CL_MAKE` accepts (R283). -/
def OperandsOk (s : State) : Prop :=
  (∀ j : Fin 6, j.val < 3 → isFinite s.args[j] = true) ∧ ∀ j : Fin 6, 3 ≤ j.val → limitOk s.args[j] = true

theorem operandsOk_iff (s : State) :
    OperandsOk s ↔ (isFinite s.args[0] && isFinite s.args[1] && isFinite s.args[2]) = true
      ∧ (limitOk s.args[3] && limitOk s.args[4] && limitOk s.args[5]) = true := by
  simp [OperandsOk, Fin.forall_fin_succ, and_assoc]

theorem execClMake_indexRange (h : s.cfg.clNmax ≤ k.toNat ∨ ¬ VariablesInRange s) :
    execClMake k s = .next (complete .h .indexRange 0 s) := by
  unfold VariablesInRange at h
  unfold execClMake
  split
  · rfl
  · rw [if_pos (by omega)]
    rfl

theorem execClMake_badArg (hk : k.toNat < s.cfg.clNmax) (hv : VariablesInRange s) (h : ¬ OperandsOk s) :
    execClMake k s = .next (complete .h .badArg 0 s) := by
  rw [operandsOk_iff, not_and_or, Bool.not_eq_true, Bool.not_eq_true] at h
  unfold VariablesInRange at hv
  rw [execClMake, if_neg (by omega), if_neg (by omega)]
  rcases h with h | h
  · rw [h]
    rfl
  · rw [h]
    exact ite_self _

theorem execClMake_ok (hk : k.toNat < s.cfg.clNmax) (hv : VariablesInRange s) (h : OperandsOk s) :
    execClMake k s
      = .next (complete .h .ok 0
          { s with cl := { s.cl with table := s.cl.table.set k.toNat (madeController s) } }) := by
  obtain ⟨hgains, hlimits⟩ := (operandsOk_iff s).mp h
  unfold VariablesInRange at hv
  rw [execClMake, if_neg (by omega), if_neg (by omega), hgains, hlimits]
  rfl

end

/-- Settles O34: the checks of `CL_MAKE` in their order, then the write of one entry. -/
theorem clMakeWritesOneEntry : Obligations.ClMakeWritesOneEntry := by
  intro s k hlen
  refine ⟨fun h => ?_, fun hk hsp hmeas hout => ⟨fun h => ?_, fun hgains hlimits => ?_⟩⟩
  · refine execClMake_indexRange (h.imp_right fun h hv => ?_)
    obtain ⟨hsp, hmeas, hout⟩ := hv
    omega
  · refine execClMake_badArg hk ⟨hsp, hmeas, hout⟩ fun ⟨hgains, hlimits⟩ => ?_
    rcases h with ⟨j, hj, h⟩ | ⟨j, hj, h⟩
    · exact nomatch h.symm.trans (hgains j hj)
    · obtain ⟨hnan, hneg⟩ := (limitOk_eq_true_iff _).mp (hlimits j hj)
      rcases h with h | h
      · exact nomatch h.symm.trans hnan
      · exact nomatch h.symm.trans hneg
  · have hset := ctlAt_set (hlen ▸ hk) (madeController s)
    refine ⟨_, execClMake_ok hk ⟨hsp, hmeas, hout⟩
      ⟨hgains, fun j hj => (limitOk_eq_true_iff _).mpr (hlimits j hj)⟩, List.length_set, ?_, fun j hj => ?_⟩
    · exact (hset _).trans (if_pos rfl)
    · exact (hset j).trans (if_neg hj)

/-! ### `CL_INIT` -/

section
variable {s : State} {n : Byte}

theorem execClInit_badArg (h : s.cfg.clNmax < n.toNat) : execClInit n s = .next (complete .h .badArg 0 s) := if_pos h

theorem execClInit_notInit (hn : n.toNat ≤ s.cfg.clNmax) (h : ∃ k < n.toNat, (ctlAt s.cl k).valid = false) :
    execClInit n s = .next (complete .h .notInit 0 s) := by
  rw [execClInit, if_neg (Nat.not_lt.mpr hn), if_pos (by simpa using h)]
  rfl

theorem execClInit_ok (hn : n.toNat ≤ s.cfg.clNmax) (h : ∀ k < n.toNat, (ctlAt s.cl k).valid = true) :
    execClInit n s
      = .next (complete .h .ok 0 { s with cl := { s.cl with n := n.setWidth 6, cnt := 0, ovf := 0, run := true } }) := by
  rw [execClInit, if_neg (Nat.not_lt.mpr hn), if_neg (by simpa using h)]
  rfl

end

/-- Settles O35: the two checks of `CL_INIT`, then its writes; `cl_n` holds every accepted count. -/
theorem clInitStartsTheTimer : Obligations.ClInitStartsTheTimer := by
  intro s n hwf
  refine ⟨execClInit_badArg, execClInit_notInit, fun hn hvalid => ⟨_, execClInit_ok hn hvalid, ?_⟩⟩
  have hmax := (clBounds_of_wellFormed hwf).nmax_le
  rw [BitVec.toNat_setWidth, Nat.mod_eq_of_lt (by omega)]

/-! ### `CL_ITERATE` -/

/-- A timer without a tick stands at zero already. -/
theorem zeroedCounters_of_no_ticks {s : State} (hc : ClBounds s.cfg) (h : elapsedTicks s.cfg s.cl = 0) :
    zeroedCounters s = s := by
  have hge := hc.top_ge
  obtain ⟨hmul, hcnt⟩ := Nat.add_eq_zero_iff.mp h
  have hcnt0 : s.cl.cnt = 0 := BitVec.eq_of_toNat_eq hcnt
  have hovf0 : s.cl.ovf = 0 := BitVec.eq_of_toNat_eq ((Nat.mul_eq_zero.mp hmul).resolve_right (by omega))
  calc
    _ = { s with cl := { s.cl with cnt := s.cl.cnt, ovf := s.cl.ovf } } := by rw [zeroedCounters, hcnt0, hovf0]
    _ = s := rfl

theorem zeroedCounters_loopInv {s : State} (hc : ClBounds s.cfg) (hu : LoopInv s.cfg s.cl) (hr : s.cl.run = true) :
    LoopInv s.cfg (zeroedCounters s).cl :=
  { hu with
    cnt_lt := Nat.zero_lt_of_lt hc.top_ge
    idle := fun h => nomatch h.symm.trans hr }

/-- The registered controllers' steps in order, each on the state that the one before left (R285). -/
theorem foldl_pidStep_pidStepTo (dt : F64) {c : Params} {s : State} (hu : LoopInv c s.cl)
    (hvars : s.vars.length = c.varCount) {k : Nat} (hk : k < s.cl.n.toNat) :
    PidStepTo dt k ((List.range k).foldl (pidStep dt) s) ((List.range (k + 1)).foldl (pidStep dt) s) := by
  obtain ⟨hinv, hlen⟩ := foldl_pidStep_inv (ks := List.range k) dt hu fun j hj => (List.mem_range.mp hj).trans hk
  have hlt : k < c.clNmax := hk.trans_le hu.n_le
  have hn : ((List.range k).foldl (pidStep dt) s).cl.n = s.cl.n := by rw [foldl_pidStep_frame]
  have hmade := hinv.made k hlt (hinv.registered k (hn ▸ hk))
  rw [List.range_succ, List.foldl_append, List.foldl_cons, List.foldl_nil]
  exact pidStep_pidStepTo dt (hinv.length_eq ▸ hlt) (by rw [hlen, hvars]; exact hmade.out_lt)

/-- Settles O36: the three answers of `CL_ITERATE`; the states between are those of the fold over the first entries. -/
theorem clIterateRunsTheControllersInOrder : Obligations.ClIterateRunsTheControllersInOrder := by
  intro s hwf hu hvars
  have hc := clBounds_of_wellFormed hwf
  refine ⟨execClIterate_of_stopped, fun hr h0 => ?_, fun hr hpos => ?_⟩
  · have e := execClIterate_of_no_ticks hr h0
    rwa [zeroedCounters_of_no_ticks hc h0] at e
  · have hres : (BitVec.ofNat 32 (elapsedTicks s.cfg s.cl)).toNat = elapsedTicks s.cfg s.cl := by
      rw [BitVec.toNat_ofNat, Nat.mod_eq_of_lt (elapsedTicks_lt hc _)]
    have hzeroed := zeroedCounters_loopInv hc hu hr
    refine ⟨fun k => (List.range k).foldl (pidStep (div64 (to64 (elapsedTicks s.cfg s.cl)) (to64 s.cfg.fClk)))
      (zeroedCounters s), _, execClIterate_of_ticks hr hpos.ne', hres, rfl, fun k hk => ?_⟩
    rw [hres]
    exact foldl_pidStep_pidStepTo _ hzeroed hvars hk

end Sys2Proof.Proofs

/-!
PROOFS. The statement of the family 60_exceptions: where the one fault of the model comes from, and why no step meets it.
-/

/-! ## Where a fault comes from -/

namespace Sys2Proof.Proofs

open Sys2Proof.Machine Sys2Proof.Safety Sys2Proof.Laws

/-- In `s`, with the buffer initialised, the access to `rb_mem[j]` lies beyond `RB_SIZE` and faults with `r` (log 6). -/
structure FaultsAt (s : State) (j : Nat) (r : Fault) : Prop where
  ready : s.rb.ready = true
  beyond : s.cfg.rbSize ≤ j
  reason : r = .storageOutOfRange j

section
variable {s : State} {r : Fault}

theorem withStorage_fault {j : Nat} {k : Answer} (h : withStorage s j k = .fault r) :
    (s.cfg.rbSize ≤ j ∧ r = .storageOutOfRange j) ∨ k = .fault r := by
  unfold withStorage at h
  split at h
  · exact .inr h
  · next hj => exact .inl ⟨Nat.not_lt.mp hj, (Host.Outcome.fault.inj h).symm⟩

/-- An access that goes on to a next state faults only by its own index. -/
theorem faultsAt_of_withStorage {j : Nat} {k : Answer} (hr : s.rb.ready = true) (h : withStorage s j k = .fault r)
    (hk : k ≠ .fault r) : FaultsAt s j r := by
  obtain ⟨hj, he⟩ | e := withStorage_fault h
  · exact ⟨hr, hj, he⟩
  · exact absurd e hk

/-- `RB_PUSH`, `RB_POP` and `RB_PEEK` fault only in their one access to the storage (R172, R178, R179). -/
theorem faultsAt_of_checkedStorage {q : Prop} [Decidable q] {j : Nat} {t u v : State}
    (h : (if s.rb.ready = true then if q then .next t else withStorage s j (.next u) else .next v : Answer) = .fault r) :
    FaultsAt s j r := by
  split at h
  · next hr =>
    split at h
    · cases h
    · exact faultsAt_of_withStorage hr h nofun
  · cases h

theorem execRbPush_fault {a : Byte} (h : execRbPush a s = .fault r) : FaultsAt s s.rb.wr.toNat r :=
  faultsAt_of_checkedStorage h

theorem execRbPop_fault (h : execRbPop s = .fault r) : FaultsAt s s.rb.rd.toNat r := faultsAt_of_checkedStorage h

theorem execRbPeek_fault (h : execRbPeek s = .fault r) : FaultsAt s s.rb.rd.toNat r := faultsAt_of_checkedStorage h

theorem execRbPushOverwrite_fault {a : Byte} (h : execRbPushOverwrite a s = .fault r) :
    FaultsAt s s.rb.wr.toNat r := by
  unfold execRbPushOverwrite at h
  split at h
  · cases h
  · split at h
    · next hr => exact faultsAt_of_withStorage hr h (by split <;> nofun)
    · cases h

theorem ringQuery_ne_fault (x : Port) (f : Nat → Nat → Nat → Word) : ringQuery x f s ≠ .fault r := by
  obtain ⟨-, e⟩ | ⟨w, r, -, ⟨-, e⟩ | ⟨-, e⟩⟩ := ringQuery_cases x f s <;> rw [e] <;> nofun

/-- A command faults only where it accesses the storage, at one of the buffer's two indices. -/
theorem exec_fault {i : Instr} (h : exec i s = .fault r) :
    FaultsAt s s.rb.wr.toNat r ∨ FaultsAt s s.rb.rd.toNat r := by
  cases i with
  | nop x => cases (execNop_cases x s).symm.trans h
  | psInit n => obtain e | ⟨-, e⟩ := execPsInit_cases n s <;> cases e.symm.trans h
  | psSetChannel index =>
    obtain ⟨-, e⟩ | ⟨-, -, e⟩ | ⟨-, -, e⟩ := execPsSetChannel_cases index s <;> cases e.symm.trans h
  | psSetAll => obtain ⟨-, e⟩ | ⟨-, e⟩ := execPsSetAll_cases s <;> cases e.symm.trans h
  | psSetChannels base =>
    obtain ⟨-, e⟩ | ⟨-, -, e⟩ | ⟨-, -, e⟩ := execPsSetChannels_cases base s <;> cases e.symm.trans h
  | clMake k => obtain e | e | e := execClMake_cases k s <;> cases e.symm.trans h
  | clInit n => obtain e | e | ⟨-, -, e⟩ := execClInit_cases n s <;> cases e.symm.trans h
  | clIterate => obtain ⟨-, e⟩ | ⟨-, -, e⟩ | ⟨-, -, e⟩ := execClIterate_cases s <;> cases e.symm.trans h
  | rbInit len => obtain e | ⟨-, -, e⟩ := execRbInit_cases len s <;> cases e.symm.trans h
  | rbPush a => exact .inl (execRbPush_fault h)
  | rbPushOverwrite a => exact .inl (execRbPushOverwrite_fault h)
  | rbIsEmpty x => exact absurd (exec_rbIsEmpty x s ▸ h) (ringQuery_ne_fault x _)
  | rbIsFull x => exact absurd (exec_rbIsFull x s ▸ h) (ringQuery_ne_fault x _)
  | rbPushAvailable x => exact absurd (exec_rbPushAvailable x s ▸ h) (ringQuery_ne_fault x _)
  | rbPopAvailable x => exact absurd (exec_rbPopAvailable x s ▸ h) (ringQuery_ne_fault x _)
  | rbPop => exact .inr (execRbPop_fault h)
  | rbPeek => exact .inr (execRbPeek_fault h)

/-- Of the bus accesses, only a write that runs a command can fault (R84, R150). -/
theorem busWrite_fault {x : Port} {off : Nat} {v : Word} (h : busWrite x off v s = .fault r) :
    ∃ i, exec i s = .fault r := by
  obtain ⟨-, e⟩ | ⟨_, -, -, e⟩ | ⟨-, e⟩ := busWrite_cases x off v s
  · obtain ⟨i, -, e'⟩ | ⟨_, -, e'⟩ := runCommand_cases x v s
    · exact ⟨i, (e.trans e').symm.trans h⟩
    · cases (e.trans e').symm.trans h
  · cases e.symm.trans h
  · cases e.symm.trans h

theorem busAccess_fault {a : Access} (h : busAccess a s = .fault r) : ∃ i, exec i s = .fault r := by
  unfold busAccess at h
  split at h
  · cases h
  split at h
  · cases h
  split at h
  · cases h
  split at h
  · cases h
  split at h
  · cases h
  · exact busWrite_fault h

/-- An agent's step faults only by a command that it runs (R20). -/
theorem perform_fault {a : Action} (h : perform a s = .fault r) : ∃ i, exec i s = .fault r := by
  cases a with
  | bus b => exact busAccess_fault h
  | clk => cases h
  | syncP => simp only [perform, syncP] at h; split at h <;> cases h
  | syncC => simp only [perform, syncC] at h; split at h <;> cases h
  | reset => cases h

end

/-! ## No step faults -/

/-- The indices of a ready buffer lie inside the storage (R47, R48), so no agent's step faults. -/
theorem perform_ne_fault {s : State} (h : StateInv s) (a : Action) (r : Fault) : perform a s ≠ .fault r := by
  intro e
  obtain ⟨i, hi⟩ := perform_fault e
  obtain hf | hf := exec_fault hi
  · exact absurd (h.ring.ready_ok hf.ready).wr_inside (Nat.not_lt.mpr hf.beyond)
  · exact absurd (h.ring.ready_ok hf.ready).rd_inside (Nat.not_lt.mpr hf.beyond)

/-- Settles O55: a step is one agent's, taken in a state that meets the invariant too. -/
theorem noStepFaults : Obligations.NoStepFaults := by
  intro s r h e
  cases hp : s.pending with
  | nil =>
    have hfree : StateInv { s with turn := s.turn + 1 } := { h with }
    exact perform_ne_fault hfree _ r ((step_free hp).symm.trans e)
  | cons a rest =>
    have hplaced : StateInv { s with pending := rest } := { h with }
    exact perform_ne_fault hplaced a r ((step_placed hp).symm.trans e)

end Sys2Proof.Proofs

/-!
PROOFS. The statements of the family 70_reset_and_hazards: what the reset event leaves, what the block does before any
unit is initialised, and the invariant after reset.
-/

/-! ## The reset event -/

namespace Sys2Proof.Proofs

open Sys2Proof.Machine Sys2Proof.Safety Sys2Proof.Laws
open Sys2Proof.Config (Params)

@[simp] theorem platformReset_port (s : State) (x : Port) : (platformReset s).port x = resetPort (s.port x) := by
  cases x <;> rfl

/-! ### The tables after reset, also beyond their ends (log 14) -/

theorem dutyAt_pulseReset (c : Params) (i : Nat) : dutyAt (Pulse.reset c) i = 0 :=
  List.getElem?_getD_replicate_default_eq _ _ _

theorem varAt_platformReset (s : State) (i : Nat) : varAt (platformReset s) i = 0 :=
  List.getElem?_getD_replicate_default_eq _ _ _

/-- As `ctlAt_loopReset`, for every index. -/
theorem ctlAt_loopReset_any (c : Params) (k : Nat) : ctlAt (Loop.reset c) k = .reset :=
  List.getElem?_getD_replicate_default_eq _ _ _

theorem pwmOut_platformReset (s : State) (i : Nat) : pwmOut (platformReset s) i = false := BitVec.getLsbD_zero

/-- Settles O51: the ports and the operand registers, then the elements of PS, VAR, CL and RB. -/
theorem resetEventClearsTheBlock : Obligations.ResetEventClearsTheBlock := by
  intro s
  have hports : ∀ x, ((platformReset s).port x).status = 0 ∧ ((platformReset s).port x).res = 0 := fun x => by
    rw [platformReset_port]
    exact ⟨rfl, rfl⟩
  have hargs : ∀ k : Fin 6, (platformReset s).args[k] = 0 := fun k => Vector.getElem_replicate k.isLt
  exact ⟨platformReset s, rfl, platformReset_cfg s, hports, hargs, platformReset_iarg s,
    rfl, rfl, rfl, rfl, rfl, rfl, rfl, rfl, dutyAt_pulseReset s.cfg, pwmOut_platformReset s,
    List.length_replicate, varAt_platformReset s,
    rfl, rfl, rfl, rfl, List.length_replicate, ctlAt_loopReset_any s.cfg,
    rfl, rfl, rfl, rfl, rfl, rfl⟩

/-! ## The idle block -/

/-- No unit is initialised: no `PS_INIT`, `CL_INIT` or `RB_INIT` has succeeded since reset (R391). -/
structure UnitsIdle (s : State) : Prop where
  unarmed : s.ps.armed = false
  stopped : s.cl.run = false
  notReady : s.rb.ready = false

theorem unitsIdle_resetOf (c : Params) : UnitsIdle (State.resetOf c) := ⟨rfl, rfl, rfl⟩

namespace UnitsIdle
variable {s : State} (h : UnitsIdle s)
include h

theorem clkStep_eq : clkStep s = s := by
  rw [clkStep, clClk_stopped _ h.stopped, psClk_unarmed _ h.unarmed]

theorem performAll_clk (k : Nat) : performAll (List.replicate k .clk) s = .next s := by
  induction k with
  | zero => exact performAll_nil s
  | succ k ih => exact performAll_cons_next.mpr ⟨s, congrArg Host.Outcome.next h.clkStep_eq, ih⟩

theorem ringQuery_eq {x : Port} (hx : x.isRing = true) (f : Nat → Nat → Nat → Word) :
    ringQuery x f s = .next (reported s x 4 0) := by
  cases x with
  | h => cases hx
  | p => exact ringQuery_notInit (ringPair_p s) f h.notReady
  | c => exact ringQuery_notInit (ringPair_c s) f h.notReady

/-- The four queries on a port of the ring buffer (R174 to R177). -/
theorem exec_queries {x : Port} (hx : x.isRing = true) :
    exec (.rbIsEmpty x) s = .next (reported s x 4 0)
      ∧ exec (.rbIsFull x) s = .next (reported s x 4 0)
      ∧ exec (.rbPushAvailable x) s = .next (reported s x 4 0)
      ∧ exec (.rbPopAvailable x) s = .next (reported s x 4 0) :=
  ⟨(exec_rbIsEmpty x s).trans (h.ringQuery_eq hx _), (exec_rbIsFull x s).trans (h.ringQuery_eq hx _),
    (exec_rbPushAvailable x s).trans (h.ringQuery_eq hx _), (exec_rbPopAvailable x s).trans (h.ringQuery_eq hx _)⟩

/-- R342 puts `ILLEGAL` before `NOT_INIT` (R173). -/
theorem exec_rbPushOverwrite (a : Byte) :
    exec (.rbPushOverwrite a) s = .next (reported s .p (if s.cfg.rbCdc then 6 else 4) 0) := by
  cases hc : s.cfg.rbCdc with
  | true => exact exec_rbPushOverwrite_illegal hc
  | false => exact exec_rbPushOverwrite_notInit hc h.notReady

/-- The commands without an operand that need an initialised unit: of PS, of CL, the ring buffer's queries on its two
ports, and its reads. -/
theorem exec_notInit : ∀ i ∈ [Instr.psSetAll, .clIterate, .rbIsEmpty .p, .rbIsEmpty .c, .rbIsFull .p, .rbIsFull .c,
      .rbPushAvailable .p, .rbPushAvailable .c, .rbPopAvailable .p, .rbPopAvailable .c, .rbPop, .rbPeek],
    exec i s = .next (reported s i.port 4 0) := by
  simp only [List.forall_mem_cons]
  obtain ⟨hpEmpty, hpFull, hpPush, hpPop⟩ := h.exec_queries (x := .p) rfl
  obtain ⟨hcEmpty, hcFull, hcPush, hcPop⟩ := h.exec_queries (x := .c) rfl
  exact ⟨exec_psSetAll_notInit h.unarmed, execClIterate_of_stopped h.stopped,
    hpEmpty, hcEmpty, hpFull, hcFull, hpPush, hcPush, hpPop, hcPop,
    exec_rbPop_notInit h.notReady, exec_rbPeek_notInit h.notReady, List.forall_mem_nil _⟩

end UnitsIdle

/-- Settles O52: after reset no unit is initialised. -/
theorem blockIsIdleAfterReset : Obligations.BlockIsIdleAfterReset := by
  intro c k
  have h := unitsIdle_resetOf c
  exact ⟨h.performAll_clk k, h.exec_notInit, fun a => ⟨exec_psSetChannel_notInit h.unarmed,
    exec_psSetChannels_notInit h.unarmed, exec_rbPush_notInit h.notReady, h.exec_rbPushOverwrite a⟩⟩

/-! ## The invariant after reset -/

/-- Settles O53: each unit's reset state meets that unit's invariant. -/
theorem resetMeetsTheInvariant : Obligations.ResetMeetsTheInvariant := fun c hc =>
  { cfg_ok := hc
    vars_length := List.length_replicate
    pulse := pulseInv_pulseReset c
    loop := loopInv_loopReset (clBounds_of_wellFormed hc)
    ring := ringInv_ringReset c
    statusH := ⟨.ok, rfl⟩
    statusP := ⟨.ok, rfl⟩
    statusC := ⟨.ok, rfl⟩ }

end Sys2Proof.Proofs
